-- ==== Sys2Proof/Word.lean ====
section
/-! DEFINITION. The word types of the encodings: a byte of the flash image, the 32 bits of a CMD32 frame and the read
frame's 24-bit address operand (30_encoding.md R116). Every value is
unsigned. A register whose width is a parameter of R12 (I2C data, LR address and length, BS shift register and read
address) is a natural number below `2 ^ width`. -/

namespace Sys2Proof

/-- A byte of the flash image (20_memory.md R82). -/
abbrev Byte := BitVec 8

/-- The 32 bits of a CMD32 frame (30_encoding.md R116). -/
abbrev FrameWord := BitVec 32

/-- The address operand of the read frame, bits 23:0 (30_encoding.md R116). -/
abbrev FrameAddr := BitVec 24

end Sys2Proof
end

