-- ==== Sys2Proof/Config.lean ====
section
/-! DEFINITION. The named configuration values of 00_scope.md R11 and R12 with the source's defaults, and the values
that this model's reset system gives to the OPEN parameters. Every parameter is data of an instance's own record
(Machine/State.lean), so no meaning reads a constant of this file except the two frame opcodes of the opcode table
(DEDUCED, log 24). -/

namespace Sys2Proof.Config

/-- `I2C_TIMEOUT` (R12). -/
def i2cTimeout : Nat := 5
/-- `LR_PACING` (R12). -/
def lrPacing : Nat := 2
/-- `LR_FILL` (R12). -/
def lrFill : Byte := 0xFF#8
/-- `BS_PU_EDGE` (R12). -/
def bsPuEdge : Nat := 7
/-- `BS_RD_EDGE` (R12). -/
def bsRdEdge : Nat := 31
/-- `OPC_RPD` (R12), and the opcode of the release-power-down frame (30_encoding.md R115). -/
def opcRpd : Byte := 0xAB#8
/-- `OPC_READ` (R12), and the opcode of the read frame (30_encoding.md R116). -/
def opcRead : Byte := 0x03#8
/-- `BS_SR_W` (R12). -/
def bsSrW : Nat := 32
/-- `BS_ADDR_W` (R12). -/
def bsAddrW : Nat := 24
/-- `BS_FILL_BIT` (R12). -/
def bsFillBit : Bool := false

/-- `I2C_IN_W` of the reset system. OPEN in R12. DESIGN CHOICE (log 6, unsafe): 8, the width of 95_test_vectors.md. -/
def i2cInW : Nat := 8
/-- `I2C_OUT_W` of the reset system. OPEN in R12. DESIGN CHOICE (log 6, unsafe). -/
def i2cOutW : Nat := 8
/-- `LR_AW` of the reset system. OPEN in R12. DESIGN CHOICE (log 6, unsafe). -/
def lrAw : Nat := 24
/-- `LR_LW` of the reset system. OPEN in R12. DESIGN CHOICE (log 6, unsafe). -/
def lrLw : Nat := 8

end Sys2Proof.Config
end

