-- ==== Sys2Proof/Syntax.lean ====
section
/-! DEFINITION. The operations of 30_encoding.md R119, one constructor a row of the opcode table, and the stimulus
line that encodes one: the format, the instance it is for, the control vector or frame, and the data operands that
stand beside the vector (R111, R113). -/

namespace Sys2Proof

/-- Which instance a line or a host call is for: its machine kind and its place among the instances of that kind.
The spec gives instances no identifiers (60_exceptions.md R272); the host holds a reference, written here as a number.
DESIGN CHOICE (log 3, safe). -/
inductive InstId where
  | i2c (k : Nat)
  | lr (k : Nat)
  | bs (k : Nat)
deriving DecidableEq, Repr

/-- The formats of the opcode table (30_encoding.md R119). -/
inductive Format where
  | i2cCtl
  | lrCtl
  | bsWire
  | cmd8
  | cmd32
  | host
deriving DecidableEq, Repr

/-- The operations of the opcode table (30_encoding.md R119). `k` is the instance. An I2C control vector that requests
several operations (R112) is the constructor of its LOWEST request bit; the constructor carries the higher bits
and both data operands, and its meaning performs all that the vector requests. DESIGN CHOICE (log 4, safe). -/
inductive Instr where
  /-- I2C.TICK: no request bit set; `ack` is bit 4 (41_i2c_target.md R161, R163, R167, R168). -/
  | i2cTick (k : Nat) (ack : Bool) (inDin outDin : Nat)
  /-- I2C.START: bit 0 set (R166). -/
  | i2cStart (k : Nat) (we ore pub ack : Bool) (inDin outDin : Nat)
  /-- I2C.IN_WRITE: bit 1 is the lowest request bit (R169). -/
  | i2cInWrite (k : Nat) (ore pub ack : Bool) (inDin outDin : Nat)
  /-- I2C.OUT_READ: bit 2 is the lowest request bit (R164). -/
  | i2cOutRead (k : Nat) (pub ack : Bool) (inDin outDin : Nat)
  /-- I2C.OUT_PUBLISH: bit 3 is the only request bit (R165). -/
  | i2cOutPublish (k : Nat) (ack : Bool) (inDin outDin : Nat)
  /-- LR.TICK: `start = 0` (42_spinor_linear_reader.md R201 to R205). -/
  | lrTick (k : Nat) (addr len : Nat)
  /-- LR.START: `start = 1` (R206). -/
  | lrStart (k : Nat) (addr len : Nat)
  /-- BS.TICK: one edge of the two wires (43_spinor_bitserial.md R221). -/
  | bsTick (k : Nat) (cs si : Bool)
  /-- BS.RELEASE_POWER_DOWN: the 8-bit frame 0xAB (30_encoding.md R115, 43_spinor_bitserial.md R225). -/
  | bsReleasePowerDown (k : Nat)
  /-- BS.READ: the 32-bit frame 0x03 and a 24-bit address (30_encoding.md R116, 43_spinor_bitserial.md R226). -/
  | bsRead (k : Nat) (addr : FrameAddr)
  /-- HOST.RESET (70_reset_and_hazards.md R280). -/
  | hostReset (id : InstId)
  /-- HOST.EVALUATE (40_clock_discipline.md R143). -/
  | hostEvaluate (id : InstId)
  /-- HOST.COMMIT (40_clock_discipline.md R145). -/
  | hostCommit (id : InstId)
deriving DecidableEq, Repr

/-- One encoded operation: the control vector or frame of its format (bit 0 least significant, R15), and the two data
operands beside the vector (`in_din`, `out_din` for I2C_CTL; `lr_addr_in`, `lr_len_in` for LR_CTL; 0 elsewhere). -/
structure Line where
  fmt : Format
  unit : InstId
  ctl : BitVec 32
  opA : Nat
  opB : Nat
deriving DecidableEq, Repr

/-- Why the decoder names no operation for a line. -/
inductive DecodeError where
  /-- A vector or frame with a bit set above its format's width (R111, R113, R114, R115, R120). -/
  | vectorTooWide (fmt : Format)
  /-- A line whose instance is not of the format's machine. -/
  | wrongUnit (fmt : Format)
  /-- A data operand beside a vector of a format that has none. -/
  | strayOperand (fmt : Format)
  /-- A frame of `n` bits whose opcode is none of R115 and R116: legal on the wire and ignored by the recognizer (R121). -/
  | unrecognisedFrame (n : Nat)
  /-- Host call 3 names no call (R120). -/
  | hostCall3
deriving DecidableEq, Repr

/-- The pseudo-instructions of the stimulus notation (30_encoding.md R123). -/
inductive Pseudo where
  | wait (id : InstId) (n : Nat)
  | send8 (k : Nat) (b : Byte)
  | send32 (k : Nat) (w : FrameWord)
  | rpd (k : Nat)
  | read (k : Nat) (addr : FrameAddr)
  | deselect (k : Nat)
  | clock (k : Nat) (n : Nat)
deriving DecidableEq, Repr

end Sys2Proof
end

