-- ==== Sys2Proof/WellFormed.lean ====
section
/-! DEFINITION. Well-formed lines and operations: what the formats and the port widths admit (30_encoding.md R111 to
R116, R120; 00_scope.md R12). -/

namespace Sys2Proof

/-- The OPEN port widths an operand must fit (00_scope.md R12). -/
structure Widths where
  inW : Nat
  outW : Nat
  aw : Nat
  lw : Nat
deriving DecidableEq, Repr

/-- The width in bits of a format's vector or frame (30_encoding.md R111, R113, R114, R115, R116, R120). -/
def Format.width : Format → Nat
  | .i2cCtl => 5
  | .lrCtl => 1
  | .bsWire => 2
  | .cmd8 => 8
  | .cmd32 => 32
  | .host => 2

/-- Does a line of this format go to an instance of this kind? A host call goes to any. -/
def Format.takes : Format → InstId → Bool
  | .i2cCtl, .i2c _ => true
  | .lrCtl, .lr _ => true
  | .bsWire, .bs _ => true
  | .cmd8, .bs _ => true
  | .cmd32, .bs _ => true
  | .host, _ => true
  | _, _ => false

/-- Does the format have data operands beside its vector (R111, R113)? -/
def Format.hasOperands : Format → Bool
  | .i2cCtl => true
  | .lrCtl => true
  | .bsWire => false
  | .cmd8 => false
  | .cmd32 => false
  | .host => false

/-- The line's vector fits its format. -/
def Line.fits (l : Line) : Bool := decide (l.ctl.toNat < 2 ^ l.fmt.width)

/-- A well-formed line: the vector fits, the instance is of the format's machine, no operand stands beside a format
that has none. -/
def Line.wf (l : Line) : Bool :=
  l.fits && l.fmt.takes l.unit && (l.fmt.hasOperands || (l.opA == 0 && l.opB == 0))

/-- A well-formed operation: every data operand fits its port (R110). The other operands fit by their types. -/
def Instr.wf (p : Widths) : Instr → Bool
  | .i2cTick _ _ inDin outDin => decide (inDin < 2 ^ p.inW) && decide (outDin < 2 ^ p.outW)
  | .i2cStart _ _ _ _ _ inDin outDin => decide (inDin < 2 ^ p.inW) && decide (outDin < 2 ^ p.outW)
  | .i2cInWrite _ _ _ _ inDin outDin => decide (inDin < 2 ^ p.inW) && decide (outDin < 2 ^ p.outW)
  | .i2cOutRead _ _ _ inDin outDin => decide (inDin < 2 ^ p.inW) && decide (outDin < 2 ^ p.outW)
  | .i2cOutPublish _ _ inDin outDin => decide (inDin < 2 ^ p.inW) && decide (outDin < 2 ^ p.outW)
  | .lrTick _ addr len => decide (addr < 2 ^ p.aw) && decide (len < 2 ^ p.lw)
  | .lrStart _ addr len => decide (addr < 2 ^ p.aw) && decide (len < 2 ^ p.lw)
  | .bsTick _ _ _ => true
  | .bsReleasePowerDown _ => true
  | .bsRead _ _ => true
  | .hostReset _ => true
  | .hostEvaluate _ => true
  | .hostCommit _ => true

end Sys2Proof
end

