-- ==== Sys2Proof/Decode.lean ====
section
/-! DEFINITION. The decoder and the encoder of stimulus lines (30_encoding.md R111 to R121), the pseudo-instructions
(R123), and the reading of a bare opcode-table word. The layouts of I2C_CTL, LR_CTL, BS_WIRE and HOST are the spec's own
(D25); CMD8 and CMD32 are the source's. -/

namespace Sys2Proof

/-- The operation of a legal I2C control vector (R111, R112): its lowest request bit names the constructor (log 4). -/
def decodeI2c (k : Nat) (v : BitVec 32) (inDin outDin : Nat) : Instr :=
  let we := v.getLsbD 1
  let ore := v.getLsbD 2
  let pub := v.getLsbD 3
  let ack := v.getLsbD 4
  if v.getLsbD 0 then .i2cStart k we ore pub ack inDin outDin
  else if we then .i2cInWrite k ore pub ack inDin outDin
  else if ore then .i2cOutRead k pub ack inDin outDin
  else if pub then .i2cOutPublish k ack inDin outDin
  else .i2cTick k ack inDin outDin

/-- The operation of a legal LR control vector (R113). -/
def decodeLr (k : Nat) (v : BitVec 32) (addr len : Nat) : Instr :=
  if v.getLsbD 0 then .lrStart k addr len else .lrTick k addr len

/-- The operation of an 8-bit frame (R115), or that it is unrecognised (R121). -/
def decodeCmd8 (k : Nat) (v : BitVec 32) : Except DecodeError Instr :=
  if v.extractLsb' 0 8 = Config.opcRpd then .ok (.bsReleasePowerDown k) else .error (.unrecognisedFrame 8)

/-- The operation of a 32-bit frame (R116): opcode in bits 31:24, address in bits 23:0. -/
def decodeCmd32 (k : Nat) (v : BitVec 32) : Except DecodeError Instr :=
  if v.extractLsb' 24 8 = Config.opcRead then .ok (.bsRead k (v.extractLsb' 0 24))
  else .error (.unrecognisedFrame 32)

/-- The host call of a legal call number (R120); 3 names no call. -/
def decodeHost (id : InstId) (v : BitVec 32) : Except DecodeError Instr :=
  match v.toNat with
  | 0 => .ok (.hostReset id)
  | 1 => .ok (.hostEvaluate id)
  | 2 => .ok (.hostCommit id)
  | _ => .error .hostCall3

/-- The decoder: total on any line. It refuses, by name, a line of the wrong instance, a vector wider than its format
and a stray operand (log 26); then the format decides (R118: no bit of a frame sets its length). -/
def decode (l : Line) : Except DecodeError Instr :=
  if !l.fits then .error (.vectorTooWide l.fmt)
  else if !(l.fmt.hasOperands || (l.opA == 0 && l.opB == 0)) then .error (.strayOperand l.fmt)
  else
    match l.fmt, l.unit with
    | .i2cCtl, .i2c k => .ok (decodeI2c k l.ctl l.opA l.opB)
    | .lrCtl, .lr k => .ok (decodeLr k l.ctl l.opA l.opB)
    | .bsWire, .bs k => .ok (.bsTick k (l.ctl.getLsbD 1) (l.ctl.getLsbD 0))
    | .cmd8, .bs k => decodeCmd8 k l.ctl
    | .cmd32, .bs k => decodeCmd32 k l.ctl
    | .host, id => decodeHost id l.ctl
    | f, _ => .error (.wrongUnit f)

/-- Bit `i` of a vector. -/
def vecBit (i : Nat) (b : Bool) : BitVec 32 := if b then 1#32 <<< i else 0#32

/-- The I2C control vector (R111). -/
def i2cVector (start we ore pub ack : Bool) : BitVec 32 :=
  vecBit 0 start ||| vecBit 1 we ||| vecBit 2 ore ||| vecBit 3 pub ||| vecBit 4 ack

/-- The BS_WIRE vector (R114): `si` in bit 0, `cs` in bit 1. -/
def bsVector (cs si : Bool) : BitVec 32 := vecBit 0 si ||| vecBit 1 cs

/-- The read frame's 32 bits (R116). -/
def readFrame (addr : FrameAddr) : BitVec 32 := Config.opcRead ++ addr

/-- The release-power-down frame's 8 bits (R115). -/
def rpdFrame : BitVec 32 := Config.opcRpd.setWidth 32

/-- The encoder: the line of an operation, from the layouts of R111, R113, R114, R115, R116 and R120. -/
def encode : Instr → Line
  | .i2cTick k ack a b => ⟨.i2cCtl, .i2c k, i2cVector false false false false ack, a, b⟩
  | .i2cStart k we ore pub ack a b => ⟨.i2cCtl, .i2c k, i2cVector true we ore pub ack, a, b⟩
  | .i2cInWrite k ore pub ack a b => ⟨.i2cCtl, .i2c k, i2cVector false true ore pub ack, a, b⟩
  | .i2cOutRead k pub ack a b => ⟨.i2cCtl, .i2c k, i2cVector false false true pub ack, a, b⟩
  | .i2cOutPublish k ack a b => ⟨.i2cCtl, .i2c k, i2cVector false false false true ack, a, b⟩
  | .lrTick k a n => ⟨.lrCtl, .lr k, 0#32, a, n⟩
  | .lrStart k a n => ⟨.lrCtl, .lr k, 1#32, a, n⟩
  | .bsTick k cs si => ⟨.bsWire, .bs k, bsVector cs si, 0, 0⟩
  | .bsReleasePowerDown k => ⟨.cmd8, .bs k, rpdFrame, 0, 0⟩
  | .bsRead k addr => ⟨.cmd32, .bs k, readFrame addr, 0, 0⟩
  | .hostReset id => ⟨.host, id, 0#32, 0, 0⟩
  | .hostEvaluate id => ⟨.host, id, 1#32, 0, 0⟩
  | .hostCommit id => ⟨.host, id, 2#32, 0, 0⟩

/-- The `n` low bits of a frame in the order they go on the wire, most significant first (20_memory.md R90). -/
def msbFirst (n : Nat) (v : BitVec 32) : List Bool := (List.range n).reverse.map v.getLsbD

/-- The wire edges of a frame: chip-select asserted, one bit an edge (30_encoding.md R123 SPI.SEND8, SPI.SEND32). -/
def frameLines (k n : Nat) (v : BitVec 32) : List Line :=
  (msbFirst n v).map fun b => encode (.bsTick k true b)

/-- A line with every input 0 (R123 WAIT). -/
def idleLine : InstId → Line
  | .i2c k => encode (.i2cTick k false 0 0)
  | .lr k => encode (.lrTick k 0 0)
  | .bs k => encode (.bsTick k false false)

/-- The expansions of R123. -/
def Pseudo.expand : Pseudo → List Line
  | .wait id n => List.replicate n (idleLine id)
  | .send8 k b => frameLines k 8 (b.setWidth 32)
  | .send32 k w => frameLines k 32 w
  | .rpd k => frameLines k 8 rpdFrame
  | .read k addr => frameLines k 32 (readFrame addr)
  | .deselect k => [encode (.bsTick k false false)]
  | .clock k n => List.replicate n (encode (.bsTick k true false))

/-- The formats in the opcode table's order with the instance a bare word goes to (operand bits 0: the first instance)
and the format's length in whole bytes. -/
def tableFormats : List (Format × InstId × Nat) :=
  [(.i2cCtl, .i2c 0, 8), (.lrCtl, .lr 0, 8), (.bsWire, .bs 0, 8), (.cmd8, .bs 0, 8), (.cmd32, .bs 0, 32),
    (.host, .i2c 0, 8)]

/-- The line of a bare table word: the FIRST format of the table of this length whose decoding accepts the word. The table
gives one word to several rows (0x01 is I2C.START, LR.START and HOST.EVALUATE); on the machine the format is the port
the word arrives at. DESIGN CHOICE (log 5, safe). -/
def tableLine (nbits w : Nat) : Option Line :=
  tableFormats.findSome? fun (f, id, len) =>
    let l : Line := ⟨f, id, BitVec.ofNat 32 (w % 2 ^ nbits), 0, 0⟩
    if len == nbits then (match decode l with | .ok _ => some l | .error _ => none) else none

/-- The instruction the decoder reads from a bare table word. -/
def decodeTableWord (nbits w : Nat) : Option Instr :=
  match tableLine nbits w with
  | some l => (match decode l with | .ok i => some i | .error _ => none)
  | none => none

end Sys2Proof
end

