-- ==== Sys2Proof/Machine/State.lean ====
section
/-! DEFINITION. The machine's state as plain data: every instance's parameters, input ports, committed registers and
pending set (10_state.md R30 to R64, 40_clock_discipline.md R143), the flash image (20_memory.md R80 to R82), the
harness flag (60_exceptions.md R262), and the host's script. -/

namespace Sys2Proof.Machine

/-- The FIFO variant of an I2C instance (10_state.md R31). -/
inductive Variant where
  | dual
  | single
deriving DecidableEq, Repr

/-- `i2c.st` (R37). -/
inductive I2CSt where
  | idle
  | busy
deriving DecidableEq, Repr

/-- `lr.st` (R48). -/
inductive LRSt where
  | idle
  | reading
deriving DecidableEq, Repr

/-- `bs.st` (R53), with the short names of 00_scope.md R25. -/
inductive BSSt where
  | idle
  | spd
  | spupd
  | dpu
  | spu
  | reading
deriving DecidableEq, Repr

/-- The parameters of an I2C instance (00_scope.md R12). -/
structure I2CParams where
  variant : Variant
  timeout : Nat
  inW : Nat
  outW : Nat
deriving DecidableEq, Repr

/-- The parameters of an LR instance (R12). -/
structure LRParams where
  pacing : Nat
  fill : Byte
  aw : Nat
  lw : Nat
deriving DecidableEq, Repr

/-- The parameters of a BS instance (R12); `srW` and `addrW` are BS_SR_W and BS_ADDR_W, for which R12 states a value and
no range (log 17). -/
structure BSParams where
  puEdge : Nat
  rdEdge : Nat
  opcRpd : Byte
  opcRead : Byte
  srW : Nat
  addrW : Nat
  fillBit : Bool
deriving DecidableEq, Repr

/-- The input ports of an I2C instance but `clk` (30_encoding.md R110). -/
structure I2CIn where
  start : Bool
  inWe : Bool
  outRe : Bool
  outPub : Bool
  ackIn : Bool
  inDin : Nat
  outDin : Nat
deriving DecidableEq, Repr

/-- The input ports of an LR instance but `clk` (R110). -/
structure LRIn where
  start : Bool
  addr : Nat
  len : Nat
deriving DecidableEq, Repr

/-- The input ports of a BS instance but `clk` (R110). -/
structure BSIn where
  cs : Bool
  si : Bool
deriving DecidableEq, Repr

/-- The committed registers of an I2C instance (10_state.md R37 to R45). One record serves both variants: `inFull` to
`outReady` are the DUAL slots, `full` and `q` the SINGLE slot; the other variant's fields keep their reset values and no
rule of the instance reads them. DESIGN CHOICE (log 18, safe). -/
structure I2CReg where
  st : I2CSt
  cnt : Nat
  busy : Bool
  ackOut : Bool
  inFull : Bool
  inQ : Nat
  inReady : Bool
  outFull : Bool
  outData : Nat
  outReady : Bool
  full : Bool
  q : Nat
deriving DecidableEq, Repr

/-- The committed registers of an LR instance (R48 to R52). -/
structure LRReg where
  st : LRSt
  addr : Nat
  rem : Nat
  cnt : Nat
  busy : Bool
  data : Byte
  valid : Bool
deriving DecidableEq, Repr

/-- The committed registers of a BS instance (R53 to R58): `sr` of BS_SR_W bits, `raddr` of BS_ADDR_W bits. -/
structure BSReg where
  st : BSSt
  ec : Nat
  sr : Nat
  raddr : Nat
  bidx : Nat
  so : Bool
deriving DecidableEq, Repr

/-- The pending set of an I2C instance (40_clock_discipline.md R143): an element is `none` where nothing is scheduled.
`emit` is the item of `emit consumed(v)` (41_i2c_target.md R174); it enters the trace at the commit. DEDUCED (log 8). -/
structure I2CPend where
  st : Option I2CSt := none
  cnt : Option Nat := none
  busy : Option Bool := none
  ackOut : Option Bool := none
  inFull : Option Bool := none
  inQ : Option Nat := none
  inReady : Option Bool := none
  outFull : Option Bool := none
  outData : Option Nat := none
  outReady : Option Bool := none
  full : Option Bool := none
  q : Option Nat := none
  emit : Option Nat := none
deriving DecidableEq, Repr

/-- The pending set of an LR instance. -/
structure LRPend where
  st : Option LRSt := none
  addr : Option Nat := none
  rem : Option Nat := none
  cnt : Option Nat := none
  busy : Option Bool := none
  data : Option Byte := none
  valid : Option Bool := none
deriving DecidableEq, Repr

/-- The pending set of a BS instance. -/
structure BSPend where
  st : Option BSSt := none
  ec : Option Nat := none
  sr : Option Nat := none
  raddr : Option Nat := none
  bidx : Option Nat := none
  so : Option Bool := none
deriving DecidableEq, Repr

/-- An event of the observation trace (41_i2c_target.md R174). -/
inductive TraceEvent where
  | consumed (v : Nat)
deriving DecidableEq, Repr

/-- The output ports (30_encoding.md R110). -/
inductive OutPort where
  | busy
  | ack
  | inReady
  | outReady
  | outData
  | data
  | valid
  | so
deriving DecidableEq, Repr

/-- The input ports but `clk` (R110). -/
inductive InPort where
  | start
  | inWe
  | inDin
  | outRe
  | outPub
  | outDin
  | ackIn
  | lrAddrIn
  | lrLenIn
  | cs
  | si
deriving DecidableEq, Repr

/-- The host drives one instance's output onto another's input (20_memory.md R95, 60_exceptions.md R272), never onto a
clk input. DESIGN CHOICE (log 31). -/
structure Wire where
  src : InstId
  srcPort : OutPort
  dst : InstId
  dstPort : InPort
deriving DecidableEq, Repr

/-- The clock-discipline part of every instance. `prevClk` is R36's element and `pendClk` its pending value; every
evaluation schedules it (40_clock_discipline.md R141), so `pendClk = none` says that the pending set is empty. `clk` is the
input port, `domain` the clock signal that drives it (60_exceptions.md R272), `changed` what the last commit returned
(R145). `wasReset` says that HOST.RESET has been called (70_reset_and_hazards.md R283). `fresh` is the model's own (R154,
log 13): there is a pending set, and its evaluation came after the clock's last change of level. -/
structure CD where
  domain : Nat
  clk : Bool
  prevClk : Bool
  pendClk : Option Bool
  fresh : Bool
  wasReset : Bool
  changed : Bool
deriving DecidableEq, Repr

/-- The `src` instance has committed a rising edge, which its registers show, while the `dst` instance of the same clock
domain had that edge still to evaluate. The model's own (40_clock_discipline.md R154, log 13). -/
structure Overtaken where
  src : InstId
  dst : InstId
deriving DecidableEq, Repr

/-- An I2C target controller. `sampled`, the model's own, is what each wire onto it drove at the evaluation that gave the
pending set, empty where there is none (log 10). -/
structure I2CInst where
  cd : CD
  params : I2CParams
  inp : I2CIn
  reg : I2CReg
  pend : I2CPend
  sampled : List (Wire × Nat)
  trace : List TraceEvent
deriving DecidableEq, Repr

/-- A SPI-NOR linear reader; `sampled` as for an I2C instance. -/
structure LRInst where
  cd : CD
  params : LRParams
  inp : LRIn
  reg : LRReg
  pend : LRPend
  sampled : List (Wire × Nat)
deriving DecidableEq, Repr

/-- A SPI-NOR bit-serial recognizer; `sampled` as for an I2C instance. -/
structure BSInst where
  cd : CD
  params : BSParams
  inp : BSIn
  reg : BSReg
  pend : BSPend
  sampled : List (Wire × Nat)
deriving DecidableEq, Repr

/-- The flash image: the window's base and length (20_memory.md R80, R81) and the bytes it holds, as (address, byte)
pairs with addresses strictly rising. An address with no pair holds NO byte (R82: `MemRead` is not defined there), so no
pair can equal what an unlisted address reads as. -/
structure Memory where
  base : Nat
  len : Nat
  cells : List Host.Cell
deriving DecidableEq, Repr

/-- What an instance is created with: its parameters (70_reset_and_hazards.md R283, item 1) and the clock signal that the
host wires to it (60_exceptions.md R272). The clock is fixed at the creation. DESIGN CHOICE (log 31). -/
inductive NewInst where
  | i2c (p : I2CParams) (domain : Nat)
  | lr (p : LRParams) (domain : Nat)
  | bs (p : BSParams) (domain : Nat)
deriving DecidableEq, Repr

/-- One action of the host. A `line` is an operation of the opcode table; the others are what the spec says the host
does around them: write a pseudo-instruction (30_encoding.md R123), drive an input port (R149, R151), drive a clock (R151), wire
two instances (R272), supply the image (20_memory.md R80), create an instance (R283). DESIGN CHOICE (log 22, safe). -/
inductive HostAct where
  | line (l : Line)
  | pseudo (p : Pseudo)
  | drive (id : InstId) (p : InPort) (v : Nat)
  | clock (domain : Nat) (level : Bool)
  | connect (w : Wire)
  | image (base len : Nat) (content : List Byte)
  | create (n : NewInst)
deriving DecidableEq, Repr

/-- Why the machine stops with a fault. -/
inductive Fault where
  /-- Raised by every operation and every step after the harness has set its non-convergence flag for this instance: the
  run has ended and no later host call is made (60_exceptions.md R262, R267). Safe. -/
  | nonConvergence (id : InstId)
deriving DecidableEq, Repr

/-- Why the model gives a host action no meaning. Every one but the first is a run that the spec tells a model to refuse. -/
inductive Refusal where
  /-- An instruction that has no meaning yet. Raised by no arm of this model. Safe. -/
  | notModelled (mnemonic : String)
  /-- An operation, a drive or a wire for an instance that does not exist (60_exceptions.md R272). Safe. -/
  | noSuchInst (id : InstId)
  /-- A drive or a wire of a port that the instance's machine does not have (30_encoding.md R110). Safe. -/
  | noSuchPort (id : InstId)
  /-- An evaluation of an instance that was never reset, or one with a rising edge of an instance wired to such an instance
  (70_reset_and_hazards.md R283, log 12). Safe. -/
  | neverReset (id : InstId)
  /-- A parameter outside its range (60_exceptions.md R275, 00_scope.md R12). Safe. -/
  | parameterRange (id : InstId)
  /-- An image whose content length is not its window's length (20_memory.md R82, R275). Safe. -/
  | imageLength
  /-- Another image supplied after the first evaluation (20_memory.md R84, R275); before it a later supply replaces an
  earlier one, and the same image again is no change (log 27). Safe. -/
  | imageChanged
  /-- `src` committed an edge, which it shows, before `dst`, another instance that reads it in the same clock domain, is
  evaluated at that edge for the first time: the same-edge path of 40_clock_discipline.md R154, which R275 of
  60_exceptions.md tells a model to refuse. Safe. -/
  | sameEdgePath (src dst : InstId)
  /-- A line that names no operation, host call 3 among them (30_encoding.md R120; log 26). Safe. -/
  | undecodable (e : DecodeError)
deriving DecidableEq, Repr

/-- The machine: the instances of the three kinds, the shared flash image, the host's wires, which instances have
committed an edge ahead of others, the harness flag and its check, whether an evaluation has happened, and the host's further actions. -/
structure State where
  i2cs : List I2CInst
  lrs : List LRInst
  bss : List BSInst
  mem : Memory
  wires : List Wire
  overtaken : List Overtaken
  nonconv : Option InstId
  checking : Bool
  started : Bool
  script : List HostAct
deriving DecidableEq, Repr

/-- The outcome of an operation on this machine. -/
abbrev Result := Host.Outcome State Fault Refusal

/-- Reset values of the I2C registers (10_state.md R64, R281). -/
def I2CReg.reset : I2CReg where
  st := .idle
  cnt := 0
  busy := false
  ackOut := false
  inFull := false
  inQ := 0
  inReady := true
  outFull := false
  outData := 0
  outReady := false
  full := false
  q := 0

/-- Reset values of the LR registers (R64, R281). -/
def LRReg.reset : LRReg where
  st := .idle
  addr := 0
  rem := 0
  cnt := 0
  busy := false
  data := 0#8
  valid := false

/-- Reset values of the BS registers (R64, R281). -/
def BSReg.reset : BSReg where
  st := .idle
  ec := 0
  sr := 0
  raddr := 0
  bidx := 0
  so := false

/-- Input ports all 0 (30_encoding.md R122: inputs not named are 0). At reset and creation a DESIGN CHOICE (log 7). -/
def I2CIn.zero : I2CIn where
  start := false
  inWe := false
  outRe := false
  outPub := false
  ackIn := false
  inDin := 0
  outDin := 0

/-- Input ports all 0 (log 7). -/
def LRIn.zero : LRIn where
  start := false
  addr := 0
  len := 0

/-- Input ports all 0 (log 7). -/
def BSIn.zero : BSIn where
  cs := false
  si := false

/-- The clock-discipline record of an instance on clock `domain`: prev_clk at its reset value 0 (R64), nothing pending,
clk driven 0 (R283 item 4; log 7). `wasReset` is the argument. -/
def CD.initial (domain : Nat) (wasReset : Bool) : CD where
  domain := domain
  clk := false
  prevClk := false
  pendClk := none
  fresh := false
  wasReset := wasReset
  changed := false

/-- An I2C instance with its registers at their reset values. -/
def I2CInst.initial (p : I2CParams) (domain : Nat) (wasReset : Bool) : I2CInst :=
  ⟨CD.initial domain wasReset, p, I2CIn.zero, I2CReg.reset, {}, [], []⟩

/-- An LR instance with its registers at their reset values. -/
def LRInst.initial (p : LRParams) (domain : Nat) (wasReset : Bool) : LRInst :=
  ⟨CD.initial domain wasReset, p, LRIn.zero, LRReg.reset, {}, []⟩

/-- A BS instance with its registers at their reset values. -/
def BSInst.initial (p : BSParams) (domain : Nat) (wasReset : Bool) : BSInst :=
  ⟨CD.initial domain wasReset, p, BSIn.zero, BSReg.reset, {}, []⟩

/-- The I2C parameters of the reset system (R12; the OPEN widths are log 6). -/
def I2CParams.default (v : Variant) : I2CParams where
  variant := v
  timeout := Config.i2cTimeout
  inW := Config.i2cInW
  outW := Config.i2cOutW

/-- The LR parameters of the reset system (R12; the OPEN widths are log 6). -/
def LRParams.default : LRParams where
  pacing := Config.lrPacing
  fill := Config.lrFill
  aw := Config.lrAw
  lw := Config.lrLw

/-- The BS parameters of the reset system (R12). -/
def BSParams.default : BSParams where
  puEdge := Config.bsPuEdge
  rdEdge := Config.bsRdEdge
  opcRpd := Config.opcRpd
  opcRead := Config.opcRead
  srW := Config.bsSrW
  addrW := Config.bsAddrW
  fillBit := Config.bsFillBit

/-- The machine right after reset. WHICH instances it has is the host's choice (R30, R272); this one has an I2C
controller of each variant, an LR and a BS, each on its own clock and just reset (R64, R281), and an empty flash
window. DESIGN CHOICE (log 6, unsafe). Nothing is in the script (log 2). -/
def State.reset : State where
  i2cs := [I2CInst.initial (I2CParams.default .dual) 0 true, I2CInst.initial (I2CParams.default .single) 1 true]
  lrs := [LRInst.initial LRParams.default 2 true]
  bss := [BSInst.initial BSParams.default 3 true]
  mem := ⟨0, 0, []⟩
  wires := []
  overtaken := []
  nonconv := none
  checking := true
  started := false
  script := []

end Sys2Proof.Machine
end

