-- ==== Sys2Proof/Machine/Ops.lean ====
section
/-! DEFINITION. The shared operations over the flash image and the state: `InWindow` and `MemRead` (00_scope.md R19, R20,
20_memory.md R81, R82), the supply of the image, the instances and their clock-discipline records, sequencing, and the one
exception primitive, `raise NonConvergence()` (60_exceptions.md R262). There is no return from it (R267) and no trap
entry (R266). -/

namespace Sys2Proof.Machine

/-! ### The flash image -/

/-- `InWindow(a)` on natural numbers (00_scope.md R20). -/
def Memory.inWindow (m : Memory) (a : Nat) : Bool := decide (m.base ≤ a) && decide (a < m.base + m.len)

/-- The byte the image holds at an address, where it holds one. -/
def Memory.cell? (m : Memory) (a : Nat) : Option Byte := (m.cells.find? fun c => c.1 == a).map (·.2)

/-- `MemRead(a, 1)` (20_memory.md R82): the in-window byte at `a`; no value for an address out of the window. -/
def Memory.read (m : Memory) (a : Nat) : Option Byte := if m.inWindow a then m.cell? a else none

/-- The canonical form: addresses strictly rising. An unlisted address holds no byte, so no entry equals what it reads
as. -/
def Memory.wf (m : Memory) : Bool := decide ((m.cells.map (·.1)).Pairwise (· < ·))

/-- A well-formed image (R82): exactly `len` bytes, one for each window address. -/
def Memory.imageOk (m : Memory) : Bool := m.cells.map (·.1) == List.range' m.base m.len

/-- The bytes of a content at rising addresses. -/
def cellsFrom : Nat → List Byte → List Host.Cell
  | _, [] => []
  | a, b :: bs => (a, b) :: cellsFrom (a + 1) bs

/-- The image `(contentBytes, baseAddress, length)` of R80. -/
def Memory.ofImage (base len : Nat) (content : List Byte) : Memory := ⟨base, len, cellsFrom base content⟩

/-! ### State updates -/

/-- Replace the script. -/
def State.withScript (s : State) (as : List HostAct) : State := { s with script := as }

/-- Replace the three lists of instances. -/
def State.withInsts (s : State) (is : List I2CInst) (ls : List LRInst) (bs : List BSInst) : State :=
  { s with i2cs := is, lrs := ls, bss := bs }

/-- Replace the image. -/
def State.withMem (s : State) (m : Memory) : State := { s with mem := m }

/-- Replace the wires. -/
def State.withWires (s : State) (ws : List Wire) : State := { s with wires := ws }

/-- Replace the record of overtaken instances. -/
def State.withOvertaken (s : State) (os : List Overtaken) : State := { s with overtaken := os }

/-- An evaluation has happened (20_memory.md R84). -/
def State.withStarted (s : State) : State := { s with started := true }

/-! ### Instances -/

/-- All instances, in order. -/
def State.ids (s : State) : List InstId :=
  (List.range s.i2cs.length).map .i2c ++ (List.range s.lrs.length).map .lr ++ (List.range s.bss.length).map .bs

/-- The clock-discipline record of an instance. -/
def State.cd? (s : State) : InstId → Option CD
  | .i2c k => s.i2cs[k]?.map (·.cd)
  | .lr k => s.lrs[k]?.map (·.cd)
  | .bs k => s.bss[k]?.map (·.cd)

/-- Which instances a host action is for: one instance, or every instance of a clock domain (40_clock_discipline.md
R151). -/
inductive Scope where
  | one (id : InstId)
  | domain (d : Nat)
deriving DecidableEq, Repr

/-- Is the instance `id`, with this record, in the scope? -/
def Scope.has : Scope → InstId → CD → Bool
  | .one i, id, _ => id == i
  | .domain d, _, c => c.domain == d

/-- The instances of a scope. -/
def State.inScope (s : State) (sc : Scope) : List InstId :=
  s.ids.filter fun id => (s.cd? id).any (sc.has id)

/-- Apply to each instance of the scope the change of its kind. -/
def State.mapScope (s : State) (sc : Scope) (fi : Nat → I2CInst → I2CInst) (fl : Nat → LRInst → LRInst)
    (fb : Nat → BSInst → BSInst) : State :=
  s.withInsts
    (s.i2cs.mapIdx fun k x => if sc.has (.i2c k) x.cd then fi k x else x)
    (s.lrs.mapIdx fun k x => if sc.has (.lr k) x.cd then fl k x else x)
    (s.bss.mapIdx fun k x => if sc.has (.bs k) x.cd then fb k x else x)

/-- Apply one change to the clock-discipline record of each instance of the scope. -/
def State.mapCD (s : State) (sc : Scope) (f : CD → CD) : State :=
  s.mapScope sc (fun _ x => { x with cd := f x.cd }) (fun _ x => { x with cd := f x.cd })
    (fun _ x => { x with cd := f x.cd })

/-- The clock input is driven to `v`; with a change of level a pending set is no longer of the present level (log 13). -/
def CD.driveClk (v : Bool) (c : CD) : CD := if c.clk == v then c else { c with clk := v, fresh := false }

/-- The record of overtaken instances without those whose clock-discipline record meets `p`. -/
def State.overtakenBut (s : State) (p : InstId → CD → Bool) : List Overtaken :=
  s.overtaken.filter fun o => !(s.cd? o.dst).any (p o.dst)

/-- Drive the clock of every instance of a domain (40_clock_discipline.md R151, steps 1 and 5). For an instance whose clock
changes level the edge it was overtaken at is past (R154, log 13). -/
def State.driveClk (s : State) (d : Nat) (v : Bool) : State :=
  (s.mapCD (.domain d) (CD.driveClk v)).withOvertaken (s.overtakenBut fun _ c => c.domain == d && c.clk != v)

/-! ### Faults and sequencing -/

/-- No pending clock sample (R262). -/
def CD.discard (c : CD) : CD := { c with pendClk := none, fresh := false }

/-- The pending set of one instance is discarded (R262, 70_reset_and_hazards.md R280 `P := {}`). -/
def State.discard (s : State) (id : InstId) : State :=
  s.mapScope (.one id)
    (fun _ x => { x with pend := {}, sampled := [], cd := x.cd.discard })
    (fun _ x => { x with pend := {}, sampled := [], cd := x.cd.discard })
    (fun _ x => { x with pend := {}, sampled := [], cd := x.cd.discard })

/-- `raise NonConvergence()` (60_exceptions.md R262): the harness sets its flag, which names the instance whose check
failed; that instance's two pending sets are discarded; no committed state changes. The run has ended: `guardRun` and
`step` fault from here on (log 9). -/
def State.raise (s : State) (id : InstId) : State := { s.discard id with nonconv := some id }

/-- No host call is made after the run has ended (R262, R267); HOST.RESET does not clear the flag. -/
def guardRun (s : State) (r : Result) : Result :=
  match s.nonconv with
  | some id => .fault (.nonConvergence id)
  | none => r

/-- Go on from a next state, unless the run has just ended. -/
def andThen (r : Result) (f : State → Result) : Result :=
  match r with
  | .next s => if s.nonconv.isSome then .next s else f s
  | .fault e => .fault e
  | .refused e => .refused e

end Sys2Proof.Machine
end

