-- ==== Sys2Proof/Machine/Flags.lean ====
section
/-! DEFINITION. The status flags and output ports of the three machines (10_state.md R35, R59, 30_encoding.md R110), the
slot bits they mirror, and the state numbers of R61. Every output is a function of committed state. -/

namespace Sys2Proof.Machine

/-- Is the slot that inbound items stand in `FULL`: `in_full` (DUAL, R41) or `full` (SINGLE, R45)? -/
def I2CReg.inboundFull (v : Variant) (c : I2CReg) : Bool :=
  match v with
  | .dual => c.inFull
  | .single => c.full

/-- Is the slot that outbound items stand in `FULL`: `out_full` (DUAL, R43) or `full` (SINGLE, R45)? -/
def I2CReg.outboundFull (v : Variant) (c : I2CReg) : Bool :=
  match v with
  | .dual => c.outFull
  | .single => c.full

/-- The item a consumption takes: `in_q` (DUAL) or `q` (SINGLE). -/
def I2CReg.inboundItem (v : Variant) (c : I2CReg) : Nat :=
  match v with
  | .dual => c.inQ
  | .single => c.q

/-- Output port inbound-write-ready: `in_ready` (R42), or `NOT full` in SINGLE (R45). -/
def I2CReg.inReadyPort (v : Variant) (c : I2CReg) : Bool :=
  match v with
  | .dual => c.inReady
  | .single => !c.full

/-- Output port outbound-read-ready: `out_ready` (R44), or `full` in SINGLE (R45). -/
def I2CReg.outReadyPort (v : Variant) (c : I2CReg) : Bool :=
  match v with
  | .dual => c.outReady
  | .single => c.full

/-- Output port outbound-data: `out_data` (R43), or `q` in SINGLE (R45). -/
def I2CReg.outDataPort (v : Variant) (c : I2CReg) : Nat :=
  match v with
  | .dual => c.outData
  | .single => c.q

/-- The value of an output port of an I2C instance, where it has the port (30_encoding.md R110). -/
def I2CInst.output (x : I2CInst) : OutPort → Option Nat
  | .busy => some x.reg.busy.toNat
  | .ack => some x.reg.ackOut.toNat
  | .inReady => some (x.reg.inReadyPort x.params.variant).toNat
  | .outReady => some (x.reg.outReadyPort x.params.variant).toNat
  | .outData => some (x.reg.outDataPort x.params.variant)
  | .data => none
  | .valid => none
  | .so => none

/-- The value of an output port of an LR instance (R110). -/
def LRInst.output (x : LRInst) : OutPort → Option Nat
  | .busy => some x.reg.busy.toNat
  | .data => some x.reg.data.toNat
  | .valid => some x.reg.valid.toNat
  | .ack => none
  | .inReady => none
  | .outReady => none
  | .outData => none
  | .so => none

/-- The value of an output port of a BS instance (R110). -/
def BSInst.output (x : BSInst) : OutPort → Option Nat
  | .so => some x.reg.so.toNat
  | .busy => none
  | .ack => none
  | .inReady => none
  | .outReady => none
  | .outData => none
  | .data => none
  | .valid => none

/-- The value an instance's output port shows (00_scope.md R18). -/
def State.output (s : State) (id : InstId) (p : OutPort) : Option Nat :=
  match id with
  | .i2c k => s.i2cs[k]?.bind (·.output p)
  | .lr k => s.lrs[k]?.bind (·.output p)
  | .bs k => s.bss[k]?.bind (·.output p)

/-- The state numbers of 10_state.md R61. No output shows them. -/
def I2CSt.number : I2CSt → Nat
  | .idle => 0
  | .busy => 1

/-- R61. -/
def LRSt.number : LRSt → Nat
  | .idle => 0
  | .reading => 1

/-- R61. -/
def BSSt.number : BSSt → Nat
  | .idle => 0
  | .spd => 1
  | .spupd => 2
  | .dpu => 3
  | .spu => 4
  | .reading => 5

/-- The power state of a BS state (60_exceptions.md R274): has the wake sequence been completed? -/
def BSSt.poweredUp : BSSt → Bool
  | .idle => false
  | .spd => false
  | .spupd => false
  | .dpu => true
  | .spu => true
  | .reading => true

end Sys2Proof.Machine
end

