-- ==== Sys2Proof/Machine/Operands.lean ====
section
/-! DEFINITION. Operands: the input ports as an evaluation reads them (00_scope.md R18). A port has the value the host
drives, or, where the host has wired an output of an instance onto it, the COMMITTED value of that output (20_memory.md R95,
R97). A port of width `w` carries the low `w` bits of what drives it. DESIGN CHOICE (log 14, unsafe) where more bits
are driven. -/

namespace Sys2Proof.Machine

/-- The low `w` bits (00_scope.md R15, `mod 2^w`). -/
def lowBits (w v : Nat) : Nat := v % 2 ^ w

/-- A 1-bit port: asserted when its bit is 1 (30_encoding.md R110). -/
def portBit (v : Nat) : Bool := v % 2 == 1

/-- Drive one input port of an I2C instance (R110), where it has the port. -/
def I2CIn.drive (i : I2CIn) (p : InPort) (v : Nat) : Option I2CIn :=
  match p with
  | .start => some { i with start := portBit v }
  | .inWe => some { i with inWe := portBit v }
  | .inDin => some { i with inDin := v }
  | .outRe => some { i with outRe := portBit v }
  | .outPub => some { i with outPub := portBit v }
  | .outDin => some { i with outDin := v }
  | .ackIn => some { i with ackIn := portBit v }
  | .lrAddrIn => none
  | .lrLenIn => none
  | .cs => none
  | .si => none

/-- Drive one input port of an LR instance (R110), where it has the port. -/
def LRIn.drive (i : LRIn) (p : InPort) (v : Nat) : Option LRIn :=
  match p with
  | .start => some { i with start := portBit v }
  | .lrAddrIn => some { i with addr := v }
  | .lrLenIn => some { i with len := v }
  | .inWe => none
  | .inDin => none
  | .outRe => none
  | .outPub => none
  | .outDin => none
  | .ackIn => none
  | .cs => none
  | .si => none

/-- Drive one input port of a BS instance (R110), where it has the port. -/
def BSIn.drive (i : BSIn) (p : InPort) (v : Nat) : Option BSIn :=
  match p with
  | .cs => some { i with cs := portBit v }
  | .si => some { i with si := portBit v }
  | .start => none
  | .inWe => none
  | .inDin => none
  | .outRe => none
  | .outPub => none
  | .outDin => none
  | .ackIn => none
  | .lrAddrIn => none
  | .lrLenIn => none

/-- Does the machine of this kind have the input port? -/
def hasInPort : InstId → InPort → Bool
  | .i2c _, p => (I2CIn.zero.drive p 0).isSome
  | .lr _, p => (LRIn.zero.drive p 0).isSome
  | .bs _, p => (BSIn.zero.drive p 0).isSome

/-- The wires onto an instance's inputs. -/
def State.wiresInto (s : State) (id : InstId) : List Wire := s.wires.filter fun w => w.dst == id

/-- What the wires onto an instance drive now: the COMMITTED values of their sources (20_memory.md R95, R97). -/
def State.wireValues (s : State) (id : InstId) : List (Wire × Nat) :=
  (s.wiresInto id).filterMap fun w => (s.output w.src w.srcPort).map fun v => (w, v)

/-- What the wires onto an instance hold its ports at: what each drove at the evaluation that gave the pending set, and
what a wire that is newer drives now. A wire is the host's drive at an evaluation (40_clock_discipline.md R154); what its
source commits afterwards reaches the port at the next one. DESIGN CHOICE (log 10). -/
def State.heldValues (s : State) (id : InstId) (sampled : List (Wire × Nat)) : List (Wire × Nat) :=
  (s.wireValues id).map fun u => (u.1, (sampled.lookup u.1).getD u.2)

/-- An I2C instance's inputs with one wire's value driven onto its port. -/
def I2CIn.wired (i : I2CIn) (u : Wire × Nat) : I2CIn := (i.drive u.1.dstPort u.2).getD i

/-- An LR instance's inputs with one wire's value driven onto its port. -/
def LRIn.wired (i : LRIn) (u : Wire × Nat) : LRIn := (i.drive u.1.dstPort u.2).getD i

/-- A BS instance's inputs with one wire's value driven onto its port. -/
def BSIn.wired (i : BSIn) (u : Wire × Nat) : BSIn := (i.drive u.1.dstPort u.2).getD i

/-- The data ports at their widths (R110: `in_din` `I2C_IN_W` bits, `out_din` `I2C_OUT_W` bits). -/
def I2CIn.atWidth (p : I2CParams) (i : I2CIn) : I2CIn :=
  { i with inDin := lowBits p.inW i.inDin, outDin := lowBits p.outW i.outDin }

/-- The operands at their widths (R110: `lr_addr_in` `LR_AW` bits, `lr_len_in` `LR_LW` bits). -/
def LRIn.atWidth (p : LRParams) (i : LRIn) : LRIn :=
  { i with addr := lowBits p.aw i.addr, len := lowBits p.lw i.len }

/-- An I2C instance's inputs under these wire values. -/
def I2CInst.inputs (x : I2CInst) (us : List (Wire × Nat)) : I2CIn := (us.foldl I2CIn.wired x.inp).atWidth x.params

/-- An LR instance's inputs under these wire values. -/
def LRInst.inputs (x : LRInst) (us : List (Wire × Nat)) : LRIn := (us.foldl LRIn.wired x.inp).atWidth x.params

/-- A BS instance's inputs under these wire values. -/
def BSInst.inputs (x : BSInst) (us : List (Wire × Nat)) : BSIn := us.foldl BSIn.wired x.inp

/-- The inputs an evaluation of the `k`-th I2C instance reads. -/
def State.i2cInputs (s : State) (k : Nat) (x : I2CInst) : I2CIn := x.inputs (s.wireValues (.i2c k))

/-- The inputs an evaluation of the `k`-th LR instance reads. -/
def State.lrInputs (s : State) (k : Nat) (x : LRInst) : LRIn := x.inputs (s.wireValues (.lr k))

/-- The inputs an evaluation of the `k`-th BS instance reads. -/
def State.bsInputs (s : State) (k : Nat) (x : BSInst) : BSIn := x.inputs (s.wireValues (.bs k))

/-- The inputs at the `k`-th I2C instance's ports when its pending set is to be committed. -/
def State.i2cHeld (s : State) (k : Nat) (x : I2CInst) : I2CIn := x.inputs (s.heldValues (.i2c k) x.sampled)

/-- The inputs at the `k`-th LR instance's ports when its pending set is to be committed. -/
def State.lrHeld (s : State) (k : Nat) (x : LRInst) : LRIn := x.inputs (s.heldValues (.lr k) x.sampled)

/-- The inputs at the `k`-th BS instance's ports when its pending set is to be committed. -/
def State.bsHeld (s : State) (k : Nat) (x : BSInst) : BSIn := x.inputs (s.heldValues (.bs k) x.sampled)

/-- Drive all inputs of an I2C instance but `clk`. -/
def State.setI2cIn (s : State) (k : Nat) (i : I2CIn) : State :=
  s.mapScope (.one (.i2c k)) (fun _ x => { x with inp := i }) (fun _ x => x) (fun _ x => x)

/-- Drive all inputs of an LR instance but `clk`. -/
def State.setLrIn (s : State) (k : Nat) (i : LRIn) : State :=
  s.mapScope (.one (.lr k)) (fun _ x => x) (fun _ x => { x with inp := i }) (fun _ x => x)

/-- Drive all inputs of a BS instance but `clk`. -/
def State.setBsIn (s : State) (k : Nat) (i : BSIn) : State :=
  s.mapScope (.one (.bs k)) (fun _ x => x) (fun _ x => x) (fun _ x => { x with inp := i })

end Sys2Proof.Machine
end

