-- ==== Sys2Proof/Machine/BsTick.lean ====
section
/-! DEFINITION. The bit-serial recognizer's tick rule (43_spinor_bitserial.md R221, R222). Conditions read the committed
registers `c`; the locals `a`, `b`, `rd` carry the capture of R226 into the READ action of the same edge (00_scope.md
R17). -/

namespace Sys2Proof.Machine

/-- The next shift value `srn := ((sr << 1) | si) mod 2^BS_SR_W` (R223): the new bit enters bit 0, the top bit is
discarded. -/
def nextShift (q : BSParams) (sr : Nat) (si : Bool) : Nat := lowBits q.srW (2 * sr + si.toNat)

/-- The low byte `srn[7:0]`, the frame of R225. -/
def lowByte (srn : Nat) : Byte := BitVec.ofNat 8 srn

/-- The top byte of the shift value, `srn[31:24]` for the width 32: the opcode field of R226, R236. For other widths its
place is the model's (DEDUCED, log 17, unsafe). -/
def topByte (q : BSParams) (srn : Nat) : Byte := BitVec.ofNat 8 (srn / 2 ^ (q.srW - 8))

/-- The low `BS_ADDR_W` bits of the shift value, `srn[23:0]` for the width 24: the address field of R226. For other widths
its place is the model's (DEDUCED, log 17, unsafe). -/
def addrField (q : BSParams) (srn : Nat) : Nat := lowBits q.addrW srn

/-- `BSBit(a, b)` (20_memory.md R85): bit index 0 is the most significant bit. -/
def bsBit (byte : Byte) (b : Nat) : Bool := byte.getLsbD (7 - b)

/-- The check of R225: eighth edge of a selection in SPD, low byte the release-power-down opcode; `cs` is not tested
(R235). -/
def rpdCheck (q : BSParams) (c : BSReg) (srn : Nat) : Bool := decide (c.ec = q.puEdge) && lowByte srn == q.opcRpd

/-- The check of R226: thirty-second edge of a selection in SPU, top byte the read opcode; `cs` is not tested (R235). -/
def readCheck (q : BSParams) (c : BSReg) (srn : Nat) : Bool := decide (c.ec = q.rdEdge) && topByte q srn == q.opcRead

/-- The locals after step 3: the read address, the bit index and whether the READ action runs. -/
structure BSLocals where
  a : Nat
  b : Nat
  rd : Bool
deriving DecidableEq, Repr

/-- Step 3's locals (R221): a captured address with index 0 on the capture edge, else the committed ones. -/
def bsLocals (q : BSParams) (c : BSReg) (srn : Nat) : BSLocals :=
  match c.st with
  | .idle => ⟨c.raddr, c.bidx, false⟩
  | .spd => ⟨c.raddr, c.bidx, false⟩
  | .spupd => ⟨c.raddr, c.bidx, false⟩
  | .dpu => ⟨c.raddr, c.bidx, false⟩
  | .spu => if readCheck q c srn then ⟨addrField q srn, 0, true⟩ else ⟨c.raddr, c.bidx, false⟩
  | .reading => ⟨c.raddr, c.bidx, true⟩

/-- Step 3's state transitions (R222). -/
def bsStepState (q : BSParams) (c : BSReg) (i : BSIn) (srn : Nat) (p : BSPend) : BSPend :=
  match c.st with
  | .idle => if i.cs then { p with st := some .spd } else p
  | .spd => if rpdCheck q c srn then { p with st := some .spupd } else p
  | .spupd => if !i.cs then { p with st := some .dpu } else p
  | .dpu => if i.cs then { p with st := some .spu } else p
  | .spu => if readCheck q c srn then { p with st := some .reading } else p
  | .reading => p

/-- The bit index after a data bit (R228). -/
def nextBidx (b : Nat) : Nat := if b + 1 = 8 then 0 else b + 1

/-- The address after a data bit (R228); it wraps at `2 ^ BS_ADDR_W` (R239). -/
def nextRaddr (q : BSParams) (a b : Nat) : Nat := if b + 1 = 8 then lowBits q.addrW (a + 1) else a

/-- The READ action (R221, R228, R233, R237): a data bit and an advance in the window; out of it the fill bit
(`BS_FILL_BIT`, 00_scope.md R12; DEDUCED, log 25) and no advance; then the return to IDLE on a deselect. -/
def bsStepRead (m : Memory) (q : BSParams) (i : BSIn) (l : BSLocals) (p : BSPend) : BSPend :=
  let p :=
    match m.read l.a with
    | some byte =>
      { p with so := some (bsBit byte l.b), raddr := some (nextRaddr q l.a l.b), bidx := some (nextBidx l.b) }
    | none => { p with so := some q.fillBit, raddr := some l.a, bidx := some l.b }
  if i.cs then p else { p with st := some .idle }

/-- Step 4, shift commit and edge counter (R230, R231). -/
def bsStepShift (c : BSReg) (i : BSIn) (srn : Nat) (p : BSPend) : BSPend :=
  if i.cs then { p with sr := some srn, ec := some (c.ec + 1) } else { p with ec := some 0 }

/-- The tick rule (R221): step 1 is the default `so <- 0`. -/
def bsTick (m : Memory) (q : BSParams) (c : BSReg) (i : BSIn) : BSPend :=
  let srn := nextShift q c.sr i.si
  let l := bsLocals q c srn
  let p := bsStepState q c i srn { so := some false }
  bsStepShift c i srn (if l.rd then bsStepRead m q i l p else p)

/-- Every element with a pending value takes it (40_clock_discipline.md R145). -/
def BSReg.commit (c : BSReg) (p : BSPend) : BSReg where
  st := p.st.getD c.st
  ec := p.ec.getD c.ec
  sr := p.sr.getD c.sr
  raddr := p.raddr.getD c.raddr
  bidx := p.bidx.getD c.bidx
  so := p.so.getD c.so

end Sys2Proof.Machine
end

