-- ==== Sys2Proof/Machine/I2cTick.lean ====
section
/-! DEFINITION. The I2C target controller's tick rule (41_i2c_target.md R161 for DUAL, R175 for SINGLE): one rule over
the slots of the instance's variant (10_state.md R31). Each step reads the committed registers `c` and the sampled
inputs `i`, and adds to the pending set; a later step's value for an element replaces an earlier one's (00_scope.md R16). -/

namespace Sys2Proof.Machine

/-- Schedule the inbound slot `EMPTY`. -/
def I2CPend.emptyInbound (v : Variant) (p : I2CPend) : I2CPend :=
  match v with
  | .dual => { p with inFull := some false, inReady := some true }
  | .single => { p with full := some false }

/-- Schedule the inbound slot `FULL` with an item. -/
def I2CPend.fillInbound (v : Variant) (d : Nat) (p : I2CPend) : I2CPend :=
  match v with
  | .dual => { p with inFull := some true, inQ := some d, inReady := some false }
  | .single => { p with full := some true, q := some d }

/-- Schedule the outbound slot `EMPTY`; its data is not cleared (R164). -/
def I2CPend.emptyOutbound (v : Variant) (p : I2CPend) : I2CPend :=
  match v with
  | .dual => { p with outFull := some false, outReady := some false }
  | .single => { p with full := some false }

/-- Schedule the outbound slot `FULL` with an item. -/
def I2CPend.fillOutbound (v : Variant) (d : Nat) (p : I2CPend) : I2CPend :=
  match v with
  | .dual => { p with outFull := some true, outData := some d, outReady := some true }
  | .single => { p with full := some true, q := some d }

/-- Step 1, ack retiming (R163). -/
def i2cStepAck (i : I2CIn) (p : I2CPend) : I2CPend := { p with ackOut := some i.ackIn }

/-- Step 2, outbound consume (R164). -/
def i2cStepOutRead (v : Variant) (c : I2CReg) (i : I2CIn) (p : I2CPend) : I2CPend :=
  if c.outboundFull v && i.outRe then p.emptyOutbound v else p

/-- Step 3, outbound publish (R165): no guard on the slot. -/
def i2cStepPublish (v : Variant) (i : I2CIn) (p : I2CPend) : I2CPend :=
  if i.outPub then p.fillOutbound v i.outDin else p

/-- Step 4, `IDLE` branch (R166). -/
def i2cStepIdle (timeout : Nat) (i : I2CIn) (p : I2CPend) : I2CPend :=
  if i.start then { p with busy := some true, st := some .busy, cnt := some timeout } else p

/-- Step 4, `BUSY` branch: the consumption of a waiting item (R167). -/
def i2cStepConsume (v : Variant) (c : I2CReg) (p : I2CPend) : I2CPend :=
  if c.inboundFull v then { p.emptyInbound v with emit := some (c.inboundItem v) } else p

/-- The local `x` of step 4 before the decrement (R167): the re-arm value on a consuming edge, else the countdown. -/
def i2cRearmed (v : Variant) (timeout : Nat) (c : I2CReg) : Nat := if c.inboundFull v then timeout else c.cnt

/-- Step 4, `BUSY` branch: decrement and expiry (R168). `x ≥ 1` in every reachable state (R47); at 0 the decrement
stays 0 (log 16). -/
def i2cStepCount (x : Nat) (p : I2CPend) : I2CPend :=
  if x - 1 = 0 then { p with cnt := some (x - 1), busy := some false, st := some .idle }
  else { p with cnt := some (x - 1) }

/-- Step 4, the transaction FSM (R161, R175). -/
def i2cStepFsm (q : I2CParams) (c : I2CReg) (i : I2CIn) (p : I2CPend) : I2CPend :=
  match c.st with
  | .idle => i2cStepIdle q.timeout i p
  | .busy => i2cStepCount (i2cRearmed q.variant q.timeout c) (i2cStepConsume q.variant c p)

/-- Step 5, inbound capture (R169). -/
def i2cStepCapture (v : Variant) (c : I2CReg) (i : I2CIn) (p : I2CPend) : I2CPend :=
  if !c.inboundFull v && i.inWe then p.fillInbound v i.inDin else p

/-- The tick rule: steps 1 to 5 in order (R161, R175). -/
def i2cTick (q : I2CParams) (c : I2CReg) (i : I2CIn) : I2CPend :=
  i2cStepCapture q.variant c i
    (i2cStepFsm q c i (i2cStepPublish q.variant i (i2cStepOutRead q.variant c i (i2cStepAck i {}))))

/-- Every element with a pending value takes it (40_clock_discipline.md R145). -/
def I2CReg.commit (c : I2CReg) (p : I2CPend) : I2CReg where
  st := p.st.getD c.st
  cnt := p.cnt.getD c.cnt
  busy := p.busy.getD c.busy
  ackOut := p.ackOut.getD c.ackOut
  inFull := p.inFull.getD c.inFull
  inQ := p.inQ.getD c.inQ
  inReady := p.inReady.getD c.inReady
  outFull := p.outFull.getD c.outFull
  outData := p.outData.getD c.outData
  outReady := p.outReady.getD c.outReady
  full := p.full.getD c.full
  q := p.q.getD c.q

/-- The trace with the pending event appended (R174). -/
def appendConsumed (tr : List TraceEvent) (p : I2CPend) : List TraceEvent :=
  match p.emit with
  | some v => tr ++ [.consumed v]
  | none => tr

/-- The parameter ranges of 00_scope.md R12. -/
def I2CParams.ok (q : I2CParams) : Bool :=
  decide (1 ≤ q.timeout) && decide (1 ≤ q.inW) && decide (1 ≤ q.outW) &&
    (match q.variant with
      | .dual => true
      | .single => q.inW == q.outW)

end Sys2Proof.Machine
end

