-- ==== Sys2Proof/Machine/LrTick.lean ====
section
/-! DEFINITION. The SPI-NOR linear reader's tick rule (42_spinor_linear_reader.md R201). Conditions read the committed
registers `c`; the countdown test reads the committed countdown (90_conflicts.md C2). -/

namespace Sys2Proof.Machine

/-- `LRByte(a)` (20_memory.md R83): the window's byte, or the fill byte outside. -/
def lrByte (m : Memory) (q : LRParams) (a : Nat) : Byte := (m.read a).getD q.fill

/-- The `IDLE` branch, LR.START (R206, R207): the latch happens whether or not the address is in the window. -/
def lrStepStart (m : Memory) (q : LRParams) (i : LRIn) (p : LRPend) : LRPend :=
  if i.start then
    if m.inWindow i.addr then
      { p with addr := some i.addr, rem := some i.len, busy := some true, st := some .reading, cnt := some q.pacing }
    else { p with addr := some i.addr, rem := some i.len }
  else p

/-- End of session (R204). -/
def lrStepEnd (p : LRPend) : LRPend := { p with busy := some false, st := some .idle }

/-- Emission (R205): the address wraps at `2 ^ LR_AW` (R210). -/
def lrStepEmit (m : Memory) (q : LRParams) (c : LRReg) (p : LRPend) : LRPend :=
  { p with
    data := some (lrByte m q c.addr)
    valid := some true
    addr := some ((c.addr + 1) % 2 ^ q.aw)
    rem := some (c.rem - 1)
    cnt := some q.pacing }

/-- The `READING` branch, LR.TICK (R202 to R205). -/
def lrStepRead (m : Memory) (q : LRParams) (c : LRReg) (p : LRPend) : LRPend :=
  let p := { p with valid := some false }
  if c.cnt = 0 then
    if c.rem = 0 then lrStepEnd p else lrStepEmit m q c p
  else { p with cnt := some (c.cnt - 1) }

/-- The tick rule (R201). -/
def lrTick (m : Memory) (q : LRParams) (c : LRReg) (i : LRIn) : LRPend :=
  match c.st with
  | .idle => lrStepStart m q i {}
  | .reading => lrStepRead m q c {}

/-- Every element with a pending value takes it (40_clock_discipline.md R145). -/
def LRReg.commit (c : LRReg) (p : LRPend) : LRReg where
  st := p.st.getD c.st
  addr := p.addr.getD c.addr
  rem := p.rem.getD c.rem
  cnt := p.cnt.getD c.cnt
  busy := p.busy.getD c.busy
  data := p.data.getD c.data
  valid := p.valid.getD c.valid

/-- The parameter ranges of 00_scope.md R12. -/
def LRParams.ok (q : LRParams) : Bool := decide (1 ≤ q.aw) && decide (1 ≤ q.lw)

end Sys2Proof.Machine
end

