-- ==== Sys2Proof/Machine/Discipline.lean ====
section
/-! DEFINITION. The clock discipline (40_clock_discipline.md R141 to R154): evaluate, commit and reset on the instances of
a scope, the harness' convergence check (60_exceptions.md R262), and the host's cycle (R151). -/

namespace Sys2Proof.Machine

/-! ### Evaluate -/

/-- `edge := (prev_clk = 0) and (in.clk = 1)` (R141). -/
def CD.rising (c : CD) : Bool := !c.prevClk && c.clk

/-- Every evaluation schedules `prev_clk <- in.clk` (R141). -/
def CD.evaluate (c : CD) : CD := { c with pendClk := some c.clk, fresh := true }

/-- The instance has a rising edge to evaluate that no evaluation has seen yet: none since the clock last changed level, nor
since a commit or a reset (R154, 70_reset_and_hazards.md R284, log 13; after a reset, and before the first one, log 30). Any
evaluation counts, also one after the source's commit while no wire came from it: wired to it then and evaluated again, the
instance owes nothing and is not refused. DESIGN CHOICE (log 29, unsafe). -/
def CD.owes (c : CD) : Bool := c.rising && !c.fresh

/-- `Evaluate(s, in)` of an I2C instance (R143): a fresh pending set, the tick rule on a rising edge. -/
def I2CInst.evaluate (x : I2CInst) (i : I2CIn) : I2CInst :=
  { x with cd := x.cd.evaluate, pend := if x.cd.rising then i2cTick x.params x.reg i else {} }

/-- `Evaluate(s, in)` of an LR instance (R143). -/
def LRInst.evaluate (m : Memory) (x : LRInst) (i : LRIn) : LRInst :=
  { x with cd := x.cd.evaluate, pend := if x.cd.rising then lrTick m x.params x.reg i else {} }

/-- `Evaluate(s, in)` of a BS instance (R143). -/
def BSInst.evaluate (m : Memory) (x : BSInst) (i : BSIn) : BSInst :=
  { x with cd := x.cd.evaluate, pend := if x.cd.rising then bsTick m x.params x.reg i else {} }

/-- The parameters of an instance are in their ranges (60_exceptions.md R275). A BS has no restricted parameter. -/
def State.paramsOk (s : State) : InstId → Bool
  | .i2c k => s.i2cs[k]?.all (·.params.ok)
  | .lr k => s.lrs[k]?.all (·.params.ok)
  | .bs _ => true

/-- An evaluation of an LR or a BS needs a well-formed image (20_memory.md R82). -/
def State.imageFor (s : State) : InstId → Bool
  | .i2c _ => true
  | .lr _ => s.mem.imageOk
  | .bs _ => s.mem.imageOk

/-- The wire's source has been reset, so that its output has a defined value (70_reset_and_hazards.md R283, log 12). -/
def State.sourceReset (s : State) (w : Wire) : Bool := (s.cd? w.src).any (·.wasReset)

/-- The wire is a same-edge path (R154, R275) into an instance whose record is `c`: it has yet to evaluate an edge at which
the source, another instance of its clock domain, has committed, and the source still shows that commit. Not such a path
is a wire into an instance that HAD an evaluation of the edge, not discarded by a reset, at that commit and is evaluated
again, or one that was evaluated after it without the wire: its inputs have changed before its own commit, which is the
non-convergence of R149 and not refused (R275). DEDUCED (log 13), that last DESIGN CHOICE (log 29, unsafe). -/
def State.sameEdge (s : State) (c : CD) (w : Wire) : Bool := c.owes && s.overtaken.contains ⟨w.src, w.dst⟩

/-- Why an evaluation of this instance is refused, if it is (60_exceptions.md R275, 70_reset_and_hazards.md R283). Without a
rising edge no wire is read (R143), so no source's state matters. -/
def State.blocked (s : State) (id : InstId) : Option Refusal :=
  match s.cd? id with
  | none => some (.noSuchInst id)
  | some c =>
    if !c.wasReset then some (.neverReset id)
    else if !s.paramsOk id then some (.parameterRange id)
    else if !s.imageFor id then some .imageLength
    else
      match (s.wiresInto id).find? fun w => c.rising && !s.sourceReset w with
      | some w => some (.neverReset w.src)
      | none =>
        match (s.wiresInto id).find? (s.sameEdge c) with
        | some w => some (.sameEdgePath w.src id)
        | none => none

/-- The pending set of an I2C instance, `prev_clk` included; `none` first where there is none. -/
def I2CInst.pendingSet (x : I2CInst) : Option Bool × I2CPend := (x.cd.pendClk, x.pend)

/-- The pending set of an LR instance. -/
def LRInst.pendingSet (x : LRInst) : Option Bool × LRPend := (x.cd.pendClk, x.pend)

/-- The pending set of a BS instance. -/
def BSInst.pendingSet (x : BSInst) : Option Bool × BSPend := (x.cd.pendClk, x.pend)

/-- `P1 != P2` (60_exceptions.md R262): an uncommitted pending set that differs from what an evaluation with these inputs
gives. -/
def I2CInst.differs (x : I2CInst) (i : I2CIn) : Bool :=
  x.cd.pendClk.isSome && (x.evaluate i).pendingSet != x.pendingSet

/-- `P1 != P2` of an LR instance (R262). -/
def LRInst.differs (m : Memory) (x : LRInst) (i : LRIn) : Bool :=
  x.cd.pendClk.isSome && (x.evaluate m i).pendingSet != x.pendingSet

/-- `P1 != P2` of a BS instance (R262). -/
def BSInst.differs (m : Memory) (x : BSInst) (i : BSIn) : Bool :=
  x.cd.pendClk.isSome && (x.evaluate m i).pendingSet != x.pendingSet

/-- The pending set of an earlier uncommitted evaluation of this instance differs from the one a further HOST.EVALUATE gives
(60_exceptions.md R262; when the harness makes its second evaluation is a DESIGN CHOICE, log 10). -/
def State.diverges (s : State) (id : InstId) : Bool :=
  match id with
  | .i2c k => s.i2cs[k]?.any fun x => x.differs (s.i2cInputs k x)
  | .lr k => s.lrs[k]?.any fun x => x.differs s.mem (s.lrInputs k x)
  | .bs k => s.bss[k]?.any fun x => x.differs s.mem (s.bsInputs k x)

/-- The pending set that a HOST.COMMIT is to commit differs from the one the inputs at the ports give now: the second
evaluation that R262 puts before a commit (log 10). -/
def State.unsettled (s : State) (id : InstId) : Bool :=
  match id with
  | .i2c k => s.i2cs[k]?.any fun x => x.differs (s.i2cHeld k x)
  | .lr k => s.lrs[k]?.any fun x => x.differs s.mem (s.lrHeld k x)
  | .bs k => s.bss[k]?.any fun x => x.differs s.mem (s.bsHeld k x)

/-- Every instance of the scope gets the pending set of its evaluation; all read the same committed values (R148). What the
wires drove is kept for the check before the commit (log 10). -/
def State.evaluated (s : State) (sc : Scope) : State :=
  (s.mapScope sc (fun k x => { x.evaluate (s.i2cInputs k x) with sampled := s.wireValues (.i2c k) })
    (fun k x => { x.evaluate s.mem (s.lrInputs k x) with sampled := s.wireValues (.lr k) })
    (fun k x => { x.evaluate s.mem (s.bsInputs k x) with sampled := s.wireValues (.bs k) })).withStarted

/-- Evaluate the instances of a scope: refused where the spec gives the run no meaning; non-convergence where the harness
checks and an uncommitted pending set differs (R262, R275); else the new pending sets. Where several instances of the scope
diverge, the flag names the FIRST of them in `State.ids` order (I2C, LR, BS, each by number), only its pending set is
discarded, and no other instance gets a new one. A refusal of any instance of the scope comes BEFORE the check of all: the
run is refused and no flag is set, also where another instance, or the refused one itself, diverges. R148 leaves the order
of evaluation free. DESIGN CHOICE (log 28, unsafe). -/
def evaluate (sc : Scope) (s : State) : Result :=
  match (s.inScope sc).findSome? s.blocked with
  | some r => .refused r
  | none =>
    match (s.inScope sc).find? fun id => s.checking && s.diverges id with
    | some id => .next (s.raise id)
    | none => .next (s.evaluated sc)

/-! ### Commit -/

/-- The clock-discipline record after a commit (R145): `prev_clk` takes its pending value, the pending set is empty,
`changed` is returned. -/
def CD.commit (c : CD) (changed : Bool) : CD :=
  { c with
    prevClk := c.pendClk.getD c.prevClk
    pendClk := none
    fresh := false
    changed := changed || c.pendClk.getD c.prevClk != c.prevClk }

/-- `Commit(s, P)` of an I2C instance (R145); the event of a consumption enters the trace here (log 8). -/
def I2CInst.commit (x : I2CInst) : I2CInst :=
  { x with
    cd := x.cd.commit (x.reg.commit x.pend != x.reg)
    reg := x.reg.commit x.pend
    pend := {}
    sampled := []
    trace := appendConsumed x.trace x.pend }

/-- `Commit(s, P)` of an LR instance (R145). -/
def LRInst.commit (x : LRInst) : LRInst :=
  { x with
    cd := x.cd.commit (x.reg.commit x.pend != x.reg)
    reg := x.reg.commit x.pend
    pend := {}
    sampled := [] }

/-- `Commit(s, P)` of a BS instance (R145). -/
def BSInst.commit (x : BSInst) : BSInst :=
  { x with
    cd := x.cd.commit (x.reg.commit x.pend != x.reg)
    reg := x.reg.commit x.pend
    pend := {}
    sampled := [] }

/-- The commit consumes the rising edge of the present level: prev_clk goes from 0 to 1 (R141). A pending set evaluated
before the clock's last change of level is one of an earlier edge. DESIGN CHOICE (log 30, unsafe). -/
def CD.commitsEdge (c : CD) : Bool := !c.prevClk && c.fresh && c.pendClk == some true

/-- The commit of this record puts prev_clk at 1: no edge is left to evaluate. -/
def CD.closes (c : CD) : Bool := c.pendClk == some true

/-- The instances of its clock domain that the `src` instance, whose record is `a`, overtakes when the scope is committed:
each still has the edge to evaluate after that commit (R154, log 13). Among them are an instance whose own evaluation of
the edge a reset has discarded before that commit, and one that was never reset: whether the edge it detects after its
reset is its own (70_reset_and_hazards.md R284) or the source's (R154) the spec leaves open. DESIGN CHOICE (log 30). -/
def State.overtakenBy (s : State) (sc : Scope) (src : InstId) (a : CD) : List Overtaken :=
  (s.ids.filter fun id => id != src && (s.cd? id).any fun c =>
    c.domain == a.domain && c.owes && !(sc.has id c && c.closes)).map (⟨src, ·⟩)

/-- The instances that a commit of the scope newly overtakes. -/
def State.overtakes (s : State) (sc : Scope) : List Overtaken :=
  (s.inScope sc).flatMap fun src =>
    match s.cd? src with
    | some a => if a.commitsEdge then s.overtakenBy sc src a else []
    | none => []

/-- Commit every instance of the scope. An instance whose edge is consumed is no longer overtaken (log 13). -/
def State.committed (s : State) (sc : Scope) : State :=
  (s.mapScope sc (fun _ x => x.commit) (fun _ x => x.commit) (fun _ x => x.commit)).withOvertaken
    (s.overtakenBut (fun id c => sc.has id c && c.closes) ++ s.overtakes sc)

/-- HOST.COMMIT of one instance (R145) by a harness that checks: before the commit it evaluates a second time, and raises
NonConvergence where the pending sets differ (60_exceptions.md R261, R262). The commits of a cycle (R151) follow their
evaluations at once, so that no such check can fail there (R263). This second evaluation is never refused: through a wire
made after the first one it may read the placeholder outputs of a source that was never reset, where HOST.EVALUATE is refused
(70_reset_and_hazards.md R283). DESIGN CHOICE (log 10, unsafe). -/
def commitChecked (id : InstId) (s : State) : Result :=
  .next (if s.checking && s.unsettled id then s.raise id else s.committed (.one id))

/-! ### Reset -/

/-- The clock-discipline record after HOST.RESET (70_reset_and_hazards.md R280): prev_clk 0, nothing pending. The inputs,
`clk` among them, and the last commit's result stay (DESIGN CHOICE, log 20). -/
def CD.afterReset (c : CD) : CD := { c with prevClk := false, pendClk := none, fresh := false, wasReset := true }

/-- `Reset(s)` of an I2C instance (R280): the trace is kept. -/
def I2CInst.afterReset (x : I2CInst) : I2CInst := { x with cd := x.cd.afterReset, reg := I2CReg.reset, pend := {}, sampled := [] }

/-- `Reset(s)` of an LR instance (R280). -/
def LRInst.afterReset (x : LRInst) : LRInst := { x with cd := x.cd.afterReset, reg := LRReg.reset, pend := {}, sampled := [] }

/-- `Reset(s)` of a BS instance (R280). -/
def BSInst.afterReset (x : BSInst) : BSInst := { x with cd := x.cd.afterReset, reg := BSReg.reset, pend := {}, sampled := [] }

/-- Reset every instance of the scope. A reset instance shows its reset values, which no edge committed, so it has
overtaken none; that it was overtaken itself stays, where its edge is still to evaluate (log 13). -/
def State.afterReset (s : State) (sc : Scope) : State :=
  (s.mapScope sc (fun _ x => x.afterReset) (fun _ x => x.afterReset) (fun _ x => x.afterReset)).withOvertaken
    (s.overtaken.filter fun o => !(s.cd? o.src).any (sc.has o.src))

/-- A host call on one instance, which must exist. -/
def onInst (id : InstId) (s : State) (r : Result) : Result :=
  guardRun s (if (s.cd? id).isSome then r else .refused (.noSuchInst id))

/-! ### The host's cycle -/

/-- Some commit of the scope returned `changed = 1` (R151 step 4). -/
def State.anyChanged (s : State) (sc : Scope) : Bool := (s.inScope sc).any fun id => (s.cd? id).any (·.changed)

/-- Steps 2 to 4 of R151: evaluate all, commit all, until no commit returns `changed = 1`, at most `fuel` times. -/
def settle (sc : Scope) : Nat → State → Result
  | 0, s => .next s
  | fuel + 1, s =>
    andThen (evaluate sc s) fun t =>
      let u := t.committed sc
      if u.anyChanged sc then settle sc fuel u else .next u

/-- One clock cycle of a clock domain (R151): clk = 1, settle, clk = 0, evaluate and commit. The settling loop ends after
one repetition (R152), so two rounds are enough (DEDUCED, log 23). The other inputs stay driven (DEDUCED, log 19). -/
def cycle (d : Nat) (s : State) : Result :=
  andThen (settle (.domain d) 2 (s.driveClk d true)) fun t =>
    andThen (evaluate (.domain d) (t.driveClk d false)) fun u => .next (u.committed (.domain d))

/-- A stimulus line of an I2C instance (30_encoding.md R122): its inputs, then one cycle of its clock. -/
def i2cLine (k : Nat) (i : I2CIn) (s : State) : Result :=
  guardRun s
    (match s.i2cs[k]? with
      | some x => cycle x.cd.domain (s.setI2cIn k i)
      | none => .refused (.noSuchInst (.i2c k)))

/-- A stimulus line of an LR instance (R122). -/
def lrLine (k : Nat) (i : LRIn) (s : State) : Result :=
  guardRun s
    (match s.lrs[k]? with
      | some x => cycle x.cd.domain (s.setLrIn k i)
      | none => .refused (.noSuchInst (.lr k)))

/-- A stimulus line of a BS instance (R122). -/
def bsLine (k : Nat) (i : BSIn) (s : State) : Result :=
  guardRun s
    (match s.bss[k]? with
      | some x => cycle x.cd.domain (s.setBsIn k i)
      | none => .refused (.noSuchInst (.bs k)))

/-- The wire edges of a frame: chip-select asserted, one bit a cycle (R123 SPI.SEND8, SPI.SEND32). -/
def bsSend (k : Nat) : List Bool → State → Result
  | [], s => .next s
  | b :: bs, s => andThen (bsLine k ⟨true, b⟩ s) (bsSend k bs)

end Sys2Proof.Machine
end

