-- ==== Sys2Proof/Machine/BitSerial.lean ====
section
/-! DEFINITION. The meanings of the BS rows of the opcode table: one edge of the wires (30_encoding.md R114), and the two
command frames of R115 and R116 sent bit by bit, MSB first, with chip-select asserted (R123). What a frame does is the
tick rule (43_spinor_bitserial.md R221), which recognises it at its last bit (R225, R226). -/

namespace Sys2Proof.Machine

/-- BS.TICK (R221, R223, R230, R231). -/
def execBsTick (k : Nat) (cs si : Bool) (s : State) : Result := bsLine k { cs := cs, si := si } s

/-- BS.RELEASE_POWER_DOWN (R115, R225): the frame 0xAB over 8 edges (log 15). -/
def execBsReleasePowerDown (k : Nat) (s : State) : Result := bsSend k (msbFirst 8 rpdFrame) s

/-- BS.READ (R116, R226): the frame 0x03 and the address over 32 edges (log 15). -/
def execBsRead (k : Nat) (addr : FrameAddr) (s : State) : Result := bsSend k (msbFirst 32 (readFrame addr)) s

end Sys2Proof.Machine
end

