-- ==== Sys2Proof/Machine/HostCalls.lean ====
section
/-! DEFINITION. The meanings of the three host calls on one instance (40_clock_discipline.md R140, R143, R145,
70_reset_and_hazards.md R280). -/

namespace Sys2Proof.Machine

/-- HOST.RESET (R280): at once, whatever `clk` is and whatever is pending. -/
def execHostReset (id : InstId) (s : State) : Result := onInst id s (.next (s.afterReset (.one id)))

/-- HOST.EVALUATE (R143), with the harness' check (60_exceptions.md R262). -/
def execHostEvaluate (id : InstId) (s : State) : Result := onInst id s (evaluate (.one id) s)

/-- HOST.COMMIT (R145), with the harness' check before it (60_exceptions.md R262). -/
def execHostCommit (id : InstId) (s : State) : Result := onInst id s (commitChecked id s)

end Sys2Proof.Machine
end

