-- ==== Sys2Proof/Machine/I2c.lean ====
section
/-! DEFINITION. The meanings of the I2C rows of the opcode table. Each is one line of the control vector (30_encoding.md
R111): the inputs and one clock cycle, in which the tick rule (41_i2c_target.md R161, R175) performs every operation the
vector requests (R112). -/

namespace Sys2Proof.Machine

/-- I2C.TICK (R161: R163, R167, R168): no request. -/
def execI2cTick (k : Nat) (ack : Bool) (inDin outDin : Nat) (s : State) : Result :=
  i2cLine k
    { start := false, inWe := false, outRe := false, outPub := false, ackIn := ack, inDin := inDin, outDin := outDin } s

/-- I2C.START (R166), with the requests of bits 1 to 4. -/
def execI2cStart (k : Nat) (we ore pub ack : Bool) (inDin outDin : Nat) (s : State) : Result :=
  i2cLine k
    { start := true, inWe := we, outRe := ore, outPub := pub, ackIn := ack, inDin := inDin, outDin := outDin } s

/-- I2C.IN_WRITE (R169), with the requests of bits 2 to 4. -/
def execI2cInWrite (k : Nat) (ore pub ack : Bool) (inDin outDin : Nat) (s : State) : Result :=
  i2cLine k
    { start := false, inWe := true, outRe := ore, outPub := pub, ackIn := ack, inDin := inDin, outDin := outDin } s

/-- I2C.OUT_READ (R164), with the requests of bits 3 and 4. -/
def execI2cOutRead (k : Nat) (pub ack : Bool) (inDin outDin : Nat) (s : State) : Result :=
  i2cLine k
    { start := false, inWe := false, outRe := true, outPub := pub, ackIn := ack, inDin := inDin, outDin := outDin } s

/-- I2C.OUT_PUBLISH (R165). -/
def execI2cOutPublish (k : Nat) (ack : Bool) (inDin outDin : Nat) (s : State) : Result :=
  i2cLine k
    { start := false, inWe := false, outRe := false, outPub := true, ackIn := ack, inDin := inDin, outDin := outDin } s

end Sys2Proof.Machine
end

