-- ==== Sys2Proof/Machine/LinearReader.lean ====
section
/-! DEFINITION. The meanings of the LR rows of the opcode table: one line of LR_CTL (30_encoding.md R113), that is the
inputs and one clock cycle of the tick rule (42_spinor_linear_reader.md R201). -/

namespace Sys2Proof.Machine

/-- LR.TICK (R201: R202 to R205): `start = 0`. -/
def execLrTick (k : Nat) (addr len : Nat) (s : State) : Result :=
  lrLine k { start := false, addr := addr, len := len } s

/-- LR.START (R206): `start = 1`. -/
def execLrStart (k : Nat) (addr len : Nat) (s : State) : Result :=
  lrLine k { start := true, addr := addr, len := len } s

end Sys2Proof.Machine
end

