-- ==== Sys2Proof/Machine/Dispatch.lean ====
section
/-! DEFINITION. One arm per operation of the opcode table. -/

namespace Sys2Proof.Machine

def exec (i : Instr) (s : State) : Host.Outcome State Fault Refusal :=
  match i with
  | .i2cTick k ack inDin outDin => Sys2Proof.Machine.execI2cTick k ack inDin outDin s
  | .i2cStart k we ore pub ack inDin outDin => Sys2Proof.Machine.execI2cStart k we ore pub ack inDin outDin s
  | .i2cInWrite k ore pub ack inDin outDin => Sys2Proof.Machine.execI2cInWrite k ore pub ack inDin outDin s
  | .i2cOutRead k pub ack inDin outDin => Sys2Proof.Machine.execI2cOutRead k pub ack inDin outDin s
  | .i2cOutPublish k ack inDin outDin => Sys2Proof.Machine.execI2cOutPublish k ack inDin outDin s
  | .lrTick k addr len => Sys2Proof.Machine.execLrTick k addr len s
  | .lrStart k addr len => Sys2Proof.Machine.execLrStart k addr len s
  | .bsTick k cs si => Sys2Proof.Machine.execBsTick k cs si s
  | .bsReleasePowerDown k => Sys2Proof.Machine.execBsReleasePowerDown k s
  | .bsRead k addr => Sys2Proof.Machine.execBsRead k addr s
  | .hostReset id => Sys2Proof.Machine.execHostReset id s
  | .hostEvaluate id => Sys2Proof.Machine.execHostEvaluate id s
  | .hostCommit id => Sys2Proof.Machine.execHostCommit id s

end Sys2Proof.Machine
end

