-- ==== Sys2Proof/Machine/HostActs.lean ====
section
/-! DEFINITION. What the host does around the operations of the opcode table (log 22): it drives input ports and clocks,
wires instances, supplies the image and creates instances (40_clock_discipline.md R151, 20_memory.md R80, R84,
70_reset_and_hazards.md R283). None of them runs a tick: between evaluations no state element changes (00_scope.md R4). And
how the step fetches: the line at the head of the script. -/

namespace Sys2Proof.Machine

/-- Drive one input port; a port the machine does not have is refused (30_encoding.md R110). -/
def drivePort (id : InstId) (p : InPort) (v : Nat) (s : State) : Result :=
  if (s.cd? id).isNone then .refused (.noSuchInst id)
  else if !hasInPort id p then .refused (.noSuchPort id)
  else
    .next (s.mapScope (.one id) (fun _ x => { x with inp := (x.inp.drive p v).getD x.inp })
      (fun _ x => { x with inp := (x.inp.drive p v).getD x.inp })
      (fun _ x => { x with inp := (x.inp.drive p v).getD x.inp }))

/-- Wire an output onto an input; an input has one driver, the later one (log 21). -/
def connect (w : Wire) (s : State) : Result :=
  if (s.cd? w.src).isNone then .refused (.noSuchInst w.src)
  else if (s.cd? w.dst).isNone then .refused (.noSuchInst w.dst)
  else if (s.output w.src w.srcPort).isNone then .refused (.noSuchPort w.src)
  else if !hasInPort w.dst w.dstPort then .refused (.noSuchPort w.dst)
  else .next (s.withWires ((s.wires.filter fun v => !(v.dst == w.dst && v.dstPort == w.dstPort)) ++ [w]))

/-- Supply the image (20_memory.md R80): refused with another content length (R82) and where it would change the image
after the first evaluation (R84, 60_exceptions.md R275). R80's host supplies it once; the spec does not say what a second
supply is: here one BEFORE the first evaluation replaces the first, and one of the SAME image after it is no change and is
not refused. DESIGN CHOICE (log 27, unsafe). -/
def supplyImage (base len : Nat) (content : List Byte) (s : State) : Result :=
  if s.started && s.mem != Memory.ofImage base len content then .refused .imageChanged
  else if content.length != len then .refused .imageLength
  else .next (s.withMem (Memory.ofImage base len content))

/-- Create an instance that has not been reset (70_reset_and_hazards.md R283 item 1); its parameters must be in range
(60_exceptions.md R275). Its registers hold placeholders (log 12). Its clk port is 0, whatever level its clock domain is at
(log 31): created after its source has committed an edge whose level still stands, it has been overtaken by none, and when
the host drives that level onto its clk it detects an edge and is not refused. DESIGN CHOICE (log 30, unsafe). -/
def createInst (n : NewInst) (s : State) : Result :=
  match n with
  | .i2c p d =>
    if p.ok then .next (s.withInsts (s.i2cs ++ [I2CInst.initial p d false]) s.lrs s.bss)
    else .refused (.parameterRange (.i2c s.i2cs.length))
  | .lr p d =>
    if p.ok then .next (s.withInsts s.i2cs (s.lrs ++ [LRInst.initial p d false]) s.bss)
    else .refused (.parameterRange (.lr s.lrs.length))
  | .bs p d => .next (s.withInsts s.i2cs s.lrs (s.bss ++ [BSInst.initial p d false]))

/-- A pseudo-instruction is its expansion (30_encoding.md R123): its lines come next in the script. -/
def expandPseudo (p : Pseudo) (s : State) : Result := .next (s.withScript (p.expand.map .line ++ s.script))

/-- What a line that names no operation does: an unrecognised frame is legal (30_encoding.md R121), so it goes on the wire
bit by bit and the recognizer ignores it (43_spinor_bitserial.md R236); any other is refused (log 15, log 26). -/
def undecodedLine (l : Line) (e : DecodeError) (s : State) : Result :=
  match e, l.unit with
  | .unrecognisedFrame n, .bs k => .next (s.withScript ((frameLines k n l.ctl).map .line ++ s.script))
  | e, _ => .refused (.undecodable e)

/-- The line the step takes for a bare table word; a word that no format accepts is a line that no format accepts. -/
def fetchLine (nbits w : Nat) : Line := (tableLine nbits w).getD ⟨.i2cCtl, .i2c 0, BitVec.ofNat 32 (2 ^ 31), 0, 0⟩

/-- Put the line of a bare table word at the head of the script. -/
def placeWord (s : State) (nbits w : Nat) : State := s.withScript (.line (fetchLine nbits w) :: s.script)

end Sys2Proof.Machine
end

