-- ==== Sys2Proof/Machine/Step.lean ====
section
/-! DEFINITION. One step of the machine: the host's next action (log 1, log 2). -/

namespace Sys2Proof.Machine

/-- One action of the host on the machine; a line is decoded and executed. -/
def act (a : HostAct) (s : State) : Result :=
  match a with
  | .line l => (match decode l with
    | .ok i => exec i s
    | .error e => undecodedLine l e s)
  | .pseudo p => expandPseudo p s
  | .drive id p v => drivePort id p v s
  | .clock d v => .next (s.driveClk d v)
  | .connect w => connect w s
  | .image b n c => supplyImage b n c s
  | .create n => createInst n s

/-- One step: nothing after the run has ended (60_exceptions.md R262); with no action of the host nothing changes
(00_scope.md R4); else the script's next action. -/
def step (s : State) : Host.Outcome State Fault Refusal :=
  guardRun s
    (match s.script with
      | [] => .next s
      | a :: rest => act a (s.withScript rest))

/-- The state in which the next step runs the instruction of a bare table word. -/
def State.withFetchWord (s : State) (nbits w : Nat) : State := placeWord s nbits w

end Sys2Proof.Machine
end

