-- ==== Sys2Proof/Safety.lean ====
section
/-! DEFINITION. What claims about the machine are stated in: the invariants the spec names (10_state.md R38, R39, R42, R44,
R47, R50, R52, 43_spinor_bitserial.md R240, R247), the state between two clock cycles of a domain, the tick-level
successor (00_scope.md R23, R26, 40_clock_discipline.md R142), and a sequence of operations. -/

namespace Sys2Proof.Machine

/-! ### Invariants of the registers -/

/-- The I2C registers after every commit (R38, R39, R41 to R45, R47). -/
def I2CReg.inv (q : I2CParams) (c : I2CReg) : Prop :=
  (c.busy = true ↔ c.st = .busy) ∧ (c.st = .busy → 1 ≤ c.cnt) ∧ c.cnt ≤ q.timeout ∧ c.inReady = !c.inFull ∧
    c.outReady = c.outFull ∧ c.inQ < 2 ^ q.inW ∧ c.outData < 2 ^ q.outW ∧ c.q < 2 ^ q.inW

/-- The LR registers after every commit (R49, R50, R52). -/
def LRReg.inv (q : LRParams) (c : LRReg) : Prop :=
  (c.busy = true ↔ c.st = .reading) ∧ (c.valid = true → c.st = .reading) ∧ c.cnt ≤ q.pacing ∧ c.addr < 2 ^ q.aw ∧
    c.rem < 2 ^ q.lw

/-- The BS registers after every commit (R55, R56, R240, R247). -/
def BSReg.inv (q : BSParams) (c : BSReg) : Prop :=
  c.bidx ≤ 7 ∧ (c.st = .idle ∨ c.st = .dpu → c.ec = 0) ∧ c.sr < 2 ^ q.srW ∧ c.raddr < 2 ^ q.addrW

/-- An I2C instance: its registers meet the invariant now and after a commit of what is pending; no pending clock sample
means an empty pending set (40_clock_discipline.md R145). -/
def I2CInst.inv (x : I2CInst) : Prop :=
  x.reg.inv x.params ∧ (x.reg.commit x.pend).inv x.params ∧ (x.cd.pendClk = none → x.pend = {})

/-- The same for an LR instance. -/
def LRInst.inv (x : LRInst) : Prop :=
  x.reg.inv x.params ∧ (x.reg.commit x.pend).inv x.params ∧ (x.cd.pendClk = none → x.pend = {})

/-- The same for a BS instance. -/
def BSInst.inv (x : BSInst) : Prop :=
  x.reg.inv x.params ∧ (x.reg.commit x.pend).inv x.params ∧ (x.cd.pendClk = none → x.pend = {})

/-- The machine's invariant: every instance's, and a well-formed image (20_memory.md R82). -/
def State.Inv (s : State) : Prop :=
  (∀ x ∈ s.i2cs, x.inv) ∧ (∀ x ∈ s.lrs, x.inv) ∧ (∀ x ∈ s.bss, x.inv) ∧ s.mem.imageOk = true

/-! ### Between two cycles -/

/-- An instance at rest between two clock cycles (40_clock_discipline.md R151): reset, its clock sampled low, nothing
pending, its parameters and image in order, and everything wired into it reset. -/
def State.rested (s : State) (id : InstId) : Bool :=
  (s.cd? id).any (fun c => c.wasReset && !c.clk && !c.prevClk && c.pendClk.isNone) && s.paramsOk id && s.imageFor id &&
    (s.wiresInto id).all s.sourceReset

/-- The run goes on and every instance of the clock domain is at rest. -/
def State.ready (s : State) (d : Nat) : Bool := s.nonconv.isNone && (s.inScope (.domain d)).all s.rested

/-- The `k`-th I2C instance is `x`, its clock domain is at rest, and no wire drives its inputs. -/
def State.restI2c (s : State) (k : Nat) (x : I2CInst) : Prop :=
  s.i2cs[k]? = some x ∧ s.ready x.cd.domain = true ∧ s.wiresInto (.i2c k) = []

/-- The `k`-th LR instance is `x`, its clock domain is at rest, and no wire drives its inputs. -/
def State.restLr (s : State) (k : Nat) (x : LRInst) : Prop :=
  s.lrs[k]? = some x ∧ s.ready x.cd.domain = true ∧ s.wiresInto (.lr k) = []

/-- The `k`-th BS instance is `x`, its clock domain is at rest, and no wire drives its inputs. -/
def State.restBs (s : State) (k : Nat) (x : BSInst) : Prop :=
  s.bss[k]? = some x ∧ s.ready x.cd.domain = true ∧ s.wiresInto (.bs k) = []

/-- HOST.EVALUATE has a meaning on the instance (60_exceptions.md R275, 70_reset_and_hazards.md R283): it exists and was
reset, its parameters and image are in order, and, where it detects an edge, the instances wired into it were reset and
none of them has overtaken it at an edge that it has still to evaluate (40_clock_discipline.md R143, R154). -/
def State.evaluable (s : State) (id : InstId) : Bool :=
  (s.cd? id).any fun c =>
    c.wasReset && s.paramsOk id && s.imageFor id &&
      (s.wiresInto id).all fun w =>
        !(!c.prevClk && c.clk && (!s.sourceReset w || !c.fresh && s.overtaken.contains ⟨w.src, w.dst⟩))

/-! ### The tick-level successor -/

/-- The clock-discipline record after a cycle: the clock is low again and has been sampled low. -/
def CD.afterCycle (c : CD) : CD :=
  { c with clk := false, prevClk := false, pendClk := none, fresh := false, changed := true }

/-- One tick of an I2C instance (R23): the tick rule on the committed registers, and its commit. -/
def I2CInst.tick (x : I2CInst) (i : I2CIn) : I2CInst :=
  { x with
    cd := x.cd.afterCycle
    reg := x.reg.commit (i2cTick x.params x.reg i)
    pend := {}
    sampled := []
    trace := appendConsumed x.trace (i2cTick x.params x.reg i) }

/-- One tick of an LR instance. -/
def LRInst.tick (m : Memory) (x : LRInst) (i : LRIn) : LRInst :=
  { x with cd := x.cd.afterCycle, reg := x.reg.commit (lrTick m x.params x.reg i), pend := {}, sampled := [] }

/-- One tick of a BS instance. -/
def BSInst.tick (m : Memory) (x : BSInst) (i : BSIn) : BSInst :=
  { x with cd := x.cd.afterCycle, reg := x.reg.commit (bsTick m x.params x.reg i), pend := {}, sampled := [] }

/-- One tick of every instance of a clock domain, each from the values committed before it (20_memory.md R96). No instance
of the domain is overtaken after it. -/
def State.ticked (s : State) (d : Nat) : State :=
  ((s.mapScope (.domain d) (fun k x => x.tick (s.i2cInputs k x)) (fun k x => x.tick s.mem (s.lrInputs k x))
    (fun k x => x.tick s.mem (s.bsInputs k x))).withOvertaken (s.overtakenBut fun _ c => c.domain == d)).withStarted

/-- The registers of a BS instance over a sequence of edges (43_spinor_bitserial.md R221). -/
def BSReg.after (m : Memory) (q : BSParams) : BSReg → List BSIn → BSReg
  | c, [] => c
  | c, i :: is => BSReg.after m q (c.commit (bsTick m q c i)) is

/-! ### What an operation leaves alone -/

/-- The states agree outside a clock domain: the image, byte by byte as `MemRead` sees it and as a whole, the wires, the
harness check, the script, and every instance of every other domain. -/
def State.sameOutside (s t : State) (d : Nat) : Prop :=
  (∀ a, t.mem.read a = s.mem.read a) ∧ t.mem = s.mem ∧ t.wires = s.wires ∧ t.checking = s.checking ∧
    t.script = s.script ∧
    (∀ (k : Nat) (x : I2CInst), s.i2cs[k]? = some x → x.cd.domain ≠ d → t.i2cs[k]? = some x) ∧
    (∀ (k : Nat) (x : LRInst), s.lrs[k]? = some x → x.cd.domain ≠ d → t.lrs[k]? = some x) ∧
    ∀ (k : Nat) (x : BSInst), s.bss[k]? = some x → x.cd.domain ≠ d → t.bss[k]? = some x

/-- The states agree outside one instance: the image, the wires, the harness check, the script, and every other
instance. -/
def State.sameBut (s t : State) (id : InstId) : Prop :=
  (∀ a, t.mem.read a = s.mem.read a) ∧ t.mem = s.mem ∧ t.wires = s.wires ∧ t.checking = s.checking ∧
    t.script = s.script ∧ (∀ k : Nat, InstId.i2c k ≠ id → t.i2cs[k]? = s.i2cs[k]?) ∧
    (∀ k : Nat, InstId.lr k ≠ id → t.lrs[k]? = s.lrs[k]?) ∧ ∀ k : Nat, InstId.bs k ≠ id → t.bss[k]? = s.bss[k]?

/-- The frame of one edge of an I2C instance `x` that became `y`: the run goes on, nothing outside its clock domain changed,
its parameters stay, its clock has gone through one cycle and nothing is pending. -/
def State.i2cFrame (s t : State) (x y : I2CInst) : Prop :=
  t.nonconv = none ∧ s.sameOutside t x.cd.domain ∧ y.params = x.params ∧ y.cd = x.cd.afterCycle ∧ y.pend = {} ∧
    y.sampled = []

/-- The frame of one edge of an LR instance. -/
def State.lrFrame (s t : State) (x y : LRInst) : Prop :=
  t.nonconv = none ∧ s.sameOutside t x.cd.domain ∧ y.params = x.params ∧ y.cd = x.cd.afterCycle ∧ y.pend = {} ∧
    y.sampled = []

/-- The frame of one edge, or of one frame of edges, of a BS instance. -/
def State.bsFrame (s t : State) (x y : BSInst) : Prop :=
  t.nonconv = none ∧ s.sameOutside t x.cd.domain ∧ y.params = x.params ∧ y.cd = x.cd.afterCycle ∧ y.pend = {} ∧
    y.sampled = []

/-! ### Sequences -/

/-- The operation whose I2C control vector and data operands are these inputs (30_encoding.md R111, log 4). -/
def I2CIn.op (k : Nat) (i : I2CIn) : Instr :=
  if i.start then .i2cStart k i.inWe i.outRe i.outPub i.ackIn i.inDin i.outDin
  else if i.inWe then .i2cInWrite k i.outRe i.outPub i.ackIn i.inDin i.outDin
  else if i.outRe then .i2cOutRead k i.outPub i.ackIn i.inDin i.outDin
  else if i.outPub then .i2cOutPublish k i.ackIn i.inDin i.outDin
  else .i2cTick k i.ackIn i.inDin i.outDin

/-- The operation whose LR control vector and operands are these inputs (R113). -/
def LRIn.op (k : Nat) (i : LRIn) : Instr := if i.start then .lrStart k i.addr i.len else .lrTick k i.addr i.len

/-- The operation of one edge of the BS wires (R114). -/
def BSIn.op (k : Nat) (i : BSIn) : Instr := .bsTick k i.cs i.si

/-- The operation is a stimulus line of the instance, whose clock domain is `d` (30_encoding.md R122). -/
def State.lineOf (s : State) (op : Instr) (id : InstId) (d : Nat) : Prop :=
  match id with
  | .i2c j => ∃ z i, s.i2cs[j]? = some z ∧ z.cd.domain = d ∧ op = I2CIn.op j i
  | .lr j => ∃ z i, s.lrs[j]? = some z ∧ z.cd.domain = d ∧ op = LRIn.op j i
  | .bs j => ∃ z i, s.bss[j]? = some z ∧ z.cd.domain = d ∧ op = BSIn.op j i

/-! ### What an input port reads -/

/-- The value at an input port of an I2C instance, where it has the port (R110). -/
def I2CIn.port (i : I2CIn) : InPort → Option Nat
  | .start => some i.start.toNat
  | .inWe => some i.inWe.toNat
  | .inDin => some i.inDin
  | .outRe => some i.outRe.toNat
  | .outPub => some i.outPub.toNat
  | .outDin => some i.outDin
  | .ackIn => some i.ackIn.toNat
  | .lrAddrIn => none
  | .lrLenIn => none
  | .cs => none
  | .si => none

/-- The value at an input port of an LR instance (R110). -/
def LRIn.port (i : LRIn) : InPort → Option Nat
  | .start => some i.start.toNat
  | .lrAddrIn => some i.addr
  | .lrLenIn => some i.len
  | .inWe => none
  | .inDin => none
  | .outRe => none
  | .outPub => none
  | .outDin => none
  | .ackIn => none
  | .cs => none
  | .si => none

/-- The value at an input port of a BS instance (R110). -/
def BSIn.port (i : BSIn) : InPort → Option Nat
  | .cs => some i.cs.toNat
  | .si => some i.si.toNat
  | .start => none
  | .inWe => none
  | .inDin => none
  | .outRe => none
  | .outPub => none
  | .outDin => none
  | .ackIn => none
  | .lrAddrIn => none
  | .lrLenIn => none

/-- The width of an input port of an I2C instance (R110): the data ports' parameters, else one bit. -/
def I2CParams.width (q : I2CParams) (p : InPort) : Nat :=
  if p = .inDin then q.inW else if p = .outDin then q.outW else 1

/-- The width of an input port of an LR instance (R110): the operands' parameters, else one bit. -/
def LRParams.width (q : LRParams) (p : InPort) : Nat :=
  if p = .lrAddrIn then q.aw else if p = .lrLenIn then q.lw else 1

/-- The wire is the only driver of its input port. -/
def State.soleDriver (s : State) (w : Wire) : Prop :=
  w ∈ s.wires ∧ ∀ v ∈ s.wires, v.dst = w.dst → v.dstPort = w.dstPort → v = w

/-- No wire drives the input port. -/
def State.undriven (s : State) (id : InstId) (p : InPort) : Prop := ∀ w ∈ s.wires, w.dst = id → w.dstPort ≠ p

/-! ### Frames, and sequences of operations -/

/-- The wire edges of a frame's bits, chip-select asserted (R123). -/
def selected (bits : List Bool) : List BSIn := bits.map fun b => ⟨true, b⟩

/-- The parameters' values that the frames of R115 and R116 are written for (00_scope.md R12). -/
def BSParams.standard (q : BSParams) : Prop :=
  q.puEdge = 7 ∧ q.rdEdge = 31 ∧ q.opcRpd = 0xAB#8 ∧ q.opcRead = 0x03#8 ∧ q.srW = 32 ∧ q.addrW = 24

/-- The operations in order, up to the first that does not answer a next state or ends the run. -/
def execAll : List Instr → State → Result
  | [], s => .next s
  | i :: is, s => andThen (exec i s) (execAll is)

end Sys2Proof.Machine
end

