-- ==== Sys2Proof/Certificates/Slice0/Obligations.lean ====
section
/-! DEFINITION. The statements for the provers. Each docstring says which rule of spec/ the statement formalises, and names
the log entry of every choice of the model that it rests on, and the row D<n> of 92_eei_decisions.md of every choice of the
spec's own. A statement that rests on such a choice, or on a rule that the spec marks as derived, has basis 'derived'. -/

section
open Sys2Proof Sys2Proof.Machine

/-! ### Encoding and decoding -/

/-- Decoding the line of an operation gives the operation, with every operand at every value (30_encoding.md R111 to
R116, R119, R120). The spec's own choice: D25. -/
def Obligations.DecodeOfEncodeIsTheOperation : Prop := ∀ i : Instr, decode (encode i) = .ok i

/-- A line that decodes is the line of the operation it decodes to: no bit of a line is dropped (R111 to R116, R120).
The spec's own choice: D25. -/
def Obligations.EncodeOfDecodedLineIsTheLine : Prop := ∀ (l : Line) (i : Instr), decode l = .ok i → encode i = l

/-- Every well-formed line names an operation, but for the unrecognised frames and host call 3 (R112, R113, R114, R120,
R121). The spec's own choice: D25. -/
def Obligations.WellFormedLineDecodesOrIsNamed : Prop :=
  ∀ l : Line, l.wf = true →
    (∃ i, decode l = .ok i) ∨
    (l.fmt = .cmd8 ∧ l.ctl ≠ 0xAB#32 ∧ decode l = .error (.unrecognisedFrame 8)) ∨
    (l.fmt = .cmd32 ∧ l.ctl.extractLsb' 24 8 ≠ 0x03#8 ∧ decode l = .error (.unrecognisedFrame 32)) ∨
    (l.fmt = .host ∧ l.ctl = 3#32 ∧ decode l = .error .hostCall3)

/-- Every control vector is legal, and its operation drives each input bit with the vector's bit of R111, R113, R114 and
the data operands beside it: all requested operations run at the one edge (R112). Which constructor a vector with
several requests is, is the model's choice (log 4). The spec's own choice: D25. -/
def Obligations.ControlVectorBitsAreTheDrivenInputs : Prop :=
  (∀ (k a b : Nat) (v : BitVec 32) (s : State), v.toNat < 32 →
    ∃ i, decode ⟨.i2cCtl, .i2c k, v, a, b⟩ = .ok i ∧
      exec i s = i2cLine k ⟨v.getLsbD 0, v.getLsbD 1, v.getLsbD 2, v.getLsbD 3, v.getLsbD 4, a, b⟩ s) ∧
  (∀ (k a n : Nat) (v : BitVec 32) (s : State), v.toNat < 2 →
    ∃ i, decode ⟨.lrCtl, .lr k, v, a, n⟩ = .ok i ∧ exec i s = lrLine k ⟨v.getLsbD 0, a, n⟩ s) ∧
  ∀ (k : Nat) (v : BitVec 32) (s : State), v.toNat < 4 →
    ∃ i, decode ⟨.bsWire, .bs k, v, 0, 0⟩ = .ok i ∧ exec i s = bsLine k ⟨v.getLsbD 1, v.getLsbD 0⟩ s

/-- Words written out from R111, R113, R114, R115, R116 and R120 decode to the operations they stand for. The spec's own
choice: D25. -/
def Obligations.SpecEncodingsDecode : Prop :=
  decode ⟨.i2cCtl, .i2c 0, 0x12#32, 0x5A, 0⟩ = .ok (.i2cInWrite 0 false false true 0x5A 0) ∧
  decode ⟨.i2cCtl, .i2c 0, 0x08#32, 0, 0x42⟩ = .ok (.i2cOutPublish 0 false 0 0x42) ∧
  decode ⟨.lrCtl, .lr 0, 1#32, 0x100000, 4⟩ = .ok (.lrStart 0 0x100000 4) ∧
  decode ⟨.bsWire, .bs 0, 2#32, 0, 0⟩ = .ok (.bsTick 0 true false) ∧
  decode ⟨.cmd8, .bs 0, 0xAB#32, 0, 0⟩ = .ok (.bsReleasePowerDown 0) ∧
  decode ⟨.cmd32, .bs 0, 0x0310000A#32, 0, 0⟩ = .ok (.bsRead 0 0x10000A#24) ∧
  decode ⟨.host, .lr 0, 2#32, 0, 0⟩ = .ok (.hostCommit (.lr 0))

/-- The host-call numbering of R120: 0 reset, 1 evaluate, 2 commit; the value 3 names no call and the step refuses it.
The spec's own choice: D25. -/
def Obligations.HostCallNumbersAreZeroOneTwo : Prop :=
  ∀ (id : InstId) (s : State) (rest : List HostAct), s.nonconv = none →
    decode ⟨.host, id, 0#32, 0, 0⟩ = .ok (.hostReset id) ∧
    decode ⟨.host, id, 1#32, 0, 0⟩ = .ok (.hostEvaluate id) ∧
    decode ⟨.host, id, 2#32, 0, 0⟩ = .ok (.hostCommit id) ∧
    step (s.withScript (.line ⟨.host, id, 3#32, 0, 0⟩ :: rest)) = .refused (.undecodable .hostCall3)

/-- An unrecognised frame is legal (R121): the step puts its bits on the wire, most significant first, chip-select
asserted (R90, R114, R123). That the frame becomes the next lines of the script is the model's choice (log 15). The
spec's own choice: D26. -/
def Obligations.UnrecognisedFrameGoesOnTheWire : Prop :=
  ∀ (s : State) (k : Nat) (v : BitVec 32) (rest : List HostAct), s.nonconv = none →
    (v.toNat < 256 → v ≠ 0xAB#32 →
      step (s.withScript (.line ⟨.cmd8, .bs k, v, 0, 0⟩ :: rest)) =
        .next (s.withScript ((List.range 8).map (fun j =>
          HostAct.line ⟨.bsWire, .bs k, if v.getLsbD (7 - j) then 3#32 else 2#32, 0, 0⟩) ++ rest))) ∧
    (v.extractLsb' 24 8 ≠ 0x03#8 →
      step (s.withScript (.line ⟨.cmd32, .bs k, v, 0, 0⟩ :: rest)) =
        .next (s.withScript ((List.range 32).map (fun j =>
          HostAct.line ⟨.bsWire, .bs k, if v.getLsbD (31 - j) then 3#32 else 2#32, 0, 0⟩) ++ rest)))

/-! ### The step -/

/-- When the script's next action is a line that decodes, the step runs its operation, the script moved past it (log 2). -/
def Obligations.StepRunsTheDecodedLine : Prop :=
  ∀ (s : State) (l : Line) (i : Instr) (rest : List HostAct), s.nonconv = none → s.script = .line l :: rest →
    decode l = .ok i → step s = exec i (s.withScript rest)

/-- With no action of the host nothing changes (00_scope.md R4; log 2), and once the harness has raised NonConvergence
the run is over: every step and every operation is the fault (60_exceptions.md R262, R267; log 9). The spec's own
choice: D22. -/
def Obligations.IdleHostChangesNothingAndEndedRunFaults : Prop :=
  ∀ s : State,
    (s.nonconv = none → s.script = [] → step s = .next s) ∧
    ∀ id, s.nonconv = some id →
      step s = .fault (.nonConvergence id) ∧ ∀ i : Instr, exec i s = .fault (.nonConvergence id)

/-! ### A line is one tick -/

/-- From rest, a stimulus line of an instance is its inputs and exactly one tick of every instance of its clock domain,
each from the values committed before the edge (30_encoding.md R122, 40_clock_discipline.md R142, R151, R152,
20_memory.md R96). For I2C.TICK, I2C.START, I2C.IN_WRITE, I2C.OUT_READ, I2C.OUT_PUBLISH, LR.TICK, LR.START and BS.TICK.
That a line runs the whole clock domain (log 1) and that its inputs stay driven after the cycle (log 19) are read from the
spec by inference; that a port carries the low bits of an operand wider than itself is the model's choice (log 14). The
spec's own choices: D1, D29. -/
def Obligations.LineIsOneTickOfItsClockDomain : Prop :=
  ∀ (s : State) (k : Nat),
    (∀ (x : I2CInst) (i : I2CIn), s.i2cs[k]? = some x → s.ready x.cd.domain = true →
      exec (i.op k) s = .next ((s.setI2cIn k i).ticked x.cd.domain)) ∧
    (∀ (x : LRInst) (i : LRIn), s.lrs[k]? = some x → s.ready x.cd.domain = true →
      exec (i.op k) s = .next ((s.setLrIn k i).ticked x.cd.domain)) ∧
    ∀ (x : BSInst) (i : BSIn), s.bss[k]? = some x → s.ready x.cd.domain = true →
      exec (i.op k) s = .next ((s.setBsIn k i).ticked x.cd.domain)

/-- Whatever the state, a line or a frame that answers leaves the image, the wires, the script and every instance of the
other clock domains as they were (10_state.md R30, 20_memory.md R84, 60_exceptions.md R272). The spec's own choice: D27. -/
def Obligations.OperationLeavesOtherDomainsAlone : Prop :=
  ∀ (s t : State) (k : Nat),
    (∀ (x : I2CInst) (i : I2CIn), s.i2cs[k]? = some x → exec (i.op k) s = .next t →
      s.sameOutside t x.cd.domain) ∧
    (∀ (x : LRInst) (i : LRIn), s.lrs[k]? = some x → exec (i.op k) s = .next t → s.sameOutside t x.cd.domain) ∧
    ∀ (x : BSInst) (i : BSIn) (addr : FrameAddr), s.bss[k]? = some x →
      exec (i.op k) s = .next t ∨ exec (.bsReleasePowerDown k) s = .next t ∨ exec (.bsRead k addr) s = .next t →
      s.sameOutside t x.cd.domain

/-! ### I2C target controller -/

/-- I2C.START in IDLE (41_i2c_target.md R166): busy, BUSY and the countdown at I2C_TIMEOUT, whatever else the vector
requests; with no other request nothing but the retimed ack changes besides (R163), and an item waiting in the inbound
slot is not consumed. The spec's own choice: D7 (SINGLE). -/
def Obligations.StartInIdleEntersBusy : Prop :=
  ∀ (s : State) (k : Nat) (x : I2CInst) (we ore pub ack : Bool) (a b : Nat),
    s.restI2c k x → x.reg.st = .idle →
    ∃ t y, exec (.i2cStart k we ore pub ack a b) s = .next t ∧ t.i2cs[k]? = some y ∧
      y.reg.st = .busy ∧ y.reg.busy = true ∧ y.reg.cnt = x.params.timeout ∧ y.trace = x.trace ∧
      (we = false → ore = false → pub = false →
        y.reg = { x.reg with st := .busy, busy := true, cnt := x.params.timeout, ackOut := ack }) ∧
      (x.params.variant = .dual → x.reg.inFull = true → y.reg.inFull = true ∧ y.reg.inQ = x.reg.inQ) ∧
      s.i2cFrame t x y

/-- A start while BUSY has no effect, and one held across the expiring edge starts a transaction at the next (R170). The
spec's own choices: D7 (SINGLE), D23. -/
def Obligations.StartInBusyHasNoEffect : Prop :=
  ∀ (s : State) (k : Nat) (x : I2CInst) (i : I2CIn), s.restI2c k x → x.reg.st = .busy →
    ∃ t u y z, exec ({ i with start := true }.op k) s = .next t ∧ exec ({ i with start := false }.op k) s = .next u ∧
      t.i2cs[k]? = some y ∧ u.i2cs[k]? = some z ∧ y.reg = z.reg ∧ y.trace = z.trace ∧
      (y.reg.st = .idle →
        ∃ v w, exec ({ i with start := true }.op k) t = .next v ∧ v.i2cs[k]? = some w ∧
          w.reg.st = .busy ∧ w.reg.busy = true ∧ w.reg.cnt = x.params.timeout)

/-- I2C.IN_WRITE into an EMPTY inbound slot, DUAL (R169): the slot is FULL with the item and its write-ready falls, in
both states and with every other request. The spec's own choice: D5. -/
def Obligations.InWriteFillsTheEmptySlot : Prop :=
  ∀ (s : State) (k : Nat) (x : I2CInst) (ore pub ack : Bool) (a b : Nat),
    s.restI2c k x → x.params.variant = .dual → x.reg.inFull = false → a < 2 ^ x.params.inW →
    ∃ t y, exec (.i2cInWrite k ore pub ack a b) s = .next t ∧ t.i2cs[k]? = some y ∧
      y.reg.inFull = true ∧ y.reg.inQ = a ∧ y.reg.inReady = false ∧ y.trace = x.trace ∧
      (x.reg.st = .idle → ore = false → pub = false →
        y.reg = { x.reg with inFull := true, inQ := a, inReady := false, ackOut := ack }) ∧
      s.i2cFrame t x y

/-- I2C.IN_WRITE while the inbound slot is FULL is not accepted and leaves no trace, DUAL: the edge does what it does
without the request, and the slot keeps the older item's data (R162, R171). The spec's own choice: D5. -/
def Obligations.InWriteIntoFullSlotIsDropped : Prop :=
  ∀ (s : State) (k : Nat) (x : I2CInst) (ore pub ack : Bool) (a b : Nat),
    s.restI2c k x → x.params.variant = .dual → x.reg.inFull = true →
    ∃ t u y z, exec (.i2cInWrite k ore pub ack a b) s = .next t ∧
      exec ((I2CIn.mk false false ore pub ack a b).op k) s = .next u ∧ t.i2cs[k]? = some y ∧
      u.i2cs[k]? = some z ∧ y.reg = z.reg ∧ y.trace = z.trace ∧ y.reg.inQ = x.reg.inQ ∧ s.i2cFrame t x y

/-- I2C.OUT_READ of a FULL outbound slot, DUAL (R164): the slot is EMPTY, read-ready falls, the data stays; a publish at
the same edge overrides it (R165). The spec's own choice: D6. -/
def Obligations.OutReadEmptiesTheFullSlot : Prop :=
  ∀ (s : State) (k : Nat) (x : I2CInst) (pub ack : Bool) (a b : Nat),
    s.restI2c k x → x.params.variant = .dual → x.reg.outFull = true → b < 2 ^ x.params.outW →
    ∃ t y, exec (.i2cOutRead k pub ack a b) s = .next t ∧ t.i2cs[k]? = some y ∧
      y.reg.outFull = pub ∧ y.reg.outReady = pub ∧ y.reg.outData = (if pub then b else x.reg.outData) ∧
      (x.reg.st = .idle → pub = false →
        y.reg = { x.reg with outFull := false, outReady := false, ackOut := ack } ∧ y.trace = x.trace) ∧
      s.i2cFrame t x y

/-- A read requested while the outbound slot is EMPTY is not accepted and has no effect, DUAL (R172). The spec's own
choice: D6. -/
def Obligations.OutReadOfEmptySlotHasNoEffect : Prop :=
  ∀ (s : State) (k : Nat) (x : I2CInst) (i : I2CIn), s.restI2c k x → x.params.variant = .dual →
    x.reg.outFull = false →
    ∃ t u y z, exec ({ i with outRe := true }.op k) s = .next t ∧ exec ({ i with outRe := false }.op k) s = .next u ∧
      t.i2cs[k]? = some y ∧ u.i2cs[k]? = some z ∧ y.reg = z.reg ∧ y.trace = z.trace

/-- I2C.OUT_PUBLISH, DUAL (R165): with no guard on the slot, it is FULL with the item and read-ready is asserted. The
spec's own choice: D6. -/
def Obligations.PublishLoadsTheOutboundSlot : Prop :=
  ∀ (s : State) (k : Nat) (x : I2CInst) (ack : Bool) (a b : Nat),
    s.restI2c k x → x.params.variant = .dual → b < 2 ^ x.params.outW →
    ∃ t y, exec (.i2cOutPublish k ack a b) s = .next t ∧ t.i2cs[k]? = some y ∧
      y.reg.outFull = true ∧ y.reg.outReady = true ∧ y.reg.outData = b ∧
      (x.reg.st = .idle →
        y.reg = { x.reg with outFull := true, outReady := true, outData := b, ackOut := ack } ∧
          y.trace = x.trace) ∧
      s.i2cFrame t x y

/-- I2C.TICK in BUSY with a waiting inbound item, both variants (R167, R168, R174): the item is consumed, traced, and
the countdown leaves the edge at I2C_TIMEOUT - 1; with I2C_TIMEOUT = 1 even this edge expires. The spec's own choices:
D4, D7 (SINGLE), D24. -/
def Obligations.BusyTickConsumesTheWaitingItem : Prop :=
  ∀ (s : State) (k : Nat) (x : I2CInst) (ack : Bool) (a b : Nat),
    s.restI2c k x → x.reg.st = .busy → x.reg.inboundFull x.params.variant = true →
    ∃ t y, exec (.i2cTick k ack a b) s = .next t ∧ t.i2cs[k]? = some y ∧
      y.reg.cnt = x.params.timeout - 1 ∧ y.reg.inboundFull x.params.variant = false ∧
      y.trace = x.trace ++ [.consumed (x.reg.inboundItem x.params.variant)] ∧
      (2 ≤ x.params.timeout → x.params.variant = .dual →
        y.reg = { x.reg with inFull := false, inReady := true, cnt := x.params.timeout - 1, ackOut := ack }) ∧
      (2 ≤ x.params.timeout → x.params.variant = .single →
        y.reg = { x.reg with full := false, cnt := x.params.timeout - 1, ackOut := ack }) ∧
      (x.params.timeout = 1 → y.reg.st = .idle ∧ y.reg.busy = false) ∧
      s.i2cFrame t x y

/-- I2C.TICK in BUSY with an EMPTY inbound slot, both variants (R168): the countdown goes down by one and the
transaction ends when it reaches 0. A countdown of at least 1 is the invariant R47. The spec's own choices: D4, D7
(SINGLE), D21. -/
def Obligations.BusyTickCountsDownAndExpires : Prop :=
  ∀ (s : State) (k : Nat) (x : I2CInst) (ack : Bool) (a b : Nat),
    s.restI2c k x → x.reg.st = .busy → x.reg.inboundFull x.params.variant = false → 1 ≤ x.reg.cnt →
    ∃ t y, exec (.i2cTick k ack a b) s = .next t ∧ t.i2cs[k]? = some y ∧ y.trace = x.trace ∧
      y.reg = (if x.reg.cnt = 1 then { x.reg with cnt := 0, busy := false, st := .idle, ackOut := ack }
        else { x.reg with cnt := x.reg.cnt - 1, ackOut := ack }) ∧
      s.i2cFrame t x y

/-- The ack output is the ack input of the edge, in both states and whatever is requested (R163); in IDLE an I2C.TICK
changes nothing else (R161, R175). The spec's own choices: D4, D5, D7 (SINGLE). -/
def Obligations.AckIsRetimedByOneEdge : Prop :=
  ∀ (s : State) (k : Nat) (x : I2CInst) (i : I2CIn), s.restI2c k x →
    ∃ t y, exec (i.op k) s = .next t ∧ t.i2cs[k]? = some y ∧ y.reg.ackOut = i.ackIn ∧
      (x.reg.st = .idle → i.op k = .i2cTick k i.ackIn i.inDin i.outDin →
        y.reg = { x.reg with ackOut := i.ackIn } ∧ y.trace = x.trace) ∧
      s.i2cFrame t x y

/-- The outbound slot is independent of the transaction, DUAL (R173): outbound requests change neither countdown, busy
nor state, and what they do to the slot is the same in IDLE and BUSY. The spec's own choice: D6. -/
def Obligations.OutboundSlotIsIndependentOfTheTransaction : Prop :=
  ∀ (s : State) (k : Nat) (x : I2CInst) (i : I2CIn), s.restI2c k x → x.params.variant = .dual →
    ∃ t u y z, exec (i.op k) s = .next t ∧ exec ({ i with outRe := false, outPub := false }.op k) s = .next u ∧
      t.i2cs[k]? = some y ∧ u.i2cs[k]? = some z ∧
      y.reg.cnt = z.reg.cnt ∧ y.reg.busy = z.reg.busy ∧ y.reg.st = z.reg.st ∧
      ∀ (s' : State) (x' : I2CInst), s'.restI2c k x' → x'.params = x.params →
        x'.reg.outFull = x.reg.outFull → x'.reg.outData = x.reg.outData → x'.reg.outReady = x.reg.outReady →
        ∃ t' y', exec (i.op k) s' = .next t' ∧ t'.i2cs[k]? = some y' ∧
          y'.reg.outFull = y.reg.outFull ∧ y'.reg.outData = y.reg.outData ∧ y'.reg.outReady = y.reg.outReady

/-- Every register of a DUAL instance after an edge with any requests, as a function of the registers before it (R161).
The countdown of a BUSY instance is at least 1 (R47). The spec's own choices: D4, D5. -/
def Obligations.DualEdgeGivesEveryRegister : Prop :=
  ∀ (s : State) (k : Nat) (x : I2CInst) (i : I2CIn), s.restI2c k x → x.params.variant = .dual →
    (x.reg.st = .busy → 1 ≤ x.reg.cnt) → i.inDin < 2 ^ x.params.inW → i.outDin < 2 ^ x.params.outW →
    let busy : Bool := x.reg.st == .busy
    let left : Nat := if x.reg.inFull then x.params.timeout - 1 else x.reg.cnt - 1
    ∃ t y, exec (i.op k) s = .next t ∧ t.i2cs[k]? = some y ∧
      y.reg =
        { st := if busy then (if left = 0 then .idle else .busy) else if i.start then .busy else .idle
          cnt := if busy then left else if i.start then x.params.timeout else x.reg.cnt
          busy := if busy then (if left = 0 then false else x.reg.busy) else if i.start then true else x.reg.busy
          ackOut := i.ackIn
          inFull := if x.reg.inFull then !busy else i.inWe
          inQ := if !x.reg.inFull && i.inWe then i.inDin else x.reg.inQ
          inReady :=
            if x.reg.inFull then (if busy then true else x.reg.inReady)
            else if i.inWe then false else x.reg.inReady
          outFull := i.outPub || (x.reg.outFull && !i.outRe)
          outData := if i.outPub then i.outDin else x.reg.outData
          outReady := if i.outPub then true else if x.reg.outFull && i.outRe then false else x.reg.outReady
          full := x.reg.full
          q := x.reg.q } ∧
      y.trace = (if busy && x.reg.inFull then x.trace ++ [.consumed x.reg.inQ] else x.trace) ∧
      s.i2cFrame t x y

/-- Every register of a SINGLE instance after an edge with any requests, as a function of the registers before it, and
what its slot's ports then show (R175). The countdown of a BUSY instance is at least 1 (R47). The spec's own choice: D7. -/
def Obligations.SingleEdgeGivesEveryRegister : Prop :=
  ∀ (s : State) (k : Nat) (x : I2CInst) (i : I2CIn), s.restI2c k x → x.params.variant = .single →
    (x.reg.st = .busy → 1 ≤ x.reg.cnt) → i.inDin < 2 ^ x.params.inW → i.outDin < 2 ^ x.params.outW →
    let busy : Bool := x.reg.st == .busy
    let left : Nat := if x.reg.full then x.params.timeout - 1 else x.reg.cnt - 1
    ∃ t y, exec (i.op k) s = .next t ∧ t.i2cs[k]? = some y ∧
      y.reg =
        { x.reg with
          st := if busy then (if left = 0 then .idle else .busy) else if i.start then .busy else .idle
          cnt := if busy then left else if i.start then x.params.timeout else x.reg.cnt
          busy := if busy then (if left = 0 then false else x.reg.busy) else if i.start then true else x.reg.busy
          ackOut := i.ackIn
          full := if !x.reg.full && i.inWe then true else if busy && x.reg.full then false
            else i.outPub || (x.reg.full && !i.outRe)
          q := if !x.reg.full && i.inWe then i.inDin else if i.outPub then i.outDin else x.reg.q } ∧
      y.trace = (if busy && x.reg.full then x.trace ++ [.consumed x.reg.q] else x.trace) ∧
      t.output (.i2c k) .inReady = some (if y.reg.full then 0 else 1) ∧
      t.output (.i2c k) .outReady = some (if y.reg.full then 1 else 0) ∧
      t.output (.i2c k) .outData = some y.reg.q ∧ s.i2cFrame t x y

/-- The five rows of R176: two steps on the one slot of a SINGLE instance at one edge. The spec's own choice: D7. -/
def Obligations.SingleSlotContentionOutcomes : Prop :=
  ∀ (s : State) (k : Nat) (x : I2CInst) (i : I2CIn), s.restI2c k x → x.params.variant = .single →
    i.inDin < 2 ^ x.params.inW → i.outDin < 2 ^ x.params.outW →
    ∃ t y, exec (i.op k) s = .next t ∧ t.i2cs[k]? = some y ∧
      (x.reg.full = true → x.reg.st = .busy → i.outRe = true → i.outPub = false →
        y.reg.full = false ∧ y.trace = x.trace ++ [.consumed x.reg.q]) ∧
      (x.reg.full = true → x.reg.st = .busy → i.outPub = true →
        y.reg.full = false ∧ y.reg.q = i.outDin ∧ y.trace = x.trace ++ [.consumed x.reg.q]) ∧
      (x.reg.full = true → x.reg.st = .idle → i.outPub = true → i.outRe = false →
        y.reg.full = true ∧ y.reg.q = i.outDin) ∧
      (x.reg.full = false → i.outPub = true → i.inWe = true → y.reg.full = true ∧ y.reg.q = i.inDin) ∧
      (x.reg.full = true → x.reg.st = .idle → i.outRe = true → i.outPub = true →
        y.reg.full = true ∧ y.reg.q = i.outDin)

/-- The timeout bound (R177): after a start, if the inbound slot is EMPTY before each of the edges that follow, busy is
1 after fewer than I2C_TIMEOUT of them and 0 after exactly I2C_TIMEOUT. The spec's own choices: D4, D7 (SINGLE). -/
def Obligations.BusyLastsExactlyTheTimeout : Prop :=
  ∀ (s : State) (k : Nat) (x : I2CInst) (i : I2CIn) (is : List I2CIn), s.restI2c k x → x.reg.st = .idle →
    i.start = true → is.length ≤ x.params.timeout →
    (∀ m, m < is.length → ∀ u y, execAll ((i :: is.take m).map (I2CIn.op k)) s = .next u → u.i2cs[k]? = some y →
      y.reg.inboundFull x.params.variant = false) →
    ∃ t y, execAll ((i :: is).map (I2CIn.op k)) s = .next t ∧ t.i2cs[k]? = some y ∧
      y.reg.busy = decide (is.length < x.params.timeout)

/-! ### SPI-NOR linear reader -/

/-- LR.START in IDLE at an address in the window (42_spinor_linear_reader.md R206). -/
def Obligations.ReaderStartInWindowOpensASession : Prop :=
  ∀ (s : State) (k : Nat) (x : LRInst) (a n : Nat), s.restLr k x → x.reg.st = .idle →
    a < 2 ^ x.params.aw → n < 2 ^ x.params.lw → s.mem.base ≤ a → a < s.mem.base + s.mem.len →
    ∃ t y, exec (.lrStart k a n) s = .next t ∧ t.lrs[k]? = some y ∧
      y.reg = { x.reg with addr := a, rem := n, busy := true, st := .reading, cnt := x.params.pacing } ∧
      s.lrFrame t x y

/-- LR.START in IDLE at an address out of the window (R206, R207): the reader stays IDLE and only latches the operands.
The spec's own choice: D30. -/
def Obligations.ReaderStartOutOfWindowStaysIdle : Prop :=
  ∀ (s : State) (k : Nat) (x : LRInst) (a n : Nat), s.restLr k x → x.reg.st = .idle →
    a < 2 ^ x.params.aw → n < 2 ^ x.params.lw → a < s.mem.base ∨ s.mem.base + s.mem.len ≤ a →
    ∃ t y, exec (.lrStart k a n) s = .next t ∧ t.lrs[k]? = some y ∧
      y.reg = { x.reg with addr := a, rem := n } ∧ s.lrFrame t x y

/-- A start while READING has no effect, whatever its operands; one held across the edge that ends the session starts a
new session at the next edge (R208). The spec's own choice: D23. -/
def Obligations.ReaderStartWhileReadingHasNoEffect : Prop :=
  ∀ (s : State) (k : Nat) (x : LRInst) (a n a' n' : Nat), s.restLr k x → x.reg.st = .reading →
    a < 2 ^ x.params.aw → n < 2 ^ x.params.lw →
    ∃ t u y z, exec (.lrStart k a n) s = .next t ∧ exec (.lrTick k a' n') s = .next u ∧
      t.lrs[k]? = some y ∧ u.lrs[k]? = some z ∧ y.reg = z.reg ∧ s.lrFrame t x y ∧
      (y.reg.st = .idle → s.mem.inWindow a = true →
        ∃ v w, exec (.lrStart k a n) t = .next v ∧ v.lrs[k]? = some w ∧
          w.reg = { y.reg with addr := a, rem := n, busy := true, st := .reading, cnt := x.params.pacing })

/-- LR.TICK (R202 to R205, R210): in IDLE nothing; in READING the countdown, and at 0 the end of the session or the
emission of the byte at the committed address, the fill byte where the window has none (20_memory.md R83). The spec's
own choices: D4, D11. -/
def Obligations.ReaderTickCountsEmitsAndEnds : Prop :=
  ∀ (s : State) (k : Nat) (x : LRInst) (a n : Nat), s.restLr k x →
    ∃ t y, exec (.lrTick k a n) s = .next t ∧ t.lrs[k]? = some y ∧ s.lrFrame t x y ∧
      (x.reg.st = .idle → y.reg = x.reg) ∧
      (x.reg.st = .reading → x.reg.cnt ≠ 0 → y.reg = { x.reg with valid := false, cnt := x.reg.cnt - 1 }) ∧
      (x.reg.st = .reading → x.reg.cnt = 0 → x.reg.rem = 0 →
        y.reg = { x.reg with valid := false, busy := false, st := .idle }) ∧
      (x.reg.st = .reading → x.reg.cnt = 0 → x.reg.rem ≠ 0 →
        y.reg =
          { x.reg with
            data := (match s.mem.read x.reg.addr with
              | some byte => byte
              | none => x.params.fill)
            valid := true
            addr := (x.reg.addr + 1) % 2 ^ x.params.aw
            rem := x.reg.rem - 1
            cnt := x.params.pacing })

/-- Session timing (R212): after a start in the window with length `n` and any `m ≤ (n + 1) * p` further edges, `p` the
pacing plus one, busy is 1 exactly while `m < (n + 1) * p`, valid is 1 exactly where `m` is `(j + 1) * p` for a `j < n`,
and there data is the byte of the `j`-th address. No valid pulse stands in IDLE (10_state.md R52). The spec's own
choices: D4, D11. -/
def Obligations.ReaderSessionTiming : Prop :=
  ∀ (s : State) (k : Nat) (x : LRInst) (i : LRIn) (is : List LRIn), s.restLr k x → x.reg.st = .idle →
    x.reg.valid = false → i.start = true → i.addr < 2 ^ x.params.aw → i.len < 2 ^ x.params.lw →
    s.mem.inWindow i.addr = true → is.length ≤ (i.len + 1) * (x.params.pacing + 1) →
    ∃ t y, execAll ((i :: is).map (LRIn.op k)) s = .next t ∧ t.lrs[k]? = some y ∧
      y.reg.busy = decide (is.length < (i.len + 1) * (x.params.pacing + 1)) ∧
      (y.reg.valid = true ↔ ∃ j, j < i.len ∧ is.length = (j + 1) * (x.params.pacing + 1)) ∧
      ∀ j, j < i.len → is.length = (j + 1) * (x.params.pacing + 1) →
        y.reg.data = (s.mem.read ((i.addr + j) % 2 ^ x.params.aw)).getD x.params.fill

/-! ### SPI-NOR bit-serial recognizer -/

/-- BS.TICK: the state follows the transition table (43_spinor_bitserial.md R222), the edge counter and the shift
register follow R223, R230 and R231. For a shift register of another width than 32 the opcode field is its top byte, the
model's reading (log 17). The spec's own choices: D14, D15, D18. -/
def Obligations.RecognizerFollowsTheTransitionTable : Prop :=
  ∀ (s : State) (k : Nat) (x : BSInst) (cs si : Bool), s.restBs k x →
    let srn : Nat := (2 * x.reg.sr + si.toNat) % 2 ^ x.params.srW
    ∃ t y, exec (.bsTick k cs si) s = .next t ∧ t.bss[k]? = some y ∧
      y.reg.st =
        (match x.reg.st with
          | .idle => if cs then .spd else .idle
          | .spd => if x.reg.ec = x.params.puEdge ∧ srn % 2 ^ 8 = x.params.opcRpd.toNat then .spupd else .spd
          | .spupd => if cs then .spupd else .dpu
          | .dpu => if cs then .spu else .dpu
          | .spu =>
            if x.reg.ec = x.params.rdEdge ∧ srn / 2 ^ (x.params.srW - 8) % 2 ^ 8 = x.params.opcRead.toNat then
              (if cs then .reading else .idle)
            else .spu
          | .reading => if cs then .reading else .idle) ∧
      y.reg.ec = (if cs then x.reg.ec + 1 else 0) ∧ y.reg.sr = (if cs then srn else x.reg.sr) ∧
      s.bsFrame t x y

/-- BS.TICK in READING (R228, R233, R237, R239): a data bit and an advance where the window has the byte, the fill bit
and no advance where it has none; the deselect edge still does this. A bit index up to 7 is the invariant R240. The
spec's own choices: D16, D17, D20. The fill bit is the parameter (log 25). -/
def Obligations.ReadingEdgeShiftsOutOneBit : Prop :=
  ∀ (s : State) (k : Nat) (x : BSInst) (cs si : Bool), s.restBs k x → x.reg.st = .reading → x.reg.bidx ≤ 7 →
    ∃ t y, exec (.bsTick k cs si) s = .next t ∧ t.bss[k]? = some y ∧
      y.reg.st = (if cs then .reading else .idle) ∧
      (∀ byte, s.mem.read x.reg.raddr = some byte →
        y.reg.so = byte.getLsbD (7 - x.reg.bidx) ∧
          y.reg.bidx = (if x.reg.bidx = 7 then 0 else x.reg.bidx + 1) ∧
          y.reg.raddr = (if x.reg.bidx = 7 then (x.reg.raddr + 1) % 2 ^ x.params.addrW else x.reg.raddr)) ∧
      (s.mem.read x.reg.raddr = none →
        y.reg.so = x.params.fillBit ∧ y.reg.bidx = x.reg.bidx ∧ y.reg.raddr = x.reg.raddr) ∧
      s.bsFrame t x y

/-- BS.TICK out of READING: serial-out is 0 and the read address and bit index stay (R221), but at the edge that
completes a read frame, where the first data bit comes out (R226, R235, R237, R238). The spec's own choices: D18, D19.
The fill bit is the parameter (log 25), and so are the widths (log 17). -/
def Obligations.OnlyTheCaptureEdgeReadsOutOfReading : Prop :=
  ∀ (s : State) (k : Nat) (x : BSInst) (cs si : Bool), s.restBs k x → x.reg.st ≠ .reading →
    let srn : Nat := (2 * x.reg.sr + si.toNat) % 2 ^ x.params.srW
    let captures : Prop :=
      x.reg.st = .spu ∧ x.reg.ec = x.params.rdEdge ∧
        srn / 2 ^ (x.params.srW - 8) % 2 ^ 8 = x.params.opcRead.toNat
    let a : Nat := srn % 2 ^ x.params.addrW
    ∃ t y, exec (.bsTick k cs si) s = .next t ∧ t.bss[k]? = some y ∧ s.bsFrame t x y ∧
      (¬captures → y.reg.so = false ∧ y.reg.bidx = x.reg.bidx ∧ y.reg.raddr = x.reg.raddr) ∧
      (captures → ∀ byte, s.mem.read a = some byte →
        y.reg.so = byte.getLsbD 7 ∧ y.reg.bidx = 1 ∧ y.reg.raddr = a) ∧
      (captures → s.mem.read a = none →
        y.reg.so = x.params.fillBit ∧ y.reg.bidx = 0 ∧ y.reg.raddr = a)

/-- BS.RELEASE_POWER_DOWN and BS.READ are their wire edges, most significant bit first, chip-select asserted
(30_encoding.md R115, R116, R123), and from rest they complete in every state of the recognizer (R121, R260). That a
frame operation is all its edges is the model's reading (log 15). The spec's own choice: D26. -/
def Obligations.FramesAreTheirWireEdges : Prop :=
  ∀ (s : State) (k : Nat) (addr : FrameAddr),
    exec (.bsReleasePowerDown k) s =
      execAll ((selected [true, false, true, false, true, false, true, true]).map (BSIn.op k)) s ∧
    exec (.bsRead k addr) s =
      execAll ((selected ([false, false, false, false, false, false, true, true] ++
        (List.range 24).map fun j => addr.getLsbD (23 - j))).map (BSIn.op k)) s ∧
    ∀ x, s.restBs k x →
      (∃ t y, exec (.bsReleasePowerDown k) s = .next t ∧ t.bss[k]? = some y ∧ y.reg.ec = x.reg.ec + 8 ∧
        s.bsFrame t x y) ∧
      ∃ t y, exec (.bsRead k addr) s = .next t ∧ t.bss[k]? = some y ∧ y.reg.ec = x.reg.ec + 32 ∧ s.bsFrame t x y

/-- BS.RELEASE_POWER_DOWN as the first 8 edges of a selection, powered down (R224, R225): the recognizer waits for the
deselect, and the read registers stay. The spec's own choice: D15. -/
def Obligations.PowerDownIsReleasedByItsFrame : Prop :=
  ∀ (s : State) (k : Nat) (x : BSInst), s.restBs k x → x.params.standard → x.reg.ec = 0 →
    x.reg.st = .idle ∨ x.reg.st = .spd →
    ∃ t y, exec (.bsReleasePowerDown k) s = .next t ∧ t.bss[k]? = some y ∧
      y.reg.st = .spupd ∧ y.reg.ec = 8 ∧ y.reg.sr % 2 ^ 8 = 0xAB ∧ y.reg.so = false ∧
      y.reg.raddr = x.reg.raddr ∧ y.reg.bidx = x.reg.bidx ∧ s.bsFrame t x y

/-- The power-up needs two stages (R241): recognising the release frame enters SPUPD, SPUPD decodes nothing while selected,
and only a deselect followed by a reselect leads from it to a state that decodes or answers a read frame. The spec's own
choices, for the next state of SPD at every edge: D15, D18. -/
def Obligations.PowerUpNeedsDeselectAndReselect : Prop :=
  (∀ (m : Memory) (q : BSParams) (c : BSReg) (i : BSIn), c.st = .spd →
    (c.commit (bsTick m q c i)).st = (if c.ec = q.puEdge ∧
      (2 * c.sr + i.si.toNat) % 2 ^ q.srW % 2 ^ 8 = q.opcRpd.toNat then .spupd else .spd)) ∧
  ∀ (m : Memory) (q : BSParams) (c : BSReg) (is : List BSIn), c.st = .spupd →
    let y := BSReg.after m q c is
    ((∀ i ∈ is, i.cs = true) →
      y.st = .spupd ∧ y.raddr = c.raddr ∧ y.bidx = c.bidx ∧ (is ≠ [] → y.so = false)) ∧
    (y.st = .spu ∨ y.st = .reading →
      ∃ p i r j u, is = p ++ i :: (r ++ j :: u) ∧ i.cs = false ∧ j.cs = true)

/-- BS.READ as the first 32 edges of a selection, powered up (R226, R229, R237): READING at the address, with the
first data bit out at the last edge. The spec's own choices: D15, D19. The fill bit is the parameter (log 25). -/
def Obligations.ReadFrameCapturesTheAddress : Prop :=
  ∀ (s : State) (k : Nat) (x : BSInst) (addr : FrameAddr), s.restBs k x → x.params.standard → x.reg.ec = 0 →
    x.reg.st = .dpu ∨ x.reg.st = .spu →
    ∃ t y, exec (.bsRead k addr) s = .next t ∧ t.bss[k]? = some y ∧
      y.reg.st = .reading ∧ y.reg.ec = 32 ∧ y.reg.sr = 0x03000000 + addr.toNat ∧ y.reg.raddr = addr.toNat ∧
      (∀ byte, s.mem.read addr.toNat = some byte → y.reg.so = byte.getLsbD 7 ∧ y.reg.bidx = 1) ∧
      (s.mem.read addr.toNat = none → y.reg.so = x.params.fillBit ∧ y.reg.bidx = 0) ∧
      s.bsFrame t x y

/-- The power sequence's timing (R243): the state, the edge counter and serial-out after each edge of the shortest
sequence from reset, and after any number of further selected edges while the bytes read are in the window. The spec's
own choice: D19. -/
def Obligations.PowerSequenceTiming : Prop :=
  ∀ (s : State) (k : Nat) (x : BSInst) (addr : FrameAddr) (si : Bool) (tail : List Bool) (m : Nat),
    s.restBs k x → x.params.standard → x.reg = BSReg.reset → m ≤ 41 + tail.length →
    (∀ j, j ≤ tail.length → s.mem.inWindow ((addr.toNat + j / 8) % 2 ^ 24) = true) →
    let edges : List BSIn :=
      selected [true, false, true, false, true, false, true, true] ++ [⟨false, si⟩] ++
        selected ([false, false, false, false, false, false, true, true] ++
          (List.range 24).map fun j => addr.getLsbD (23 - j)) ++ selected tail
    ∃ t y, execAll ((edges.take m).map (BSIn.op k)) s = .next t ∧ t.bss[k]? = some y ∧
      (1 ≤ m → m ≤ 7 → y.reg.st = .spd ∧ y.reg.ec = m ∧ y.reg.so = false) ∧
      (m = 8 → y.reg.st = .spupd ∧ y.reg.ec = 8 ∧ y.reg.so = false) ∧
      (m = 9 → y.reg.st = .dpu ∧ y.reg.ec = 0 ∧ y.reg.so = false) ∧
      (10 ≤ m → m ≤ 40 → y.reg.st = .spu ∧ y.reg.ec = m - 9 ∧ y.reg.so = false) ∧
      ∀ j, m = 41 + j → y.reg.st = .reading ∧ y.reg.ec = 32 + j ∧
        ∃ byte, s.mem.read ((addr.toNat + j / 8) % 2 ^ 24) = some byte ∧
          y.reg.so = byte.getLsbD (7 - j % 8)

/-- The frame lemma's consequence (R232, 10_state.md R55): what the shift register held before a selection changes no state,
counter, read register or output at any later edge. -/
def Obligations.ShiftResidueNeverReachesACheck : Prop :=
  ∀ (m : Memory) (q : BSParams) (c : BSReg) (w : Nat) (is : List BSIn), q.standard → c.ec = 0 →
    let y := BSReg.after m q c is
    let z := BSReg.after m q { c with sr := w } is
    y.st = z.st ∧ y.ec = z.ec ∧ y.raddr = z.raddr ∧ y.bidx = z.bidx ∧ y.so = z.so

/-- No residual address or bit index (R242, 10_state.md R56, R57): out of READING, what they hold reaches no later state,
counter, shift value or output. -/
def Obligations.ReadResidueNeverReachesTheOutput : Prop :=
  ∀ (m : Memory) (q : BSParams) (c : BSReg) (a b : Nat) (is : List BSIn), c.st ≠ .reading →
    let y := BSReg.after m q c is
    let z := BSReg.after m q { c with raddr := a, bidx := b } is
    y.st = z.st ∧ y.ec = z.ec ∧ y.sr = z.sr ∧ y.so = z.so

/-- The two readings of a deselect give the same outputs (R234): with no edge of a selection counted, SPD cannot be told
from IDLE nor SPU from DPU, over any edges. The spec's own choice: D15. -/
def Obligations.DeselectReadingsCannotBeToldApart : Prop :=
  ∀ (m : Memory) (q : BSParams) (c : BSReg) (is : List BSIn), q.standard → c.ec = 0 →
    (BSReg.after m q { c with st := .spd } is).so = (BSReg.after m q { c with st := .idle } is).so ∧
    (BSReg.after m q { c with st := .spu } is).so = (BSReg.after m q { c with st := .dpu } is).so

/-! ### Host calls and the clock discipline -/

/-- HOST.RESET (70_reset_and_hazards.md R280, 10_state.md R64): at once, whatever is pending and whatever clk is, every
state element of the instance takes its reset value and the pending set is discarded; the trace, the inputs and
everything else of the instance stay. That clk and the other inputs and `changed` stay is the model's choice (log 20). The
spec's own choices: D9, D10, D33, D34. -/
def Obligations.HostResetGivesTheResetValues : Prop :=
  ∀ (s : State) (k : Nat), s.nonconv = none →
    (∀ x, s.i2cs[k]? = some x →
      ∃ t, exec (.hostReset (.i2c k)) s = .next t ∧ s.sameBut t (.i2c k) ∧ t.nonconv = none ∧
        t.i2cs[k]? = some
          { x with
            cd := { x.cd with prevClk := false, pendClk := none, fresh := false, wasReset := true }
            reg :=
              { st := .idle, cnt := 0, busy := false, ackOut := false, inFull := false, inQ := 0, inReady := true,
                outFull := false, outData := 0, outReady := false, full := false, q := 0 }
            pend := {}
            sampled := [] }) ∧
    (∀ x, s.lrs[k]? = some x →
      ∃ t, exec (.hostReset (.lr k)) s = .next t ∧ s.sameBut t (.lr k) ∧ t.nonconv = none ∧
        t.lrs[k]? = some
          { x with
            cd := { x.cd with prevClk := false, pendClk := none, fresh := false, wasReset := true }
            reg := { st := .idle, addr := 0, rem := 0, cnt := 0, busy := false, data := 0#8, valid := false }
            pend := {}
            sampled := [] }) ∧
    ∀ x, s.bss[k]? = some x →
      ∃ t, exec (.hostReset (.bs k)) s = .next t ∧ s.sameBut t (.bs k) ∧ t.nonconv = none ∧
        t.bss[k]? = some
          { x with
            cd := { x.cd with prevClk := false, pendClk := none, fresh := false, wasReset := true }
            reg := { st := .idle, ec := 0, sr := 0, raddr := 0, bidx := 0, so := false }
            pend := {}
            sampled := [] }

/-- HOST.EVALUATE (40_clock_discipline.md R141, R143): a fresh pending set, the tick rule's on a rising edge and empty
on any other, and the clock sample; no committed value changes. With an uncommitted pending set this is the later
evaluation of an unchecked run (60_exceptions.md R275). What the wires drove is kept for the check before the commit (log
10). The spec's own choice: D2. -/
def Obligations.HostEvaluateReturnsTheFreshPendingSet : Prop :=
  ∀ (s : State) (k : Nat), s.nonconv = none →
    (∀ x, s.i2cs[k]? = some x → s.evaluable (.i2c k) = true → x.cd.pendClk = none ∨ s.checking = false →
      ∃ t, exec (.hostEvaluate (.i2c k)) s = .next t ∧ s.sameBut t (.i2c k) ∧ t.nonconv = none ∧
        t.i2cs[k]? = some
          { x with
            cd := { x.cd with pendClk := some x.cd.clk, fresh := true }
            pend := if x.cd.prevClk = false ∧ x.cd.clk = true then i2cTick x.params x.reg (s.i2cInputs k x)
              else {}
            sampled := s.wireValues (.i2c k) }) ∧
    (∀ x, s.lrs[k]? = some x → s.evaluable (.lr k) = true → x.cd.pendClk = none ∨ s.checking = false →
      ∃ t, exec (.hostEvaluate (.lr k)) s = .next t ∧ s.sameBut t (.lr k) ∧ t.nonconv = none ∧
        t.lrs[k]? = some
          { x with
            cd := { x.cd with pendClk := some x.cd.clk, fresh := true }
            pend := if x.cd.prevClk = false ∧ x.cd.clk = true then lrTick s.mem x.params x.reg (s.lrInputs k x)
              else {}
            sampled := s.wireValues (.lr k) }) ∧
    ∀ x, s.bss[k]? = some x → s.evaluable (.bs k) = true → x.cd.pendClk = none ∨ s.checking = false →
      ∃ t, exec (.hostEvaluate (.bs k)) s = .next t ∧ s.sameBut t (.bs k) ∧ t.nonconv = none ∧
        t.bss[k]? = some
          { x with
            cd := { x.cd with pendClk := some x.cd.clk, fresh := true }
            pend := if x.cd.prevClk = false ∧ x.cd.clk = true then bsTick s.mem x.params x.reg (s.bsInputs k x)
              else {}
            sampled := s.wireValues (.bs k) }

/-- Evaluation is idempotent (R144): evaluated again with nothing changed in between, every instance keeps the same
pending set and the run goes on, and a commit in place of the second evaluation finds nothing to report
(60_exceptions.md R263). The spec's own choice: D2. -/
def Obligations.EvaluationIsIdempotent : Prop :=
  ∀ (s t : State) (id : InstId), exec (.hostEvaluate id) s = .next t → t.nonconv = none →
    exec (.hostEvaluate id) t = .next t ∧ ∃ u, exec (.hostCommit id) t = .next u ∧ u.nonconv = none

/-- The harness raises NonConvergence where a further evaluation before the commit gives another pending set
(60_exceptions.md R261, R262, R266): the flag names the instance, its pending sets are discarded, no committed state
changes, and the run is over. That the further evaluation is the next HOST.EVALUATE, or the one that a HOST.COMMIT begins
with, is the model's choice, and so is that a wire's value counts as driven at the first evaluation (log 10). The spec's
own choice: D22. -/
def Obligations.DivergingEvaluationEndsTheRun : Prop :=
  ∀ (s : State) (k : Nat), s.nonconv = none → s.checking = true →
    (∀ x, s.i2cs[k]? = some x → s.evaluable (.i2c k) = true → x.cd.pendClk ≠ none →
      x.cd.pendClk ≠ some x.cd.clk ∨
        x.pend ≠ (if x.cd.prevClk = false ∧ x.cd.clk = true then i2cTick x.params x.reg (s.i2cInputs k x)
          else {}) →
      ∃ t, exec (.hostEvaluate (.i2c k)) s = .next t ∧ t.nonconv = some (.i2c k) ∧ s.sameBut t (.i2c k) ∧
        t.i2cs[k]? = some { x with pend := {}, sampled := [], cd := { x.cd with pendClk := none, fresh := false } } ∧
        step t = .fault (.nonConvergence (.i2c k))) ∧
    (∀ x, s.lrs[k]? = some x → s.evaluable (.lr k) = true → x.cd.pendClk ≠ none →
      x.cd.pendClk ≠ some x.cd.clk ∨
        x.pend ≠ (if x.cd.prevClk = false ∧ x.cd.clk = true then lrTick s.mem x.params x.reg (s.lrInputs k x)
          else {}) →
      ∃ t, exec (.hostEvaluate (.lr k)) s = .next t ∧ t.nonconv = some (.lr k) ∧ s.sameBut t (.lr k) ∧
        t.lrs[k]? = some { x with pend := {}, sampled := [], cd := { x.cd with pendClk := none, fresh := false } } ∧
        step t = .fault (.nonConvergence (.lr k))) ∧
    (∀ x, s.bss[k]? = some x → s.evaluable (.bs k) = true → x.cd.pendClk ≠ none →
      x.cd.pendClk ≠ some x.cd.clk ∨
        x.pend ≠ (if x.cd.prevClk = false ∧ x.cd.clk = true then bsTick s.mem x.params x.reg (s.bsInputs k x)
          else {}) →
      ∃ t, exec (.hostEvaluate (.bs k)) s = .next t ∧ t.nonconv = some (.bs k) ∧ s.sameBut t (.bs k) ∧
        t.bss[k]? = some { x with pend := {}, sampled := [], cd := { x.cd with pendClk := none, fresh := false } } ∧
        step t = .fault (.nonConvergence (.bs k))) ∧
    (∀ x, s.i2cs[k]? = some x → x.cd.pendClk ≠ none →
      x.cd.pendClk ≠ some x.cd.clk ∨
        x.pend ≠ (if x.cd.prevClk = false ∧ x.cd.clk = true then i2cTick x.params x.reg (s.i2cHeld k x)
          else {}) →
      ∃ t, exec (.hostCommit (.i2c k)) s = .next t ∧ t.nonconv = some (.i2c k) ∧ s.sameBut t (.i2c k) ∧
        t.i2cs[k]? = some { x with pend := {}, sampled := [], cd := { x.cd with pendClk := none, fresh := false } } ∧
        step t = .fault (.nonConvergence (.i2c k))) ∧
    (∀ x, s.lrs[k]? = some x → x.cd.pendClk ≠ none →
      x.cd.pendClk ≠ some x.cd.clk ∨
        x.pend ≠ (if x.cd.prevClk = false ∧ x.cd.clk = true then lrTick s.mem x.params x.reg (s.lrHeld k x)
          else {}) →
      ∃ t, exec (.hostCommit (.lr k)) s = .next t ∧ t.nonconv = some (.lr k) ∧ s.sameBut t (.lr k) ∧
        t.lrs[k]? = some { x with pend := {}, sampled := [], cd := { x.cd with pendClk := none, fresh := false } } ∧
        step t = .fault (.nonConvergence (.lr k))) ∧
    ∀ x, s.bss[k]? = some x → x.cd.pendClk ≠ none →
      x.cd.pendClk ≠ some x.cd.clk ∨
        x.pend ≠ (if x.cd.prevClk = false ∧ x.cd.clk = true then bsTick s.mem x.params x.reg (s.bsHeld k x)
          else {}) →
      ∃ t, exec (.hostCommit (.bs k)) s = .next t ∧ t.nonconv = some (.bs k) ∧ s.sameBut t (.bs k) ∧
        t.bss[k]? = some { x with pend := {}, sampled := [], cd := { x.cd with pendClk := none, fresh := false } } ∧
        step t = .fault (.nonConvergence (.bs k))

/-- HOST.COMMIT (40_clock_discipline.md R145): every element with a pending value takes it, all at once, the pending set is
empty, and `changed` says whether a value differs; with nothing pending nothing changes. Where the harness checks, a
pending set that is no longer what the inputs at the ports give ends the run instead (60_exceptions.md R262): that is
DivergingEvaluationEndsTheRun. When the harness checks is the model's choice (log 10). -/
def Obligations.HostCommitAppliesThePendingSet : Prop :=
  ∀ (s : State) (k : Nat), s.nonconv = none →
    (∀ x, s.i2cs[k]? = some x →
      s.checking = false ∨ x.cd.pendClk = none ∨
        (x.cd.pendClk = some x.cd.clk ∧
          x.pend = if x.cd.prevClk = false ∧ x.cd.clk = true then i2cTick x.params x.reg (s.i2cHeld k x) else {}) →
      ∃ t y, exec (.hostCommit (.i2c k)) s = .next t ∧ s.sameBut t (.i2c k) ∧ t.nonconv = none ∧
        t.i2cs[k]? = some y ∧ y.params = x.params ∧ y.inp = x.inp ∧ y.pend = {} ∧ y.sampled = [] ∧
        y.cd.pendClk = none ∧ y.cd.fresh = false ∧
        y.cd.clk = x.cd.clk ∧ y.cd.domain = x.cd.domain ∧ y.cd.wasReset = x.cd.wasReset ∧
        y.cd.prevClk = x.cd.pendClk.getD x.cd.prevClk ∧
        (y.cd.changed = true ↔ y.reg ≠ x.reg ∨ y.cd.prevClk ≠ x.cd.prevClk) ∧
        y.reg.st = x.pend.st.getD x.reg.st ∧ y.reg.cnt = x.pend.cnt.getD x.reg.cnt ∧
        y.reg.busy = x.pend.busy.getD x.reg.busy ∧ y.reg.ackOut = x.pend.ackOut.getD x.reg.ackOut ∧
        y.reg.inFull = x.pend.inFull.getD x.reg.inFull ∧ y.reg.inQ = x.pend.inQ.getD x.reg.inQ ∧
        y.reg.inReady = x.pend.inReady.getD x.reg.inReady ∧ y.reg.outFull = x.pend.outFull.getD x.reg.outFull ∧
        y.reg.outData = x.pend.outData.getD x.reg.outData ∧ y.reg.outReady = x.pend.outReady.getD x.reg.outReady ∧
        y.reg.full = x.pend.full.getD x.reg.full ∧ y.reg.q = x.pend.q.getD x.reg.q) ∧
    (∀ x, s.lrs[k]? = some x →
      s.checking = false ∨ x.cd.pendClk = none ∨
        (x.cd.pendClk = some x.cd.clk ∧
          x.pend = if x.cd.prevClk = false ∧ x.cd.clk = true then lrTick s.mem x.params x.reg (s.lrHeld k x) else {}) →
      ∃ t y, exec (.hostCommit (.lr k)) s = .next t ∧ s.sameBut t (.lr k) ∧ t.nonconv = none ∧
        t.lrs[k]? = some y ∧ y.params = x.params ∧ y.inp = x.inp ∧ y.pend = {} ∧ y.sampled = [] ∧
        y.cd.pendClk = none ∧ y.cd.fresh = false ∧
        y.cd.clk = x.cd.clk ∧ y.cd.domain = x.cd.domain ∧ y.cd.wasReset = x.cd.wasReset ∧
        y.cd.prevClk = x.cd.pendClk.getD x.cd.prevClk ∧
        (y.cd.changed = true ↔ y.reg ≠ x.reg ∨ y.cd.prevClk ≠ x.cd.prevClk) ∧
        y.reg.st = x.pend.st.getD x.reg.st ∧ y.reg.addr = x.pend.addr.getD x.reg.addr ∧
        y.reg.rem = x.pend.rem.getD x.reg.rem ∧ y.reg.cnt = x.pend.cnt.getD x.reg.cnt ∧
        y.reg.busy = x.pend.busy.getD x.reg.busy ∧ y.reg.data = x.pend.data.getD x.reg.data ∧
        y.reg.valid = x.pend.valid.getD x.reg.valid) ∧
    ∀ x, s.bss[k]? = some x →
      s.checking = false ∨ x.cd.pendClk = none ∨
        (x.cd.pendClk = some x.cd.clk ∧
          x.pend = if x.cd.prevClk = false ∧ x.cd.clk = true then bsTick s.mem x.params x.reg (s.bsHeld k x) else {}) →
      ∃ t y, exec (.hostCommit (.bs k)) s = .next t ∧ s.sameBut t (.bs k) ∧ t.nonconv = none ∧
        t.bss[k]? = some y ∧ y.params = x.params ∧ y.inp = x.inp ∧ y.pend = {} ∧ y.sampled = [] ∧
        y.cd.pendClk = none ∧ y.cd.fresh = false ∧
        y.cd.clk = x.cd.clk ∧ y.cd.domain = x.cd.domain ∧ y.cd.wasReset = x.cd.wasReset ∧
        y.cd.prevClk = x.cd.pendClk.getD x.cd.prevClk ∧
        (y.cd.changed = true ↔ y.reg ≠ x.reg ∨ y.cd.prevClk ≠ x.cd.prevClk) ∧
        y.reg.st = x.pend.st.getD x.reg.st ∧ y.reg.ec = x.pend.ec.getD x.reg.ec ∧
        y.reg.sr = x.pend.sr.getD x.reg.sr ∧ y.reg.raddr = x.pend.raddr.getD x.reg.raddr ∧
        y.reg.bidx = x.pend.bidx.getD x.reg.bidx ∧ y.reg.so = x.pend.so.getD x.reg.so

/-- What HOST.COMMIT does to the observation trace (41_i2c_target.md R174): a consumption that the pending set holds is
appended, and with none pending the trace stays, where the harness' check finds nothing (log 10). That the event waits in
the pending set until the commit is the model's reading (log 8). The spec's own choice: D24. -/
def Obligations.CommitAppendsTheConsumedItem : Prop :=
  ∀ (s : State) (k : Nat) (x : I2CInst), s.nonconv = none → s.i2cs[k]? = some x →
    s.checking = false ∨ s.unsettled (.i2c k) = false →
    ∃ t y, exec (.hostCommit (.i2c k)) s = .next t ∧ t.i2cs[k]? = some y ∧
      (∀ v, x.pend.emit = some v → y.trace = x.trace ++ [.consumed v]) ∧
      (x.pend.emit = none → y.trace = x.trace)

/-- An evaluation at which the clock did not rise, committed, changes no state but prev_clk (R147): every register, and with
them every output, holds its committed value. -/
def Obligations.NonEdgeEvaluationChangesOnlyPrevClk : Prop :=
  ∀ (s : State) (k : Nat), s.nonconv = none →
    (∀ x, s.i2cs[k]? = some x → s.evaluable (.i2c k) = true → x.cd.pendClk = none ∨ s.checking = false →
      x.cd.prevClk = true ∨ x.cd.clk = false →
      ∃ t y, execAll [.hostEvaluate (.i2c k), .hostCommit (.i2c k)] s = .next t ∧ s.sameBut t (.i2c k) ∧
        t.i2cs[k]? = some y ∧ y.reg = x.reg ∧ y.trace = x.trace ∧ y.params = x.params ∧ y.inp = x.inp ∧
        y.cd.prevClk = x.cd.clk) ∧
    (∀ x, s.lrs[k]? = some x → s.evaluable (.lr k) = true → x.cd.pendClk = none ∨ s.checking = false →
      x.cd.prevClk = true ∨ x.cd.clk = false →
      ∃ t y, execAll [.hostEvaluate (.lr k), .hostCommit (.lr k)] s = .next t ∧ s.sameBut t (.lr k) ∧
        t.lrs[k]? = some y ∧ y.reg = x.reg ∧ y.params = x.params ∧ y.inp = x.inp ∧ y.cd.prevClk = x.cd.clk) ∧
    ∀ x, s.bss[k]? = some x → s.evaluable (.bs k) = true → x.cd.pendClk = none ∨ s.checking = false →
      x.cd.prevClk = true ∨ x.cd.clk = false →
      ∃ t y, execAll [.hostEvaluate (.bs k), .hostCommit (.bs k)] s = .next t ∧ s.sameBut t (.bs k) ∧
        t.bss[k]? = some y ∧ y.reg = x.reg ∧ y.params = x.params ∧ y.inp = x.inp ∧ y.cd.prevClk = x.cd.clk

/-- Instances may be evaluated in any order (R148): every order answers, and all give the same pending sets. The spec's
own choice: D27. -/
def Obligations.EvaluationOrderIsIrrelevant : Prop :=
  ∀ (s : State) (ids ids' : List InstId), s.nonconv = none → ids.Nodup → ids.Perm ids' →
    (∀ id ∈ ids, s.evaluable id = true ∧ ∀ c, s.cd? id = some c → c.pendClk = none ∨ s.checking = false) →
    ∃ t, execAll (ids.map .hostEvaluate) s = .next t ∧ execAll (ids'.map .hostEvaluate) s = .next t

/-- The reset state is a fixed point of each tick rule when every input is 0, and of the BS rule for any serial-in while
it is not selected: any number of such edges leaves the reset registers (70_reset_and_hazards.md R282). The spec's own
choices: D7 (SINGLE), D9, D10. -/
def Obligations.ResetStateIsAFixedPoint : Prop :=
  ∀ (s : State) (k n : Nat),
    (∀ x, s.restI2c k x → x.reg = I2CReg.reset →
      ∃ t y, execAll (List.replicate n (.i2cTick k false 0 0)) s = .next t ∧ t.i2cs[k]? = some y ∧
        y.reg = I2CReg.reset ∧ y.trace = x.trace) ∧
    (∀ x, s.restLr k x → x.reg = LRReg.reset →
      ∃ t y, execAll (List.replicate n (.lrTick k 0 0)) s = .next t ∧ t.lrs[k]? = some y ∧ y.reg = LRReg.reset) ∧
    ∀ (x : BSInst) (sis : List Bool), s.restBs k x → x.reg = BSReg.reset →
      ∃ t y, execAll (sis.map fun si => .bsTick k false si) s = .next t ∧ t.bss[k]? = some y ∧ y.reg = BSReg.reset

/-- A host's cycle is one rising edge seen by every instance: a reader of each kind runs its tick rule on the value that
the source of a wire committed at the previous edge, cut to the port's width, and on what the host drives where no wire
is (20_memory.md R95, R97, 40_clock_discipline.md R154). Whatever instance of the clock domain the line is for, the reader
itself among them, and whatever the wires; the source may be in any domain. Last, P4 of 95_test_vectors.md: a linear
reader's valid and data wired onto an I2C instance's write request and inbound data. That a wire is direct and an input
has one driver is the model's choice (log 21), and so is the cut (log 14). The spec's own choice: D29. -/
def Obligations.WiredInputReadsThePreviousCommit : Prop :=
  ∀ (s : State) (op : Instr) (id : InstId) (d : Nat), s.lineOf op id d → s.ready d = true →
    (∀ (k : Nat) (x : I2CInst), s.i2cs[k]? = some x → x.cd.domain = d →
      ∃ t y inp, exec op s = .next t ∧ t.i2cs[k]? = some y ∧ y.reg = x.reg.commit (i2cTick x.params x.reg inp) ∧
        (∀ w v, s.soleDriver w → w.dst = .i2c k → s.output w.src w.srcPort = some v →
          hasInPort (.i2c k) w.dstPort = true → inp.port w.dstPort = some (v % 2 ^ x.params.width w.dstPort)) ∧
        (id ≠ .i2c k → ∀ p, s.undriven (.i2c k) p → inp.port p = (x.inp.atWidth x.params).port p)) ∧
    (∀ (k : Nat) (x : LRInst), s.lrs[k]? = some x → x.cd.domain = d →
      ∃ t y inp, exec op s = .next t ∧ t.lrs[k]? = some y ∧ y.reg = x.reg.commit (lrTick s.mem x.params x.reg inp) ∧
        (∀ w v, s.soleDriver w → w.dst = .lr k → s.output w.src w.srcPort = some v →
          hasInPort (.lr k) w.dstPort = true → inp.port w.dstPort = some (v % 2 ^ x.params.width w.dstPort)) ∧
        (id ≠ .lr k → ∀ p, s.undriven (.lr k) p → inp.port p = (x.inp.atWidth x.params).port p)) ∧
    (∀ (k : Nat) (x : BSInst), s.bss[k]? = some x → x.cd.domain = d →
      ∃ t y inp, exec op s = .next t ∧ t.bss[k]? = some y ∧ y.reg = x.reg.commit (bsTick s.mem x.params x.reg inp) ∧
        (∀ w v, s.soleDriver w → w.dst = .bs k → s.output w.src w.srcPort = some v →
          hasInPort (.bs k) w.dstPort = true → inp.port w.dstPort = some (v % 2)) ∧
        (id ≠ .bs k → ∀ p, s.undriven (.bs k) p → inp.port p = x.inp.port p)) ∧
    ∀ (j k : Nat) (z : LRInst) (x : I2CInst), id = .lr j → s.lrs[j]? = some z → s.i2cs[k]? = some x →
      x.cd.domain = d →
      s.wiresInto (.i2c k) = [⟨.lr j, .valid, .i2c k, .inWe⟩, ⟨.lr j, .data, .i2c k, .inDin⟩] →
      x.params.variant = .dual → 8 ≤ x.params.inW → x.reg.inFull = false →
      ∃ t y, exec op s = .next t ∧ t.i2cs[k]? = some y ∧ y.reg.inFull = z.reg.valid ∧
        y.reg.inQ = (if z.reg.valid then z.reg.data.toNat else x.reg.inQ)

/-! ### Runs the spec gives no meaning to -/

/-- What HOST.EVALUATE, a line and a frame refuse, and what an instance is not created with (60_exceptions.md R275,
70_reset_and_hazards.md R283, 00_scope.md R12, 20_memory.md R82): an instance that was never reset, an I2C instance with
I2C_TIMEOUT or a width of 0 or, in SINGLE, with two widths, a linear reader with an address or a length of 0 bits, and a
reader of an image that is not one byte for each window address. With every parameter in range the instance is created;
R12 states no range for a parameter of a recognizer (log 17). That a line is refused also where another instance of its
clock domain diverges, and which refusal of one instance comes first (neverReset, parameterRange, imageLength), is the
model's choice (log 28). The spec's own choices: D7, D8, D11, D21, D28, D32. -/
def Obligations.MisusedInstanceIsRefused : Prop :=
  let badI2c : I2CParams → Prop := fun q =>
    q.timeout = 0 ∨ q.inW = 0 ∨ q.outW = 0 ∨ (q.variant = .single ∧ q.inW ≠ q.outW)
  let badLr : LRParams → Prop := fun q => q.aw = 0 ∨ q.lw = 0
  let badImage : Memory → Prop := fun m => m.cells.map (·.1) ≠ List.range' m.base m.len
  ∀ s : State, s.nonconv = none →
    (∀ id c, s.cd? id = some c → c.wasReset = false → exec (.hostEvaluate id) s = .refused (.neverReset id)) ∧
    (∀ (k : Nat) (x : I2CInst), s.i2cs[k]? = some x →
      (x.cd.wasReset = true → badI2c x.params →
        exec (.hostEvaluate (.i2c k)) s = .refused (.parameterRange (.i2c k))) ∧
      (x.cd.wasReset = false ∨ badI2c x.params → ∀ i : I2CIn, ∃ r, exec (i.op k) s = .refused r)) ∧
    (∀ (k : Nat) (x : LRInst), s.lrs[k]? = some x →
      (x.cd.wasReset = true → badLr x.params →
        exec (.hostEvaluate (.lr k)) s = .refused (.parameterRange (.lr k))) ∧
      (x.cd.wasReset = true → ¬badLr x.params → badImage s.mem →
        exec (.hostEvaluate (.lr k)) s = .refused .imageLength) ∧
      (x.cd.wasReset = false ∨ badLr x.params ∨ badImage s.mem → ∀ i : LRIn, ∃ r, exec (i.op k) s = .refused r)) ∧
    (∀ (k : Nat) (x : BSInst), s.bss[k]? = some x →
      (x.cd.wasReset = true → badImage s.mem → exec (.hostEvaluate (.bs k)) s = .refused .imageLength) ∧
      (x.cd.wasReset = false ∨ badImage s.mem →
        (∀ i : BSIn, ∃ r, exec (i.op k) s = .refused r) ∧ (∃ r, exec (.bsReleasePowerDown k) s = .refused r) ∧
          ∀ addr, ∃ r, exec (.bsRead k addr) s = .refused r)) ∧
    ∀ (d : Nat) (rest : List HostAct),
      (∀ q : I2CParams,
        (badI2c q → step (s.withScript (.create (.i2c q d) :: rest)) =
          .refused (.parameterRange (.i2c s.i2cs.length))) ∧
        (¬badI2c q → ∃ t, step (s.withScript (.create (.i2c q d) :: rest)) = .next t)) ∧
      (∀ q : LRParams,
        (badLr q → step (s.withScript (.create (.lr q d) :: rest)) =
          .refused (.parameterRange (.lr s.lrs.length))) ∧
        (¬badLr q → ∃ t, step (s.withScript (.create (.lr q d) :: rest)) = .next t)) ∧
      ∀ q : BSParams, ∃ t, step (s.withScript (.create (.bs q d) :: rest)) = .next t

/-- The supply of the image (20_memory.md R80, R82, R84): refused where it would change the image after the first
evaluation, and before it with a content of another length than the window; else each window address reads as its byte and
no other address has one. That a second supply before the first evaluation replaces the first, and that the same image again
after it is no change, is the model's choice (log 27). The spec's own choice: D28. -/
def Obligations.ImageReadsBackAndIsFixedAfterTheFirstEvaluation : Prop :=
  ∀ (s : State) (base len : Nat) (content : List Byte) (rest : List HostAct), s.nonconv = none →
    s.script = .image base len content :: rest →
    (s.started = true → s.mem ≠ Memory.ofImage base len content → step s = .refused .imageChanged) ∧
    (s.started = true → s.mem = Memory.ofImage base len content → content.length = len →
      step s = .next (s.withScript rest)) ∧
    (s.started = false → content.length ≠ len → step s = .refused .imageLength) ∧
    (s.started = false → content.length = len →
      ∃ t, step s = .next t ∧ (∀ j, j < len → t.mem.read (base + j) = content[j]?) ∧
        ∀ a, a < base ∨ base + len ≤ a → t.mem.read a = none)

/-- No operation writes the image, no step after the first evaluation changes it, and an attempt to change it then is
refused (R84). -/
def Obligations.ImageNeverChangesDuringARun : Prop :=
  (∀ (i : Instr) (s t : State), exec i s = .next t → t.mem = s.mem) ∧
  (∀ s t : State, s.started = true → step s = .next t → t.mem = s.mem ∧ t.started = true) ∧
  ∀ (s : State) (base len : Nat) (content : List Byte) (rest : List HostAct), s.nonconv = none →
    s.started = true → s.script = .image base len content :: rest → s.mem ≠ Memory.ofImage base len content →
    step s = .refused .imageChanged

/-- A host that commits one instance of a clock domain before it evaluates another that reads it at the same edge is
refused (40_clock_discipline.md R154, 60_exceptions.md R275), also where the edge is one that both detect after a reset with
clk = 1 (70_reset_and_hazards.md R284). Not refused: the reader of a source that was reset in between and shows its reset
value; a reader that has seen the edge, is reset with clk = 1 and detects an edge of its own, whatever the source did
meanwhile; and a reader that holds an evaluation of the edge at the source's commit and is evaluated again, whose inputs
have changed before its own commit (R149, R275). How the model tells these apart is log 13, the last is its choice (log 29;
where a reset comes between, log 30). The spec's own choices: D3, D29, D34. -/
def Obligations.SameEdgePathIsRefused : Prop :=
  ∀ (s : State) (a b : InstId) (ca cb : CD) (w : Wire), s.nonconv = none → a ≠ b →
    s.cd? a = some ca → s.cd? b = some cb → ca.domain = cb.domain → ca.pendClk = none → cb.pendClk = none →
    ca.fresh = false → cb.fresh = false → ca.prevClk = false → ca.clk = true → cb.prevClk = false → cb.clk = true →
    s.evaluable a = true → s.evaluable b = true → w ∈ s.wires → w.src = a → w.dst = b →
    execAll [.hostEvaluate a, .hostCommit a, .hostEvaluate b] s = .refused (.sameEdgePath a b) ∧
    execAll [.hostEvaluate a, .hostEvaluate b, .hostCommit a, .hostCommit b, .hostReset a, .hostReset b,
      .hostEvaluate a, .hostCommit a, .hostEvaluate b] s = .refused (.sameEdgePath a b) ∧
    (∃ t, execAll [.hostEvaluate a, .hostCommit a, .hostReset a, .hostEvaluate b] s = .next t ∧ t.nonconv = none) ∧
    (∃ t, execAll [.hostEvaluate a, .hostEvaluate b, .hostCommit a, .hostEvaluate b] s = .next t) ∧
    ∃ t c, execAll [.hostEvaluate a, .hostEvaluate b, .hostCommit a, .hostCommit b, .hostReset a, .hostEvaluate a,
        .hostCommit a, .hostReset b, .hostEvaluate b] s = .next t ∧
      t.nonconv = none ∧ t.cd? b = some c ∧ c.prevClk = false ∧ c.clk = true ∧ c.pendClk = some true

/-! ### Invariants and lifetimes -/

/-- EVERY STEP KEEPS THE INVARIANT: in every state that meets it, whatever the host does next, the state after meets it:
the I2C countdown of a BUSY instance is in 1 to I2C_TIMEOUT (10_state.md R47), a bit index is in 0 to 7 and an
unselected BS in IDLE or DPU has counted no edge (43_spinor_bitserial.md R240, R247), busy and ready mirror their states
(10_state.md R39, R42, R44, R50, R52), every register fits its width (R41, R43, R45, R49, R55, R56), and the image is
well formed. The spec's own choices: D7 (SINGLE), D11, D21. -/
def Obligations.EveryStepKeepsTheInvariants : Prop := ∀ s t : State, s.Inv → step s = .next t → t.Inv

/-- The invariant holds right after reset. Which instances State.reset has is the choice of the model (log 6). -/
def Obligations.ResetMeetsTheInvariants : Prop := State.reset.Inv

/-- An instance's parameters, its variant among them, are fixed for its lifetime, and its trace only grows: no step,
HOST.RESET included, changes the one or shortens the other (10_state.md R31, R60, 41_i2c_target.md R174,
70_reset_and_hazards.md R280). The spec's own choice: D33. -/
def Obligations.ParametersStayAndTraceOnlyGrows : Prop :=
  ∀ (s t : State) (k : Nat), step s = .next t →
    (∀ x, s.i2cs[k]? = some x → ∃ y, t.i2cs[k]? = some y ∧ y.params = x.params ∧ x.trace <+: y.trace) ∧
    (∀ x, s.lrs[k]? = some x → ∃ y, t.lrs[k]? = some y ∧ y.params = x.params) ∧
    ∀ x, s.bss[k]? = some x → ∃ y, t.bss[k]? = some y ∧ y.params = x.params

/-- The outputs after reset (70_reset_and_hazards.md R281, 10_state.md R64). Which instances State.reset has is the
model's choice (log 6). The spec's own choice: D9. -/
def Obligations.OutputsAfterReset : Prop :=
  (∀ k, k < 2 → State.reset.output (.i2c k) .busy = some 0 ∧ State.reset.output (.i2c k) .ack = some 0 ∧
    State.reset.output (.i2c k) .inReady = some 1 ∧ State.reset.output (.i2c k) .outReady = some 0 ∧
    State.reset.output (.i2c k) .outData = some 0) ∧
  State.reset.output (.lr 0) .busy = some 0 ∧ State.reset.output (.lr 0) .data = some 0 ∧
  State.reset.output (.lr 0) .valid = some 0 ∧ State.reset.output (.bs 0) .so = some 0

end
end

