-- ==== Sys2Proof/Laws/State.lean ====
section
/-! SUPPORT. One lemma per field per update of State, and the fields the scope-wide operations leave alone, each true by
rfl, so that no later proof unfolds a record update. -/

namespace Sys2Proof.Machine

@[simp] theorem State.withScript_i2cs (s : State) (as : List HostAct) : (s.withScript as).i2cs = s.i2cs := rfl
@[simp] theorem State.withScript_lrs (s : State) (as : List HostAct) : (s.withScript as).lrs = s.lrs := rfl
@[simp] theorem State.withScript_bss (s : State) (as : List HostAct) : (s.withScript as).bss = s.bss := rfl
@[simp] theorem State.withScript_mem (s : State) (as : List HostAct) : (s.withScript as).mem = s.mem := rfl
@[simp] theorem State.withScript_wires (s : State) (as : List HostAct) : (s.withScript as).wires = s.wires := rfl
@[simp] theorem State.withScript_overtaken (s : State) (as : List HostAct) : (s.withScript as).overtaken = s.overtaken := rfl
@[simp] theorem State.withScript_nonconv (s : State) (as : List HostAct) : (s.withScript as).nonconv = s.nonconv := rfl
@[simp] theorem State.withScript_checking (s : State) (as : List HostAct) : (s.withScript as).checking = s.checking := rfl
@[simp] theorem State.withScript_started (s : State) (as : List HostAct) : (s.withScript as).started = s.started := rfl
@[simp] theorem State.withScript_script (s : State) (as : List HostAct) : (s.withScript as).script = as := rfl

@[simp] theorem State.withInsts_i2cs (s : State) (is : List I2CInst) (ls : List LRInst) (bs : List BSInst) : (s.withInsts is ls bs).i2cs = is := rfl
@[simp] theorem State.withInsts_lrs (s : State) (is : List I2CInst) (ls : List LRInst) (bs : List BSInst) : (s.withInsts is ls bs).lrs = ls := rfl
@[simp] theorem State.withInsts_bss (s : State) (is : List I2CInst) (ls : List LRInst) (bs : List BSInst) : (s.withInsts is ls bs).bss = bs := rfl
@[simp] theorem State.withInsts_mem (s : State) (is : List I2CInst) (ls : List LRInst) (bs : List BSInst) : (s.withInsts is ls bs).mem = s.mem := rfl
@[simp] theorem State.withInsts_wires (s : State) (is : List I2CInst) (ls : List LRInst) (bs : List BSInst) : (s.withInsts is ls bs).wires = s.wires := rfl
@[simp] theorem State.withInsts_overtaken (s : State) (is : List I2CInst) (ls : List LRInst) (bs : List BSInst) : (s.withInsts is ls bs).overtaken = s.overtaken := rfl
@[simp] theorem State.withInsts_nonconv (s : State) (is : List I2CInst) (ls : List LRInst) (bs : List BSInst) : (s.withInsts is ls bs).nonconv = s.nonconv := rfl
@[simp] theorem State.withInsts_checking (s : State) (is : List I2CInst) (ls : List LRInst) (bs : List BSInst) : (s.withInsts is ls bs).checking = s.checking := rfl
@[simp] theorem State.withInsts_started (s : State) (is : List I2CInst) (ls : List LRInst) (bs : List BSInst) : (s.withInsts is ls bs).started = s.started := rfl
@[simp] theorem State.withInsts_script (s : State) (is : List I2CInst) (ls : List LRInst) (bs : List BSInst) : (s.withInsts is ls bs).script = s.script := rfl

@[simp] theorem State.withMem_i2cs (s : State) (m : Memory) : (s.withMem m).i2cs = s.i2cs := rfl
@[simp] theorem State.withMem_lrs (s : State) (m : Memory) : (s.withMem m).lrs = s.lrs := rfl
@[simp] theorem State.withMem_bss (s : State) (m : Memory) : (s.withMem m).bss = s.bss := rfl
@[simp] theorem State.withMem_mem (s : State) (m : Memory) : (s.withMem m).mem = m := rfl
@[simp] theorem State.withMem_wires (s : State) (m : Memory) : (s.withMem m).wires = s.wires := rfl
@[simp] theorem State.withMem_overtaken (s : State) (m : Memory) : (s.withMem m).overtaken = s.overtaken := rfl
@[simp] theorem State.withMem_nonconv (s : State) (m : Memory) : (s.withMem m).nonconv = s.nonconv := rfl
@[simp] theorem State.withMem_checking (s : State) (m : Memory) : (s.withMem m).checking = s.checking := rfl
@[simp] theorem State.withMem_started (s : State) (m : Memory) : (s.withMem m).started = s.started := rfl
@[simp] theorem State.withMem_script (s : State) (m : Memory) : (s.withMem m).script = s.script := rfl

@[simp] theorem State.withWires_i2cs (s : State) (ws : List Wire) : (s.withWires ws).i2cs = s.i2cs := rfl
@[simp] theorem State.withWires_lrs (s : State) (ws : List Wire) : (s.withWires ws).lrs = s.lrs := rfl
@[simp] theorem State.withWires_bss (s : State) (ws : List Wire) : (s.withWires ws).bss = s.bss := rfl
@[simp] theorem State.withWires_mem (s : State) (ws : List Wire) : (s.withWires ws).mem = s.mem := rfl
@[simp] theorem State.withWires_wires (s : State) (ws : List Wire) : (s.withWires ws).wires = ws := rfl
@[simp] theorem State.withWires_overtaken (s : State) (ws : List Wire) : (s.withWires ws).overtaken = s.overtaken := rfl
@[simp] theorem State.withWires_nonconv (s : State) (ws : List Wire) : (s.withWires ws).nonconv = s.nonconv := rfl
@[simp] theorem State.withWires_checking (s : State) (ws : List Wire) : (s.withWires ws).checking = s.checking := rfl
@[simp] theorem State.withWires_started (s : State) (ws : List Wire) : (s.withWires ws).started = s.started := rfl
@[simp] theorem State.withWires_script (s : State) (ws : List Wire) : (s.withWires ws).script = s.script := rfl

@[simp] theorem State.withOvertaken_i2cs (s : State) (os : List Overtaken) : (s.withOvertaken os).i2cs = s.i2cs := rfl
@[simp] theorem State.withOvertaken_lrs (s : State) (os : List Overtaken) : (s.withOvertaken os).lrs = s.lrs := rfl
@[simp] theorem State.withOvertaken_bss (s : State) (os : List Overtaken) : (s.withOvertaken os).bss = s.bss := rfl
@[simp] theorem State.withOvertaken_mem (s : State) (os : List Overtaken) : (s.withOvertaken os).mem = s.mem := rfl
@[simp] theorem State.withOvertaken_wires (s : State) (os : List Overtaken) : (s.withOvertaken os).wires = s.wires := rfl
@[simp] theorem State.withOvertaken_overtaken (s : State) (os : List Overtaken) : (s.withOvertaken os).overtaken = os := rfl
@[simp] theorem State.withOvertaken_nonconv (s : State) (os : List Overtaken) : (s.withOvertaken os).nonconv = s.nonconv := rfl
@[simp] theorem State.withOvertaken_checking (s : State) (os : List Overtaken) : (s.withOvertaken os).checking = s.checking := rfl
@[simp] theorem State.withOvertaken_started (s : State) (os : List Overtaken) : (s.withOvertaken os).started = s.started := rfl
@[simp] theorem State.withOvertaken_script (s : State) (os : List Overtaken) : (s.withOvertaken os).script = s.script := rfl

@[simp] theorem State.withStarted_i2cs (s : State) : (s.withStarted).i2cs = s.i2cs := rfl
@[simp] theorem State.withStarted_lrs (s : State) : (s.withStarted).lrs = s.lrs := rfl
@[simp] theorem State.withStarted_bss (s : State) : (s.withStarted).bss = s.bss := rfl
@[simp] theorem State.withStarted_mem (s : State) : (s.withStarted).mem = s.mem := rfl
@[simp] theorem State.withStarted_wires (s : State) : (s.withStarted).wires = s.wires := rfl
@[simp] theorem State.withStarted_overtaken (s : State) : (s.withStarted).overtaken = s.overtaken := rfl
@[simp] theorem State.withStarted_nonconv (s : State) : (s.withStarted).nonconv = s.nonconv := rfl
@[simp] theorem State.withStarted_checking (s : State) : (s.withStarted).checking = s.checking := rfl
@[simp] theorem State.withStarted_started (s : State) : (s.withStarted).started = true := rfl
@[simp] theorem State.withStarted_script (s : State) : (s.withStarted).script = s.script := rfl

@[simp] theorem State.mapScope_mem (s : State) (sc : Scope) (fi : Nat → I2CInst → I2CInst)
    (fl : Nat → LRInst → LRInst) (fb : Nat → BSInst → BSInst) : (s.mapScope sc fi fl fb).mem = s.mem := rfl
@[simp] theorem State.mapScope_wires (s : State) (sc : Scope) (fi : Nat → I2CInst → I2CInst)
    (fl : Nat → LRInst → LRInst) (fb : Nat → BSInst → BSInst) : (s.mapScope sc fi fl fb).wires = s.wires := rfl
@[simp] theorem State.mapScope_overtaken (s : State) (sc : Scope) (fi : Nat → I2CInst → I2CInst)
    (fl : Nat → LRInst → LRInst) (fb : Nat → BSInst → BSInst) : (s.mapScope sc fi fl fb).overtaken = s.overtaken := rfl
@[simp] theorem State.mapScope_nonconv (s : State) (sc : Scope) (fi : Nat → I2CInst → I2CInst)
    (fl : Nat → LRInst → LRInst) (fb : Nat → BSInst → BSInst) : (s.mapScope sc fi fl fb).nonconv = s.nonconv := rfl
@[simp] theorem State.mapScope_checking (s : State) (sc : Scope) (fi : Nat → I2CInst → I2CInst)
    (fl : Nat → LRInst → LRInst) (fb : Nat → BSInst → BSInst) : (s.mapScope sc fi fl fb).checking = s.checking := rfl
@[simp] theorem State.mapScope_started (s : State) (sc : Scope) (fi : Nat → I2CInst → I2CInst)
    (fl : Nat → LRInst → LRInst) (fb : Nat → BSInst → BSInst) : (s.mapScope sc fi fl fb).started = s.started := rfl
@[simp] theorem State.mapScope_script (s : State) (sc : Scope) (fi : Nat → I2CInst → I2CInst)
    (fl : Nat → LRInst → LRInst) (fb : Nat → BSInst → BSInst) : (s.mapScope sc fi fl fb).script = s.script := rfl

@[simp] theorem State.mapCD_mem (s : State) (sc : Scope) (f : CD → CD) : (s.mapCD sc f).mem = s.mem := rfl
@[simp] theorem State.mapCD_wires (s : State) (sc : Scope) (f : CD → CD) : (s.mapCD sc f).wires = s.wires := rfl
@[simp] theorem State.mapCD_overtaken (s : State) (sc : Scope) (f : CD → CD) : (s.mapCD sc f).overtaken = s.overtaken := rfl
@[simp] theorem State.mapCD_nonconv (s : State) (sc : Scope) (f : CD → CD) : (s.mapCD sc f).nonconv = s.nonconv := rfl
@[simp] theorem State.mapCD_checking (s : State) (sc : Scope) (f : CD → CD) : (s.mapCD sc f).checking = s.checking := rfl
@[simp] theorem State.mapCD_started (s : State) (sc : Scope) (f : CD → CD) : (s.mapCD sc f).started = s.started := rfl
@[simp] theorem State.mapCD_script (s : State) (sc : Scope) (f : CD → CD) : (s.mapCD sc f).script = s.script := rfl

@[simp] theorem State.driveClk_mem (s : State) (d : Nat) (v : Bool) : (s.driveClk d v).mem = s.mem := rfl
@[simp] theorem State.driveClk_wires (s : State) (d : Nat) (v : Bool) : (s.driveClk d v).wires = s.wires := rfl
@[simp] theorem State.driveClk_overtaken (s : State) (d : Nat) (v : Bool) :
    (s.driveClk d v).overtaken = s.overtakenBut fun _ c => c.domain == d && c.clk != v := rfl
@[simp] theorem State.driveClk_nonconv (s : State) (d : Nat) (v : Bool) : (s.driveClk d v).nonconv = s.nonconv := rfl
@[simp] theorem State.driveClk_checking (s : State) (d : Nat) (v : Bool) : (s.driveClk d v).checking = s.checking := rfl
@[simp] theorem State.driveClk_started (s : State) (d : Nat) (v : Bool) : (s.driveClk d v).started = s.started := rfl
@[simp] theorem State.driveClk_script (s : State) (d : Nat) (v : Bool) : (s.driveClk d v).script = s.script := rfl

@[simp] theorem State.discard_mem (s : State) (id : InstId) : (s.discard id).mem = s.mem := rfl
@[simp] theorem State.discard_wires (s : State) (id : InstId) : (s.discard id).wires = s.wires := rfl
@[simp] theorem State.discard_overtaken (s : State) (id : InstId) : (s.discard id).overtaken = s.overtaken := rfl
@[simp] theorem State.discard_nonconv (s : State) (id : InstId) : (s.discard id).nonconv = s.nonconv := rfl
@[simp] theorem State.discard_checking (s : State) (id : InstId) : (s.discard id).checking = s.checking := rfl
@[simp] theorem State.discard_started (s : State) (id : InstId) : (s.discard id).started = s.started := rfl
@[simp] theorem State.discard_script (s : State) (id : InstId) : (s.discard id).script = s.script := rfl

@[simp] theorem State.setI2cIn_mem (s : State) (k : Nat) (i : I2CIn) : (s.setI2cIn k i).mem = s.mem := rfl
@[simp] theorem State.setI2cIn_wires (s : State) (k : Nat) (i : I2CIn) : (s.setI2cIn k i).wires = s.wires := rfl
@[simp] theorem State.setI2cIn_overtaken (s : State) (k : Nat) (i : I2CIn) : (s.setI2cIn k i).overtaken = s.overtaken := rfl
@[simp] theorem State.setI2cIn_nonconv (s : State) (k : Nat) (i : I2CIn) : (s.setI2cIn k i).nonconv = s.nonconv := rfl
@[simp] theorem State.setI2cIn_checking (s : State) (k : Nat) (i : I2CIn) : (s.setI2cIn k i).checking = s.checking := rfl
@[simp] theorem State.setI2cIn_started (s : State) (k : Nat) (i : I2CIn) : (s.setI2cIn k i).started = s.started := rfl
@[simp] theorem State.setI2cIn_script (s : State) (k : Nat) (i : I2CIn) : (s.setI2cIn k i).script = s.script := rfl

@[simp] theorem State.setLrIn_mem (s : State) (k : Nat) (i : LRIn) : (s.setLrIn k i).mem = s.mem := rfl
@[simp] theorem State.setLrIn_wires (s : State) (k : Nat) (i : LRIn) : (s.setLrIn k i).wires = s.wires := rfl
@[simp] theorem State.setLrIn_overtaken (s : State) (k : Nat) (i : LRIn) : (s.setLrIn k i).overtaken = s.overtaken := rfl
@[simp] theorem State.setLrIn_nonconv (s : State) (k : Nat) (i : LRIn) : (s.setLrIn k i).nonconv = s.nonconv := rfl
@[simp] theorem State.setLrIn_checking (s : State) (k : Nat) (i : LRIn) : (s.setLrIn k i).checking = s.checking := rfl
@[simp] theorem State.setLrIn_started (s : State) (k : Nat) (i : LRIn) : (s.setLrIn k i).started = s.started := rfl
@[simp] theorem State.setLrIn_script (s : State) (k : Nat) (i : LRIn) : (s.setLrIn k i).script = s.script := rfl

@[simp] theorem State.setBsIn_mem (s : State) (k : Nat) (i : BSIn) : (s.setBsIn k i).mem = s.mem := rfl
@[simp] theorem State.setBsIn_wires (s : State) (k : Nat) (i : BSIn) : (s.setBsIn k i).wires = s.wires := rfl
@[simp] theorem State.setBsIn_overtaken (s : State) (k : Nat) (i : BSIn) : (s.setBsIn k i).overtaken = s.overtaken := rfl
@[simp] theorem State.setBsIn_nonconv (s : State) (k : Nat) (i : BSIn) : (s.setBsIn k i).nonconv = s.nonconv := rfl
@[simp] theorem State.setBsIn_checking (s : State) (k : Nat) (i : BSIn) : (s.setBsIn k i).checking = s.checking := rfl
@[simp] theorem State.setBsIn_started (s : State) (k : Nat) (i : BSIn) : (s.setBsIn k i).started = s.started := rfl
@[simp] theorem State.setBsIn_script (s : State) (k : Nat) (i : BSIn) : (s.setBsIn k i).script = s.script := rfl

@[simp] theorem State.committed_mem (s : State) (sc : Scope) : (s.committed sc).mem = s.mem := rfl
@[simp] theorem State.committed_wires (s : State) (sc : Scope) : (s.committed sc).wires = s.wires := rfl
@[simp] theorem State.committed_overtaken (s : State) (sc : Scope) :
    (s.committed sc).overtaken = s.overtakenBut (fun id c => sc.has id c && c.closes) ++ s.overtakes sc := rfl
@[simp] theorem State.committed_nonconv (s : State) (sc : Scope) : (s.committed sc).nonconv = s.nonconv := rfl
@[simp] theorem State.committed_checking (s : State) (sc : Scope) : (s.committed sc).checking = s.checking := rfl
@[simp] theorem State.committed_started (s : State) (sc : Scope) : (s.committed sc).started = s.started := rfl
@[simp] theorem State.committed_script (s : State) (sc : Scope) : (s.committed sc).script = s.script := rfl

@[simp] theorem State.afterReset_mem (s : State) (sc : Scope) : (s.afterReset sc).mem = s.mem := rfl
@[simp] theorem State.afterReset_wires (s : State) (sc : Scope) : (s.afterReset sc).wires = s.wires := rfl
@[simp] theorem State.afterReset_overtaken (s : State) (sc : Scope) :
    (s.afterReset sc).overtaken = s.overtaken.filter fun o => !(s.cd? o.src).any (sc.has o.src) := rfl
@[simp] theorem State.afterReset_nonconv (s : State) (sc : Scope) : (s.afterReset sc).nonconv = s.nonconv := rfl
@[simp] theorem State.afterReset_checking (s : State) (sc : Scope) : (s.afterReset sc).checking = s.checking := rfl
@[simp] theorem State.afterReset_started (s : State) (sc : Scope) : (s.afterReset sc).started = s.started := rfl
@[simp] theorem State.afterReset_script (s : State) (sc : Scope) : (s.afterReset sc).script = s.script := rfl

@[simp] theorem State.evaluated_mem (s : State) (sc : Scope) : (s.evaluated sc).mem = s.mem := rfl
@[simp] theorem State.evaluated_wires (s : State) (sc : Scope) : (s.evaluated sc).wires = s.wires := rfl
@[simp] theorem State.evaluated_overtaken (s : State) (sc : Scope) : (s.evaluated sc).overtaken = s.overtaken := rfl
@[simp] theorem State.evaluated_nonconv (s : State) (sc : Scope) : (s.evaluated sc).nonconv = s.nonconv := rfl
@[simp] theorem State.evaluated_checking (s : State) (sc : Scope) : (s.evaluated sc).checking = s.checking := rfl
@[simp] theorem State.evaluated_script (s : State) (sc : Scope) : (s.evaluated sc).script = s.script := rfl

@[simp] theorem State.evaluated_started (s : State) (sc : Scope) : (s.evaluated sc).started = true := rfl
@[simp] theorem State.raise_mem (s : State) (id : InstId) : (s.raise id).mem = s.mem := rfl
@[simp] theorem State.raise_wires (s : State) (id : InstId) : (s.raise id).wires = s.wires := rfl
@[simp] theorem State.raise_checking (s : State) (id : InstId) : (s.raise id).checking = s.checking := rfl
@[simp] theorem State.raise_started (s : State) (id : InstId) : (s.raise id).started = s.started := rfl
@[simp] theorem State.raise_script (s : State) (id : InstId) : (s.raise id).script = s.script := rfl

@[simp] theorem State.raise_nonconv (s : State) (id : InstId) : (s.raise id).nonconv = some id := rfl

@[simp] theorem CD.evaluate_domain (c : CD) : (c.evaluate).domain = c.domain := rfl
@[simp] theorem CD.evaluate_clk (c : CD) : (c.evaluate).clk = c.clk := rfl
@[simp] theorem CD.evaluate_prevClk (c : CD) : (c.evaluate).prevClk = c.prevClk := rfl
@[simp] theorem CD.evaluate_pendClk (c : CD) : (c.evaluate).pendClk = some c.clk := rfl
@[simp] theorem CD.evaluate_fresh (c : CD) : (c.evaluate).fresh = true := rfl
@[simp] theorem CD.evaluate_wasReset (c : CD) : (c.evaluate).wasReset = c.wasReset := rfl
@[simp] theorem CD.evaluate_changed (c : CD) : (c.evaluate).changed = c.changed := rfl

@[simp] theorem CD.commit_domain (c : CD) (ch : Bool) : (c.commit ch).domain = c.domain := rfl
@[simp] theorem CD.commit_clk (c : CD) (ch : Bool) : (c.commit ch).clk = c.clk := rfl
@[simp] theorem CD.commit_prevClk (c : CD) (ch : Bool) : (c.commit ch).prevClk = c.pendClk.getD c.prevClk := rfl
@[simp] theorem CD.commit_pendClk (c : CD) (ch : Bool) : (c.commit ch).pendClk = none := rfl
@[simp] theorem CD.commit_fresh (c : CD) (ch : Bool) : (c.commit ch).fresh = false := rfl
@[simp] theorem CD.commit_wasReset (c : CD) (ch : Bool) : (c.commit ch).wasReset = c.wasReset := rfl
@[simp] theorem CD.commit_changed (c : CD) (ch : Bool) : (c.commit ch).changed = (ch || c.pendClk.getD c.prevClk != c.prevClk) := rfl

@[simp] theorem CD.afterReset_domain (c : CD) : (c.afterReset).domain = c.domain := rfl
@[simp] theorem CD.afterReset_clk (c : CD) : (c.afterReset).clk = c.clk := rfl
@[simp] theorem CD.afterReset_prevClk (c : CD) : (c.afterReset).prevClk = false := rfl
@[simp] theorem CD.afterReset_pendClk (c : CD) : (c.afterReset).pendClk = none := rfl
@[simp] theorem CD.afterReset_fresh (c : CD) : (c.afterReset).fresh = false := rfl
@[simp] theorem CD.afterReset_wasReset (c : CD) : (c.afterReset).wasReset = true := rfl
@[simp] theorem CD.afterReset_changed (c : CD) : (c.afterReset).changed = c.changed := rfl

@[simp] theorem CD.discard_domain (c : CD) : c.discard.domain = c.domain := rfl
@[simp] theorem CD.discard_clk (c : CD) : c.discard.clk = c.clk := rfl
@[simp] theorem CD.discard_prevClk (c : CD) : c.discard.prevClk = c.prevClk := rfl
@[simp] theorem CD.discard_pendClk (c : CD) : c.discard.pendClk = none := rfl
@[simp] theorem CD.discard_fresh (c : CD) : c.discard.fresh = false := rfl
@[simp] theorem CD.discard_wasReset (c : CD) : c.discard.wasReset = c.wasReset := rfl
@[simp] theorem CD.discard_changed (c : CD) : c.discard.changed = c.changed := rfl

@[simp] theorem CD.driveClk_domain (v : Bool) (c : CD) : (c.driveClk v).domain = c.domain := by
  unfold CD.driveClk; split <;> rfl
@[simp] theorem CD.driveClk_clk (v : Bool) (c : CD) : (c.driveClk v).clk = v := by
  unfold CD.driveClk; split <;> simp_all
@[simp] theorem CD.driveClk_prevClk (v : Bool) (c : CD) : (c.driveClk v).prevClk = c.prevClk := by
  unfold CD.driveClk; split <;> rfl
@[simp] theorem CD.driveClk_pendClk (v : Bool) (c : CD) : (c.driveClk v).pendClk = c.pendClk := by
  unfold CD.driveClk; split <;> rfl
@[simp] theorem CD.driveClk_wasReset (v : Bool) (c : CD) : (c.driveClk v).wasReset = c.wasReset := by
  unfold CD.driveClk; split <;> rfl
@[simp] theorem CD.driveClk_changed (v : Bool) (c : CD) : (c.driveClk v).changed = c.changed := by
  unfold CD.driveClk; split <;> rfl

@[simp] theorem I2CInst.evaluate_cd (x : I2CInst) (i : I2CIn) : (x.evaluate i).cd = x.cd.evaluate := rfl
@[simp] theorem I2CInst.evaluate_params (x : I2CInst) (i : I2CIn) : (x.evaluate i).params = x.params := rfl
@[simp] theorem I2CInst.evaluate_inp (x : I2CInst) (i : I2CIn) : (x.evaluate i).inp = x.inp := rfl
@[simp] theorem I2CInst.evaluate_reg (x : I2CInst) (i : I2CIn) : (x.evaluate i).reg = x.reg := rfl
@[simp] theorem I2CInst.evaluate_pend (x : I2CInst) (i : I2CIn) : (x.evaluate i).pend = if x.cd.rising then i2cTick x.params x.reg i else {} := rfl
@[simp] theorem I2CInst.evaluate_sampled (x : I2CInst) (i : I2CIn) : (x.evaluate i).sampled = x.sampled := rfl
@[simp] theorem I2CInst.evaluate_trace (x : I2CInst) (i : I2CIn) : (x.evaluate i).trace = x.trace := rfl

@[simp] theorem I2CInst.commit_cd (x : I2CInst) : (x.commit).cd = x.cd.commit (x.reg.commit x.pend != x.reg) := rfl
@[simp] theorem I2CInst.commit_params (x : I2CInst) : (x.commit).params = x.params := rfl
@[simp] theorem I2CInst.commit_inp (x : I2CInst) : (x.commit).inp = x.inp := rfl
@[simp] theorem I2CInst.commit_reg (x : I2CInst) : (x.commit).reg = x.reg.commit x.pend := rfl
@[simp] theorem I2CInst.commit_pend (x : I2CInst) : (x.commit).pend = {} := rfl
@[simp] theorem I2CInst.commit_sampled (x : I2CInst) : (x.commit).sampled = [] := rfl
@[simp] theorem I2CInst.commit_trace (x : I2CInst) : (x.commit).trace = appendConsumed x.trace x.pend := rfl

@[simp] theorem I2CInst.afterReset_cd (x : I2CInst) : (x.afterReset).cd = x.cd.afterReset := rfl
@[simp] theorem I2CInst.afterReset_params (x : I2CInst) : (x.afterReset).params = x.params := rfl
@[simp] theorem I2CInst.afterReset_inp (x : I2CInst) : (x.afterReset).inp = x.inp := rfl
@[simp] theorem I2CInst.afterReset_reg (x : I2CInst) : (x.afterReset).reg = I2CReg.reset := rfl
@[simp] theorem I2CInst.afterReset_pend (x : I2CInst) : (x.afterReset).pend = {} := rfl
@[simp] theorem I2CInst.afterReset_sampled (x : I2CInst) : (x.afterReset).sampled = [] := rfl
@[simp] theorem I2CInst.afterReset_trace (x : I2CInst) : (x.afterReset).trace = x.trace := rfl

@[simp] theorem LRInst.evaluate_cd (m : Memory) (x : LRInst) (i : LRIn) : (x.evaluate m i).cd = x.cd.evaluate := rfl
@[simp] theorem LRInst.evaluate_params (m : Memory) (x : LRInst) (i : LRIn) : (x.evaluate m i).params = x.params := rfl
@[simp] theorem LRInst.evaluate_inp (m : Memory) (x : LRInst) (i : LRIn) : (x.evaluate m i).inp = x.inp := rfl
@[simp] theorem LRInst.evaluate_reg (m : Memory) (x : LRInst) (i : LRIn) : (x.evaluate m i).reg = x.reg := rfl
@[simp] theorem LRInst.evaluate_pend (m : Memory) (x : LRInst) (i : LRIn) : (x.evaluate m i).pend = if x.cd.rising then lrTick m x.params x.reg i else {} := rfl
@[simp] theorem LRInst.evaluate_sampled (m : Memory) (x : LRInst) (i : LRIn) : (x.evaluate m i).sampled = x.sampled := rfl

@[simp] theorem LRInst.commit_cd (x : LRInst) : (x.commit).cd = x.cd.commit (x.reg.commit x.pend != x.reg) := rfl
@[simp] theorem LRInst.commit_params (x : LRInst) : (x.commit).params = x.params := rfl
@[simp] theorem LRInst.commit_inp (x : LRInst) : (x.commit).inp = x.inp := rfl
@[simp] theorem LRInst.commit_reg (x : LRInst) : (x.commit).reg = x.reg.commit x.pend := rfl
@[simp] theorem LRInst.commit_pend (x : LRInst) : (x.commit).pend = {} := rfl
@[simp] theorem LRInst.commit_sampled (x : LRInst) : (x.commit).sampled = [] := rfl

@[simp] theorem LRInst.afterReset_cd (x : LRInst) : (x.afterReset).cd = x.cd.afterReset := rfl
@[simp] theorem LRInst.afterReset_params (x : LRInst) : (x.afterReset).params = x.params := rfl
@[simp] theorem LRInst.afterReset_inp (x : LRInst) : (x.afterReset).inp = x.inp := rfl
@[simp] theorem LRInst.afterReset_reg (x : LRInst) : (x.afterReset).reg = LRReg.reset := rfl
@[simp] theorem LRInst.afterReset_pend (x : LRInst) : (x.afterReset).pend = {} := rfl
@[simp] theorem LRInst.afterReset_sampled (x : LRInst) : (x.afterReset).sampled = [] := rfl

@[simp] theorem BSInst.evaluate_cd (m : Memory) (x : BSInst) (i : BSIn) : (x.evaluate m i).cd = x.cd.evaluate := rfl
@[simp] theorem BSInst.evaluate_params (m : Memory) (x : BSInst) (i : BSIn) : (x.evaluate m i).params = x.params := rfl
@[simp] theorem BSInst.evaluate_inp (m : Memory) (x : BSInst) (i : BSIn) : (x.evaluate m i).inp = x.inp := rfl
@[simp] theorem BSInst.evaluate_reg (m : Memory) (x : BSInst) (i : BSIn) : (x.evaluate m i).reg = x.reg := rfl
@[simp] theorem BSInst.evaluate_pend (m : Memory) (x : BSInst) (i : BSIn) : (x.evaluate m i).pend = if x.cd.rising then bsTick m x.params x.reg i else {} := rfl
@[simp] theorem BSInst.evaluate_sampled (m : Memory) (x : BSInst) (i : BSIn) : (x.evaluate m i).sampled = x.sampled := rfl

@[simp] theorem BSInst.commit_cd (x : BSInst) : (x.commit).cd = x.cd.commit (x.reg.commit x.pend != x.reg) := rfl
@[simp] theorem BSInst.commit_params (x : BSInst) : (x.commit).params = x.params := rfl
@[simp] theorem BSInst.commit_inp (x : BSInst) : (x.commit).inp = x.inp := rfl
@[simp] theorem BSInst.commit_reg (x : BSInst) : (x.commit).reg = x.reg.commit x.pend := rfl
@[simp] theorem BSInst.commit_pend (x : BSInst) : (x.commit).pend = {} := rfl
@[simp] theorem BSInst.commit_sampled (x : BSInst) : (x.commit).sampled = [] := rfl

@[simp] theorem BSInst.afterReset_cd (x : BSInst) : (x.afterReset).cd = x.cd.afterReset := rfl
@[simp] theorem BSInst.afterReset_params (x : BSInst) : (x.afterReset).params = x.params := rfl
@[simp] theorem BSInst.afterReset_inp (x : BSInst) : (x.afterReset).inp = x.inp := rfl
@[simp] theorem BSInst.afterReset_reg (x : BSInst) : (x.afterReset).reg = BSReg.reset := rfl
@[simp] theorem BSInst.afterReset_pend (x : BSInst) : (x.afterReset).pend = {} := rfl
@[simp] theorem BSInst.afterReset_sampled (x : BSInst) : (x.afterReset).sampled = [] := rfl

/-- Committing an empty pending set changes nothing (40_clock_discipline.md R145). -/
@[simp] theorem I2CReg.commit_empty (c : I2CReg) : c.commit {} = c := rfl
/-- Committing an empty pending set changes nothing (40_clock_discipline.md R145). -/
@[simp] theorem LRReg.commit_empty (c : LRReg) : c.commit {} = c := rfl
/-- Committing an empty pending set changes nothing (40_clock_discipline.md R145). -/
@[simp] theorem BSReg.commit_empty (c : BSReg) : c.commit {} = c := rfl

end Sys2Proof.Machine
end

