-- ==== Sys2Proof/Laws/BitSerial.lean ====
section
/-! SUPPORT. The bit-serial recognizer's tick rule (43_spinor_bitserial.md R221): the widths of what it computes, and what
each part of a tick schedules, said once. -/

namespace Sys2Proof.Machine

variable (q : BSParams) (c : BSReg) (i : BSIn) (m : Memory)

theorem lowBits_lt (w v : Nat) : lowBits w v < 2 ^ w := Nat.mod_lt _ (Nat.two_pow_pos w)

/-! ### Widths (00_scope.md R12, 10_state.md R55, R56) -/

theorem nextShift_lt (sr : Nat) (si : Bool) : nextShift q sr si < 2 ^ q.srW := lowBits_lt _ _

theorem addrField_lt (srn : Nat) : addrField q srn < 2 ^ q.addrW := lowBits_lt _ _

theorem nextRaddr_lt {a : Nat} (h : a < 2 ^ q.addrW) (b : Nat) : nextRaddr q a b < 2 ^ q.addrW := by
  unfold nextRaddr
  split
  · exact lowBits_lt _ _
  · exact h

theorem nextBidx_le {b : Nat} (h : b ≤ 7) : nextBidx b ≤ 7 := by
  unfold nextBidx
  split <;> omega

/-! ### The checks in numbers (R225, R226) -/

theorem lowByte_eq (srn : Nat) (b : Byte) : lowByte srn = b ↔ srn % 2 ^ 8 = b.toNat := by
  rw [← BitVec.toNat_inj, lowByte, BitVec.toNat_ofNat]

theorem topByte_eq (srn : Nat) (b : Byte) : topByte q srn = b ↔ srn / 2 ^ (q.srW - 8) % 2 ^ 8 = b.toNat := by
  rw [← BitVec.toNat_inj, topByte, BitVec.toNat_ofNat]

theorem rpdCheck_iff (srn : Nat) : rpdCheck q c srn = true ↔ c.ec = q.puEdge ∧ srn % 2 ^ 8 = q.opcRpd.toNat := by
  simp [rpdCheck, lowByte_eq]

theorem readCheck_iff (srn : Nat) : readCheck q c srn = true ↔
    c.ec = q.rdEdge ∧ srn / 2 ^ (q.srW - 8) % 2 ^ 8 = q.opcRead.toNat := by
  simp [readCheck, topByte_eq]

/-! ### What a tick schedules -/

/-- The edge counter (R230). -/
theorem bsTick_ec : (bsTick m q c i).ec = some (if i.cs then c.ec + 1 else 0) := by
  simp only [bsTick, bsStepShift]
  split <;> simp_all

/-- The shift register (R231). -/
theorem bsTick_sr : (bsTick m q c i).sr = if i.cs then some (nextShift q c.sr i.si) else none := by
  have hs : ∀ p : BSPend, (bsStepState q c i (nextShift q c.sr i.si) p).sr = p.sr := by
    intro p; unfold bsStepState; split <;> (try split) <;> rfl
  have hr : ∀ (l : BSLocals) (p : BSPend), (bsStepRead m q i l p).sr = p.sr := by
    intro l p; unfold bsStepRead; split <;> split <;> rfl
  simp only [bsTick, bsStepShift]
  split
  · rfl
  · simp only; split <;> simp only [hr, hs]

/-- Where no READ action runs, serial-out is 0 and the read address and bit index stay (R221). -/
theorem bsTick_no_read (h : (bsLocals q c (nextShift q c.sr i.si)).rd = false) :
    (bsTick m q c i).so = some false ∧ (bsTick m q c i).raddr = none ∧ (bsTick m q c i).bidx = none := by
  have hs : ∀ p : BSPend, (bsStepState q c i (nextShift q c.sr i.si) p).so = p.so ∧
      (bsStepState q c i (nextShift q c.sr i.si) p).raddr = p.raddr ∧
      (bsStepState q c i (nextShift q c.sr i.si) p).bidx = p.bidx := by
    intro p; unfold bsStepState; split <;> (try split) <;> exact ⟨rfl, rfl, rfl⟩
  simp only [bsTick, bsStepShift, h]
  split <;> simp [hs]

end Sys2Proof.Machine
end

