-- ==== Sys2Proof/Laws/Ops.lean ====
section
/-! SUPPORT. What the scope-wide operations do to one instance, and what sequencing does. -/

namespace Sys2Proof.Machine

variable {s t : State} {sc : Scope}

/-! ### Sequencing -/

/-- A guarded operation that answers runs in a run that has not ended. -/
theorem guardRun_next {r : Result} (h : guardRun s r = .next t) : s.nonconv = none ∧ r = .next t := by
  unfold guardRun at h
  split at h
  · cases h
  · exact ⟨by assumption, h⟩

theorem guardRun_of_running (r : Result) (h : s.nonconv = none) : guardRun s r = r := by
  simp [guardRun, h]

theorem guardRun_of_ended {id : InstId} (r : Result) (h : s.nonconv = some id) :
    guardRun s r = .fault (.nonConvergence id) := by
  simp [guardRun, h]

theorem andThen_running (f : State → Result) (h : s.nonconv = none) : andThen (.next s) f = f s := by
  simp [andThen, h]

/-- A sequence that answers: its first part answered; either the run ended there, or the second part answers. -/
theorem andThen_next {r : Result} {f : State → Result} (h : andThen r f = .next t) :
    ∃ u, r = .next u ∧ ((u.nonconv.isSome = true ∧ t = u) ∨ (u.nonconv = none ∧ f u = .next t)) := by
  unfold andThen at h
  split at h
  · rename_i u
    refine ⟨u, rfl, ?_⟩
    split at h
    · rename_i hu
      cases h
      exact .inl ⟨hu, rfl⟩
    · rename_i hu
      exact .inr ⟨by simpa using hu, h⟩
  · cases h
  · cases h

/-! ### One instance under a scope-wide change -/

theorem State.mapScope_i2c (fi : Nat → I2CInst → I2CInst) (fl : Nat → LRInst → LRInst) (fb : Nat → BSInst → BSInst)
    (k : Nat) : (s.mapScope sc fi fl fb).i2cs[k]? =
      s.i2cs[k]?.map fun x => if sc.has (.i2c k) x.cd then fi k x else x := by
  simp [State.mapScope, List.getElem?_mapIdx]

theorem State.mapScope_lr (fi : Nat → I2CInst → I2CInst) (fl : Nat → LRInst → LRInst) (fb : Nat → BSInst → BSInst)
    (k : Nat) : (s.mapScope sc fi fl fb).lrs[k]? =
      s.lrs[k]?.map fun x => if sc.has (.lr k) x.cd then fl k x else x := by
  simp [State.mapScope, List.getElem?_mapIdx]

theorem State.mapScope_bs (fi : Nat → I2CInst → I2CInst) (fl : Nat → LRInst → LRInst) (fb : Nat → BSInst → BSInst)
    (k : Nat) : (s.mapScope sc fi fl fb).bss[k]? =
      s.bss[k]?.map fun x => if sc.has (.bs k) x.cd then fb k x else x := by
  simp [State.mapScope, List.getElem?_mapIdx]

/-- A scope-wide change neither adds nor removes an instance. -/
@[simp] theorem State.mapScope_ids (fi : Nat → I2CInst → I2CInst) (fl : Nat → LRInst → LRInst)
    (fb : Nat → BSInst → BSInst) : (s.mapScope sc fi fl fb).ids = s.ids := by
  simp [State.ids, State.mapScope]

/-- The clock-discipline records after a scope-wide change that treats them alike. -/
theorem State.mapScope_cd? {fi : Nat → I2CInst → I2CInst} {fl : Nat → LRInst → LRInst} {fb : Nat → BSInst → BSInst}
    (f : CD → CD) (hi : ∀ k x, (fi k x).cd = f x.cd) (hl : ∀ k x, (fl k x).cd = f x.cd)
    (hb : ∀ k x, (fb k x).cd = f x.cd) (id : InstId) :
    (s.mapScope sc fi fl fb).cd? id = (s.cd? id).map fun c => if sc.has id c then f c else c := by
  cases id with
  | i2c k =>
    simp only [State.cd?, State.mapScope_i2c, Option.map_map]
    congr 1; funext x; simp only [Function.comp]; split <;> simp_all
  | lr k =>
    simp only [State.cd?, State.mapScope_lr, Option.map_map]
    congr 1; funext x; simp only [Function.comp]; split <;> simp_all
  | bs k =>
    simp only [State.cd?, State.mapScope_bs, Option.map_map]
    congr 1; funext x; simp only [Function.comp]; split <;> simp_all

theorem State.mapCD_cd? (f : CD → CD) (id : InstId) :
    (s.mapCD sc f).cd? id = (s.cd? id).map fun c => if sc.has id c then f c else c :=
  State.mapScope_cd? f (fun _ _ => rfl) (fun _ _ => rfl) (fun _ _ => rfl) id

theorem State.driveClk_cd? (d : Nat) (v : Bool) (id : InstId) :
    (s.driveClk d v).cd? id = (s.cd? id).map fun c => if c.domain == d then c.driveClk v else c :=
  State.mapCD_cd? _ id

theorem State.evaluated_cd? (id : InstId) :
    (s.evaluated sc).cd? id = (s.cd? id).map fun c => if sc.has id c then c.evaluate else c :=
  State.mapScope_cd? CD.evaluate (fun _ _ => rfl) (fun _ _ => rfl) (fun _ _ => rfl) id

/-- An instance exists where its clock-discipline record does. -/
theorem State.mem_ids (id : InstId) : id ∈ s.ids ↔ (s.cd? id).isSome = true := by
  cases id <;> simp [State.ids, State.cd?]

/-- The instances of a scope. -/
theorem State.mem_inScope (id : InstId) : id ∈ s.inScope sc ↔ ∃ c, s.cd? id = some c ∧ sc.has id c = true := by
  simp only [State.inScope, List.mem_filter, State.mem_ids, Option.any_eq_true]
  constructor
  · rintro ⟨-, c, h, hc⟩; exact ⟨c, h, hc⟩
  · rintro ⟨c, h, hc⟩; exact ⟨by simp [h], c, h, hc⟩

/-- Two scope-wide changes in a row are one, where the first keeps every instance in or out of the scope. -/
theorem State.mapScope_mapScope {fi gi : Nat → I2CInst → I2CInst} {fl gl : Nat → LRInst → LRInst}
    {fb gb : Nat → BSInst → BSInst} (hi : ∀ k x, sc.has (.i2c k) (fi k x).cd = sc.has (.i2c k) x.cd)
    (hl : ∀ k x, sc.has (.lr k) (fl k x).cd = sc.has (.lr k) x.cd)
    (hb : ∀ k x, sc.has (.bs k) (fb k x).cd = sc.has (.bs k) x.cd) :
    (s.mapScope sc fi fl fb).mapScope sc gi gl gb =
      s.mapScope sc (fun k x => gi k (fi k x)) (fun k x => gl k (fl k x)) (fun k x => gb k (fb k x)) := by
  simp only [State.mapScope, State.withInsts, List.mapIdx_mapIdx]
  congr 1
  · congr 1; funext k x; simp only [Function.comp]
    by_cases h : sc.has (.i2c k) x.cd = true <;> simp [h, hi]
  · congr 1; funext k x; simp only [Function.comp]
    by_cases h : sc.has (.lr k) x.cd = true <;> simp [h, hl]
  · congr 1; funext k x; simp only [Function.comp]
    by_cases h : sc.has (.bs k) x.cd = true <;> simp [h, hb]

/-- A scope-wide change is fixed by what it does to the scope's instances. -/
theorem State.mapScope_congr {fi gi : Nat → I2CInst → I2CInst} {fl gl : Nat → LRInst → LRInst}
    {fb gb : Nat → BSInst → BSInst}
    (hi : ∀ k x, s.i2cs[k]? = some x → sc.has (.i2c k) x.cd = true → fi k x = gi k x)
    (hl : ∀ k x, s.lrs[k]? = some x → sc.has (.lr k) x.cd = true → fl k x = gl k x)
    (hb : ∀ k x, s.bss[k]? = some x → sc.has (.bs k) x.cd = true → fb k x = gb k x) :
    s.mapScope sc fi fl fb = s.mapScope sc gi gl gb := by
  simp only [State.mapScope, State.withInsts]
  congr 1
  · refine List.ext_getElem? fun k => ?_
    simp only [List.getElem?_mapIdx]
    cases h : s.i2cs[k]? with
    | none => rfl
    | some x => simp only [Option.map_some]; congr 1; split
                · exact hi k x h ‹_›
                · rfl
  · refine List.ext_getElem? fun k => ?_
    simp only [List.getElem?_mapIdx]
    cases h : s.lrs[k]? with
    | none => rfl
    | some x => simp only [Option.map_some]; congr 1; split
                · exact hl k x h ‹_›
                · rfl
  · refine List.ext_getElem? fun k => ?_
    simp only [List.getElem?_mapIdx]
    cases h : s.bss[k]? with
    | none => rfl
    | some x => simp only [Option.map_some]; congr 1; split
                · exact hb k x h ‹_›
                · rfl

/-! ### Outputs and inputs under a change of clock or pending set -/

/-- A scope-wide change that leaves parameters and registers alone leaves every output as it was (10_state.md R35). -/
theorem State.mapScope_output {fi : Nat → I2CInst → I2CInst} {fl : Nat → LRInst → LRInst}
    {fb : Nat → BSInst → BSInst} (hi : ∀ k x, (fi k x).params = x.params ∧ (fi k x).reg = x.reg)
    (hl : ∀ k x, (fl k x).reg = x.reg) (hb : ∀ k x, (fb k x).reg = x.reg) (id : InstId) (p : OutPort) :
    (s.mapScope sc fi fl fb).output id p = s.output id p := by
  cases id with
  | i2c k =>
    simp only [State.output, State.mapScope_i2c, Option.bind_map]
    congr 1; funext x; simp only [Function.comp]
    split
    · cases p <;> simp [I2CInst.output, (hi k x).1, (hi k x).2]
    · rfl
  | lr k =>
    simp only [State.output, State.mapScope_lr, Option.bind_map]
    congr 1; funext x; simp only [Function.comp]
    split
    · cases p <;> simp [LRInst.output, hl k x]
    · rfl
  | bs k =>
    simp only [State.output, State.mapScope_bs, Option.bind_map]
    congr 1; funext x; simp only [Function.comp]
    split
    · cases p <;> simp [BSInst.output, hb k x]
    · rfl

/-- What the wires drive depends on the wires and the outputs. -/
theorem State.wireValues_congr {id : InstId} (hw : t.wires = s.wires) (ho : ∀ id p, t.output id p = s.output id p) :
    t.wireValues id = s.wireValues id := by simp [State.wireValues, State.wiresInto, hw, ho]

/-- With no wire onto an instance nothing is driven. -/
theorem State.wireValues_unwired {id : InstId} (h : s.wiresInto id = []) : s.wireValues id = [] := by
  simp [State.wireValues, h]

/-- A wire held since the evaluation that sampled it drives what it drove then. -/
theorem State.heldValues_sampled {id : InstId} : s.heldValues id (s.wireValues id) = s.wireValues id := by
  have key : ∀ ws : List Wire, ∀ f : Wire → Option Nat, ∀ w v, w ∈ ws → f w = some v →
      (ws.filterMap fun w => (f w).map fun v => (w, v)).lookup w = some v := by
    intro ws f w v hw hv
    induction ws with
    | nil => cases hw
    | cons u us ih =>
      by_cases h : w = u
      · subst h; simp [hv]
      · have hw' : w ∈ us := by simpa [h] using hw
        cases hu : f u with
        | none => simpa [hu] using ih hw'
        | some a => simpa [hu, List.lookup_cons, show (w == u) = false by simp [h]] using ih hw'
  refine (List.map_congr_left ?_).trans (List.map_id _)
  rintro ⟨w, v⟩ hu
  simp only [State.wireValues, List.mem_filterMap, Option.map_eq_some_iff] at hu
  obtain ⟨w', hw, a, ha, he⟩ := hu
  cases he
  have := key (s.wiresInto id) (fun w => s.output w.src w.srcPort) w v hw ha
  simp only [State.wireValues, this, Option.getD_some, id_eq]

/-- The inputs of an I2C instance depend on the wires, the outputs and what the host drives. -/
theorem State.i2cInputs_congr {k : Nat} {x y : I2CInst} (hw : t.wires = s.wires)
    (ho : ∀ id p, t.output id p = s.output id p) (hp : y.params = x.params) (hi : y.inp = x.inp) :
    t.i2cInputs k y = s.i2cInputs k x := by
  simp [State.i2cInputs, I2CInst.inputs, State.wireValues_congr hw ho, hp, hi]

/-- The inputs of an LR instance depend on the wires, the outputs and what the host drives. -/
theorem State.lrInputs_congr {k : Nat} {x y : LRInst} (hw : t.wires = s.wires)
    (ho : ∀ id p, t.output id p = s.output id p) (hp : y.params = x.params) (hi : y.inp = x.inp) :
    t.lrInputs k y = s.lrInputs k x := by
  simp [State.lrInputs, LRInst.inputs, State.wireValues_congr hw ho, hp, hi]

/-- The inputs of a BS instance depend on the wires, the outputs and what the host drives. -/
theorem State.bsInputs_congr {k : Nat} {x y : BSInst} (hw : t.wires = s.wires)
    (ho : ∀ id p, t.output id p = s.output id p) (hi : y.inp = x.inp) :
    t.bsInputs k y = s.bsInputs k x := by
  simp [State.bsInputs, BSInst.inputs, State.wireValues_congr hw ho, hi]

/-- With no wire onto it an I2C instance reads what the host drives, at the ports' widths. -/
theorem State.i2cInputs_unwired {k : Nat} {x : I2CInst} (h : s.wiresInto (.i2c k) = []) :
    s.i2cInputs k x = x.inp.atWidth x.params := by simp [State.i2cInputs, I2CInst.inputs, State.wireValues_unwired h]

/-- With no wire onto it an LR instance reads what the host drives, at the ports' widths. -/
theorem State.lrInputs_unwired {k : Nat} {x : LRInst} (h : s.wiresInto (.lr k) = []) :
    s.lrInputs k x = x.inp.atWidth x.params := by simp [State.lrInputs, LRInst.inputs, State.wireValues_unwired h]

/-- With no wire onto it a BS instance reads what the host drives. -/
theorem State.bsInputs_unwired {k : Nat} {x : BSInst} (h : s.wiresInto (.bs k) = []) :
    s.bsInputs k x = x.inp := by simp [State.bsInputs, BSInst.inputs, State.wireValues_unwired h]

end Sys2Proof.Machine
end

