-- ==== Sys2Proof/Laws/Discipline.lean ====
section
/-! SUPPORT. What an evaluation, a commit and a cycle can do, said once. -/

namespace Sys2Proof.Machine

variable {s t : State} {sc : Scope}

/-- An evaluation that answers: no instance of the scope is blocked, and either the pending sets of the scope are fresh, or
the harness found one that differs and ended the run (60_exceptions.md R262). -/
theorem evaluate_next (h : evaluate sc s = .next t) :
    (∀ id ∈ s.inScope sc, s.blocked id = none) ∧
      ((t = s.evaluated sc ∧ ∀ id ∈ s.inScope sc, (s.checking && s.diverges id) = false) ∨
        ∃ id ∈ s.inScope sc, s.checking = true ∧ s.diverges id = true ∧ t = s.raise id) := by
  unfold evaluate at h
  split at h
  · cases h
  · rename_i hb
    refine ⟨by simpa [List.findSome?_eq_none_iff] using hb, ?_⟩
    split at h
    · rename_i id hf
      cases h
      have hd := List.find?_some hf
      simp only [Bool.and_eq_true] at hd
      exact .inr ⟨id, List.mem_of_find?_eq_some hf, hd.1, hd.2, rfl⟩
    · rename_i hf
      cases h
      exact .inl ⟨rfl, by simpa [List.find?_eq_none] using hf⟩

/-- An evaluation answers with the fresh pending sets where nothing is blocked and nothing diverges. -/
theorem evaluate_eq (hb : ∀ id ∈ s.inScope sc, s.blocked id = none)
    (hd : ∀ id ∈ s.inScope sc, (s.checking && s.diverges id) = false) :
    evaluate sc s = .next (s.evaluated sc) := by
  have h1 : (s.inScope sc).findSome? s.blocked = none := by simpa [List.findSome?_eq_none_iff] using hb
  have h2 : (s.inScope sc).find? (fun id => s.checking && s.diverges id) = none := by
    simpa [List.find?_eq_none] using hd
  simp [evaluate, h1, h2]

/-- An instance is not blocked where it was reset, its parameters and image are in order and, where it detects an edge,
its wires come from reset instances and none is a same-edge path. -/
theorem State.blocked_none {id : InstId} {c : CD} (hc : s.cd? id = some c) (hr : c.wasReset = true)
    (hp : s.paramsOk id = true) (hm : s.imageFor id = true)
    (hw : ∀ w ∈ s.wiresInto id, c.rising = true → s.sourceReset w = true)
    (he : ∀ w ∈ s.wiresInto id, s.sameEdge c w = false) : s.blocked id = none := by
  have h1 : (s.wiresInto id).find? (fun w => c.rising && !s.sourceReset w) = none := by
    rw [List.find?_eq_none]; intro w hw'; simpa using hw w hw'
  have h2 : (s.wiresInto id).find? (s.sameEdge c) = none := by
    rw [List.find?_eq_none]; intro w hw'; simpa using he w hw'
  simp [State.blocked, hc, hr, hp, hm, h1, h2]

/-- What a same-edge path is: an instance with an edge still to evaluate, and a source that has overtaken it there
(40_clock_discipline.md R154). -/
theorem State.sameEdge_iff {c : CD} {w : Wire} : s.sameEdge c w = true ↔
    c.prevClk = false ∧ c.clk = true ∧ c.fresh = false ∧ ⟨w.src, w.dst⟩ ∈ s.overtaken := by
  simp [State.sameEdge, CD.owes, CD.rising, and_assoc]

/-- What a commit overtakes: a source of the scope that consumes the present edge, and ANOTHER instance of its clock domain
that still has the edge to evaluate after the commit. -/
theorem State.mem_overtakes {a b : InstId} : ⟨a, b⟩ ∈ s.overtakes sc ↔
    b ≠ a ∧ ∃ ca cb, s.cd? a = some ca ∧ s.cd? b = some cb ∧ sc.has a ca = true ∧ ca.commitsEdge = true ∧
      cb.domain = ca.domain ∧ cb.owes = true ∧ (sc.has b cb && cb.closes) = false := by
  simp only [State.overtakes, List.mem_flatMap, State.mem_inScope]
  constructor
  · rintro ⟨x, ⟨ca, hca, hs⟩, h⟩
    simp only [hca] at h
    split at h
    · simp only [State.overtakenBy, List.mem_map, List.mem_filter, State.mem_ids, Overtaken.mk.injEq] at h
      obtain ⟨y, ⟨-, h⟩, rfl, rfl⟩ := h
      simp only [Bool.and_eq_true, bne_iff_ne, Option.any_eq_true, beq_iff_eq, Bool.not_eq_true'] at h
      obtain ⟨hne, cb, hcb, ⟨h1, h2⟩, h3⟩ := h
      exact ⟨hne, ca, cb, hca, hcb, hs, by assumption, h1, h2, h3⟩
    · cases h
  · rintro ⟨hne, ca, cb, hca, hcb, hs, he, h1, h2, h3⟩
    refine ⟨a, ⟨ca, hca, hs⟩, ?_⟩
    simp only [hca, he, if_true, State.overtakenBy, List.mem_map, List.mem_filter, State.mem_ids]
    exact ⟨b, ⟨by simp [hcb], by simp only [hcb, Option.any_some]; simp [hne, h1, h2, h3]⟩, rfl⟩

/-- Committing a whole clock domain of which every instance was evaluated overtakes none. -/
theorem State.overtakes_none (h : ∀ id c, s.cd? id = some c → sc.has id c = true → c.commitsEdge = true →
    ∀ id' c', s.cd? id' = some c' → c'.domain = c.domain → c'.owes = false) : s.overtakes sc = [] := by
  rw [List.eq_nil_iff_forall_not_mem]
  rintro ⟨a, b⟩ hab
  obtain ⟨-, ca, cb, hca, hcb, hs, he, hd, ho, -⟩ := State.mem_overtakes.mp hab
  simp [h a ca hca hs he b cb hcb hd] at ho

/-- What an unblocked instance is. -/
theorem State.of_blocked_none {id : InstId} (h : s.blocked id = none) :
    ∃ c, s.cd? id = some c ∧ c.wasReset = true ∧ s.paramsOk id = true ∧ s.imageFor id = true ∧
      (∀ w ∈ s.wiresInto id, c.rising = true → s.sourceReset w = true) ∧
      ∀ w ∈ s.wiresInto id, s.sameEdge c w = false := by
  unfold State.blocked at h
  split at h
  · cases h
  · rename_i c hc
    refine ⟨c, hc, ?_⟩
    split at h
    · cases h
    split at h
    · cases h
    split at h
    · cases h
    split at h
    · cases h
    rename_i hf
    split at h
    · cases h
    rename_i hg
    simp_all [List.find?_eq_none]

/-- An instance with nothing pending does not diverge (40_clock_discipline.md R144). -/
theorem State.not_diverges {id : InstId} {c : CD} (hc : s.cd? id = some c) (hp : c.pendClk = none) :
    s.diverges id = false := by
  cases id with
  | i2c k =>
    simp only [State.cd?, Option.map_eq_some_iff] at hc
    obtain ⟨x, hx, rfl⟩ := hc
    simp [State.diverges, I2CInst.differs, hx, hp]
  | lr k =>
    simp only [State.cd?, Option.map_eq_some_iff] at hc
    obtain ⟨x, hx, rfl⟩ := hc
    simp [State.diverges, LRInst.differs, hx, hp]
  | bs k =>
    simp only [State.cd?, Option.map_eq_some_iff] at hc
    obtain ⟨x, hx, rfl⟩ := hc
    simp [State.diverges, BSInst.differs, hx, hp]

/-- An instance with nothing pending is settled: its commit has nothing to check (40_clock_discipline.md R145). -/
theorem State.not_unsettled {id : InstId} {c : CD} (hc : s.cd? id = some c) (hp : c.pendClk = none) :
    s.unsettled id = false := by
  cases id with
  | i2c k =>
    simp only [State.cd?, Option.map_eq_some_iff] at hc
    obtain ⟨x, hx, rfl⟩ := hc
    simp [State.unsettled, I2CInst.differs, hx, hp]
  | lr k =>
    simp only [State.cd?, Option.map_eq_some_iff] at hc
    obtain ⟨x, hx, rfl⟩ := hc
    simp [State.unsettled, LRInst.differs, hx, hp]
  | bs k =>
    simp only [State.cd?, Option.map_eq_some_iff] at hc
    obtain ⟨x, hx, rfl⟩ := hc
    simp [State.unsettled, BSInst.differs, hx, hp]

theorem State.evaluated_i2c (k : Nat) : (s.evaluated sc).i2cs[k]? = s.i2cs[k]?.map fun x =>
    if sc.has (.i2c k) x.cd then { x.evaluate (s.i2cInputs k x) with sampled := s.wireValues (.i2c k) } else x :=
  State.mapScope_i2c (fun k x => { x.evaluate (s.i2cInputs k x) with sampled := s.wireValues (.i2c k) })
    (fun k x => { x.evaluate s.mem (s.lrInputs k x) with sampled := s.wireValues (.lr k) })
    (fun k x => { x.evaluate s.mem (s.bsInputs k x) with sampled := s.wireValues (.bs k) }) k

theorem State.evaluated_lr (k : Nat) : (s.evaluated sc).lrs[k]? = s.lrs[k]?.map fun x =>
    if sc.has (.lr k) x.cd then { x.evaluate s.mem (s.lrInputs k x) with sampled := s.wireValues (.lr k) } else x :=
  State.mapScope_lr (fun k x => { x.evaluate (s.i2cInputs k x) with sampled := s.wireValues (.i2c k) })
    (fun k x => { x.evaluate s.mem (s.lrInputs k x) with sampled := s.wireValues (.lr k) })
    (fun k x => { x.evaluate s.mem (s.bsInputs k x) with sampled := s.wireValues (.bs k) }) k

theorem State.evaluated_bs (k : Nat) : (s.evaluated sc).bss[k]? = s.bss[k]?.map fun x =>
    if sc.has (.bs k) x.cd then { x.evaluate s.mem (s.bsInputs k x) with sampled := s.wireValues (.bs k) } else x :=
  State.mapScope_bs (fun k x => { x.evaluate (s.i2cInputs k x) with sampled := s.wireValues (.i2c k) })
    (fun k x => { x.evaluate s.mem (s.lrInputs k x) with sampled := s.wireValues (.lr k) })
    (fun k x => { x.evaluate s.mem (s.bsInputs k x) with sampled := s.wireValues (.bs k) }) k

/-- No evaluation changes an output (R143). -/
theorem State.evaluated_output (id : InstId) (p : OutPort) : (s.evaluated sc).output id p = s.output id p :=
  State.mapScope_output (fi := fun k x => { x.evaluate (s.i2cInputs k x) with sampled := s.wireValues (.i2c k) })
    (fl := fun k x => { x.evaluate s.mem (s.lrInputs k x) with sampled := s.wireValues (.lr k) })
    (fb := fun k x => { x.evaluate s.mem (s.bsInputs k x) with sampled := s.wireValues (.bs k) })
    (fun _ _ => ⟨rfl, rfl⟩) (fun _ _ => rfl) (fun _ _ => rfl) id p

/-- No evaluation changes what the wires drive. -/
theorem State.evaluated_wireValues (id : InstId) : (s.evaluated sc).wireValues id = s.wireValues id :=
  State.wireValues_congr rfl State.evaluated_output

/-- An instance evaluated with its present inputs does not differ from what it evaluated to (R144). -/
@[simp] theorem I2CInst.evaluate_differs (x : I2CInst) (i : I2CIn) (us : List (Wire × Nat)) :
    ({ x.evaluate i with sampled := us } : I2CInst).differs i = false := by
  simp [I2CInst.differs, I2CInst.pendingSet, CD.rising]

/-- The same for an LR instance. -/
@[simp] theorem LRInst.evaluate_differs (m : Memory) (x : LRInst) (i : LRIn) (us : List (Wire × Nat)) :
    ({ x.evaluate m i with sampled := us } : LRInst).differs m i = false := by
  simp [LRInst.differs, LRInst.pendingSet, CD.rising]

/-- The same for a BS instance. -/
@[simp] theorem BSInst.evaluate_differs (m : Memory) (x : BSInst) (i : BSIn) (us : List (Wire × Nat)) :
    ({ x.evaluate m i with sampled := us } : BSInst).differs m i = false := by
  simp [BSInst.differs, BSInst.pendingSet, CD.rising]

/-- A commit right after the evaluation finds nothing to report (60_exceptions.md R263): with one host the check before a
commit can fail only after a change of an input in between. -/
theorem State.evaluated_settled {id : InstId} {c : CD} (hc : s.cd? id = some c) (hs : sc.has id c = true) :
    (s.evaluated sc).unsettled id = false := by
  cases id with
  | i2c k =>
    simp only [State.cd?, Option.map_eq_some_iff] at hc
    obtain ⟨x, hx, rfl⟩ := hc
    have h : (s.evaluated sc).i2cs[k]? = some { x.evaluate (s.i2cInputs k x) with sampled := s.wireValues (.i2c k) } := by
      simp [State.evaluated_i2c, hx, hs]
    simp only [State.unsettled, h, Option.any_some, State.i2cHeld]
    rw [← State.evaluated_wireValues (sc := sc), State.heldValues_sampled, State.evaluated_wireValues]
    exact I2CInst.evaluate_differs x (s.i2cInputs k x) _
  | lr k =>
    simp only [State.cd?, Option.map_eq_some_iff] at hc
    obtain ⟨x, hx, rfl⟩ := hc
    have h : (s.evaluated sc).lrs[k]? =
        some { x.evaluate s.mem (s.lrInputs k x) with sampled := s.wireValues (.lr k) } := by
      simp [State.evaluated_lr, hx, hs]
    simp only [State.unsettled, h, Option.any_some, State.lrHeld]
    rw [← State.evaluated_wireValues (sc := sc), State.heldValues_sampled, State.evaluated_wireValues]
    exact LRInst.evaluate_differs s.mem x (s.lrInputs k x) _
  | bs k =>
    simp only [State.cd?, Option.map_eq_some_iff] at hc
    obtain ⟨x, hx, rfl⟩ := hc
    have h : (s.evaluated sc).bss[k]? =
        some { x.evaluate s.mem (s.bsInputs k x) with sampled := s.wireValues (.bs k) } := by
      simp [State.evaluated_bs, hx, hs]
    simp only [State.unsettled, h, Option.any_some, State.bsHeld]
    rw [← State.evaluated_wireValues (sc := sc), State.heldValues_sampled, State.evaluated_wireValues]
    exact BSInst.evaluate_differs s.mem x (s.bsInputs k x) _

/-- What HOST.COMMIT answers: the commit, or the end of the run where the harness checks and the pending set differs from
what the inputs at the ports give (60_exceptions.md R262). -/
theorem commitChecked_next {id : InstId} (h : commitChecked id s = .next t) :
    ((s.checking = false ∨ s.unsettled id = false) ∧ t = s.committed (.one id)) ∨
      (s.checking = true ∧ s.unsettled id = true ∧ t = s.raise id) := by
  unfold commitChecked at h
  cases h
  cases hc : s.checking <;> cases hu : s.unsettled id <;> simp

/-- A commit that is not checked, or whose check finds nothing. -/
theorem commitChecked_eq {id : InstId} (h : s.checking = false ∨ s.unsettled id = false) :
    commitChecked id s = .next (s.committed (.one id)) := by
  rcases h with h | h <;> simp [commitChecked, h]

/-- A frame of every evaluation that answers: image, wires, check and script stay. -/
theorem evaluate_frame (h : evaluate sc s = .next t) :
    t.mem = s.mem ∧ t.wires = s.wires ∧ t.checking = s.checking ∧ t.script = s.script := by
  rcases (evaluate_next h).2 with ⟨rfl, -⟩ | ⟨id, -, -, -, rfl⟩ <;> simp

/-- What a settling loop keeps: a property that every evaluation and commit of the scope keeps. -/
theorem settle_keeps {P : State → Prop} (he : ∀ u v, P u → evaluate sc u = .next v → P v)
    (hc : ∀ u, P u → P (u.committed sc)) (fuel : Nat) :
    ∀ u v, P u → settle sc fuel u = .next v → P v := by
  induction fuel with
  | zero => intro u v hu h; cases h; exact hu
  | succ n ih =>
    intro u v hu h
    obtain ⟨w, hw, h | ⟨-, h⟩⟩ := andThen_next h
    · rw [h.2]; exact he u w hu hw
    · have hw' := hc w (he u w hu hw)
      simp only at h
      split at h
      · exact ih _ _ hw' h
      · cases h; exact hw'

/-- What a cycle keeps: a property that driving the clock, evaluating and committing keep. -/
theorem cycle_keeps {P : State → Prop} {d : Nat} (hd : ∀ u v, P u → P (u.driveClk d v))
    (he : ∀ u v, P u → evaluate (.domain d) u = .next v → P v) (hc : ∀ u, P u → P (u.committed (.domain d)))
    (hs : P s) (h : cycle d s = .next t) : P t := by
  obtain ⟨u, hu, h | ⟨-, h⟩⟩ := andThen_next h
  · rw [h.2]; exact settle_keeps he hc 2 _ _ (hd _ _ hs) hu
  · have hu' := settle_keeps he hc 2 _ _ (hd _ _ hs) hu
    obtain ⟨w, hw, h | ⟨-, h⟩⟩ := andThen_next h
    · rw [h.2]; exact he _ _ (hd _ _ hu') hw
    · cases h; exact hc _ (he _ _ (hd _ _ hu') hw)

end Sys2Proof.Machine
end

