-- ==== Sys2Proof/Laws/Cycle.lean ====
section
/-! SUPPORT. The host's cycle (40_clock_discipline.md R151) from a state at rest is one tick of every instance of the
clock domain (R142, R152). The cycle's states are named by what the clock-discipline records hold in them. -/

namespace Sys2Proof.Machine

variable {s u : State} {d : Nat}

/-! ### Records through a scope-wide change -/

/-- What a scope-wide change does to an instance's clock-discipline record: in the scope what `R` says, else nothing. -/
theorem State.mapScope_cd?_rel {sc : Scope} {fi : Nat → I2CInst → I2CInst} {fl : Nat → LRInst → LRInst}
    {fb : Nat → BSInst → BSInst} {R : CD → CD → Prop}
    (hi : ∀ k x, s.i2cs[k]? = some x → sc.has (.i2c k) x.cd = true → R x.cd (fi k x).cd)
    (hl : ∀ k x, s.lrs[k]? = some x → sc.has (.lr k) x.cd = true → R x.cd (fl k x).cd)
    (hb : ∀ k x, s.bss[k]? = some x → sc.has (.bs k) x.cd = true → R x.cd (fb k x).cd) (id : InstId) :
    Option.Rel (fun c c' => (sc.has id c = true ∧ R c c') ∨ (sc.has id c = false ∧ c' = c)) (s.cd? id)
      ((s.mapScope sc fi fl fb).cd? id) := by
  cases id with
  | i2c k =>
    simp only [State.cd?, State.mapScope_i2c]
    cases hx : s.i2cs[k]? with
    | none => exact .none
    | some x =>
      refine .some ?_
      by_cases h : sc.has (.i2c k) x.cd = true
      · simp [h, hi k x hx h]
      · simp [h]
  | lr k =>
    simp only [State.cd?, State.mapScope_lr]
    cases hx : s.lrs[k]? with
    | none => exact .none
    | some x =>
      refine .some ?_
      by_cases h : sc.has (.lr k) x.cd = true
      · simp [h, hl k x hx h]
      · simp [h]
  | bs k =>
    simp only [State.cd?, State.mapScope_bs]
    cases hx : s.bss[k]? with
    | none => exact .none
    | some x =>
      refine .some ?_
      by_cases h : sc.has (.bs k) x.cd = true
      · simp [h, hb k x hx h]
      · simp [h]

/-- An instance's parameters survive a scope-wide change that keeps them. -/
theorem State.mapScope_paramsOk {sc : Scope} {fi : Nat → I2CInst → I2CInst} {fl : Nat → LRInst → LRInst}
    {fb : Nat → BSInst → BSInst} (hi : ∀ k x, (fi k x).params = x.params) (hl : ∀ k x, (fl k x).params = x.params)
    (id : InstId) : (s.mapScope sc fi fl fb).paramsOk id = s.paramsOk id := by
  cases id with
  | i2c k =>
    simp only [State.paramsOk, State.mapScope_i2c]
    cases s.i2cs[k]? with
    | none => rfl
    | some x => simp only [Option.map_some, Option.all_some]; split <;> simp only [hi]
  | lr k =>
    simp only [State.paramsOk, State.mapScope_lr]
    cases s.lrs[k]? with
    | none => rfl
    | some x => simp only [Option.map_some, Option.all_some]; split <;> simp only [hl]
  | bs k => rfl

/-! ### States in which the domain can be evaluated -/

/-- Every instance of the domain can be evaluated and none has an uncommitted pending set. -/
structure State.Calm (d : Nat) (s : State) : Prop where
  run : s.nonconv = none
  inst : ∀ id c, s.cd? id = some c → c.domain = d →
    c.wasReset = true ∧ c.pendClk = none ∧ s.paramsOk id = true ∧ s.imageFor id = true ∧
      (s.wiresInto id).all s.sourceReset = true
  free : ∀ o ∈ s.overtaken, ∀ c, s.cd? o.dst = some c → c.domain ≠ d

theorem State.Calm.evaluate_eq (h : s.Calm d) : evaluate (.domain d) s = .next (s.evaluated (.domain d)) := by
  refine Machine.evaluate_eq ?_ ?_
  · intro id hid
    obtain ⟨c, hc, hd⟩ := (State.mem_inScope id).mp hid
    have hd : c.domain = d := by simpa [Scope.has] using hd
    obtain ⟨h1, -, h3, h4, h5⟩ := h.inst id c hc hd
    refine State.blocked_none hc h1 h3 h4 (fun w hw _ => List.all_eq_true.mp h5 w hw) fun w hw => ?_
    rw [Bool.eq_false_iff]
    intro he
    have hwd : w.dst = id := by simpa [State.wiresInto] using (List.mem_filter.mp hw).2
    exact h.free _ (State.sameEdge_iff.mp he).2.2.2 c (by simpa [hwd] using hc) hd
  · intro id hid
    obtain ⟨c, hc, hd⟩ := (State.mem_inScope id).mp hid
    have hd : c.domain = d := by simpa [Scope.has] using hd
    simp [State.not_diverges hc (h.inst id c hc hd).2.1]

/-- A whole clock domain evaluated and committed, where none of it was overtaken: each instance commits its pending set, and
none overtakes another. -/
theorem State.evaluated_committed (h : ∀ o ∈ s.overtaken, ∀ c, s.cd? o.dst = some c → c.domain ≠ d) :
    (s.evaluated (.domain d)).committed (.domain d) =
      (s.mapScope (.domain d)
        (fun k x => I2CInst.commit { x.evaluate (s.i2cInputs k x) with sampled := s.wireValues (.i2c k) })
        (fun k x => LRInst.commit { x.evaluate s.mem (s.lrInputs k x) with sampled := s.wireValues (.lr k) })
        (fun k x => BSInst.commit
          { x.evaluate s.mem (s.bsInputs k x) with sampled := s.wireValues (.bs k) })).withStarted := by
  have h1 : (s.evaluated (.domain d)).overtakenBut (fun id c => (Scope.domain d).has id c && c.closes) = s.overtaken := by
    refine List.filter_eq_self.mpr fun o ho => ?_
    have := h o ho
    rw [State.evaluated_cd?]
    cases hc : s.cd? o.dst with
    | none => rfl
    | some c => simp [Scope.has, this c hc]
  have h2 : (s.evaluated (.domain d)).overtakes (.domain d) = [] := by
    refine State.overtakes_none fun id c hc hs _ id' c' hc' hd => ?_
    have hs : c.domain = d := by simpa [Scope.has] using hs
    rw [State.evaluated_cd?, Option.map_eq_some_iff] at hc'
    obtain ⟨c₀, -, rfl⟩ := hc'
    by_cases hb : c₀.domain = d
    · simp [Scope.has, hb, CD.owes]
    · simp [Scope.has, hb] at hd; exact absurd (hd.trans hs) hb
  unfold State.committed
  rw [h1, h2, List.append_nil]
  show (((s.mapScope (.domain d)
    (fun k x => { x.evaluate (s.i2cInputs k x) with sampled := s.wireValues (.i2c k) })
    (fun k x => { x.evaluate s.mem (s.lrInputs k x) with sampled := s.wireValues (.lr k) })
    (fun k x => { x.evaluate s.mem (s.bsInputs k x) with sampled := s.wireValues (.bs k) })).mapScope (.domain d)
      (fun _ x => x.commit) (fun _ x => x.commit) (fun _ x => x.commit)).withStarted).withOvertaken s.overtaken = _
  rw [State.mapScope_mapScope (by intros; rfl) (by intros; rfl) (by intros; rfl)]
  rfl

/-- A domain-wide change of a state whose instances are in order gives a calm state, where it leaves nothing pending and no
instance of the domain overtaken. -/
theorem State.Calm.of_mapScope {fi : Nat → I2CInst → I2CInst} {fl : Nat → LRInst → LRInst}
    {fb : Nat → BSInst → BSInst} {R : CD → CD → Prop} {os : List Overtaken}
    (hi : ∀ k x, s.i2cs[k]? = some x → x.cd.domain = d → R x.cd (fi k x).cd)
    (hl : ∀ k x, s.lrs[k]? = some x → x.cd.domain = d → R x.cd (fl k x).cd)
    (hb : ∀ k x, s.bss[k]? = some x → x.cd.domain = d → R x.cd (fb k x).cd)
    (hip : ∀ k x, (fi k x).params = x.params) (hlp : ∀ k x, (fl k x).params = x.params)
    (hR : ∀ c c', R c c' → c'.domain = c.domain ∧ c'.wasReset = c.wasReset ∧ c'.pendClk = none)
    (ho : ∀ o ∈ os, ∀ c, s.cd? o.dst = some c → c.domain ≠ d)
    (hn : s.nonconv = none)
    (hs : ∀ id c, s.cd? id = some c → c.domain = d → c.wasReset = true ∧ s.paramsOk id = true ∧
      s.imageFor id = true ∧ (s.wiresInto id).all s.sourceReset = true) :
    ((s.mapScope (.domain d) fi fl fb).withOvertaken os).Calm d := by
  have hrel := fun id => State.mapScope_cd?_rel (s := s) (sc := .domain d) (fi := fi) (fl := fl) (fb := fb) (R := R)
    (by simpa [Scope.has] using hi) (by simpa [Scope.has] using hl) (by simpa [Scope.has] using hb) id
  have back : ∀ id c', (s.mapScope (.domain d) fi fl fb).cd? id = some c' →
      ∃ c, s.cd? id = some c ∧ c'.domain = c.domain ∧ c'.wasReset = c.wasReset ∧ (c.domain = d → R c c') := by
    intro id c' hc'
    have hr := hrel id
    rw [hc'] at hr
    cases hsc : s.cd? id with
    | none => rw [hsc] at hr; cases hr
    | some c =>
      rw [hsc] at hr
      cases hr with
      | some hh =>
        rcases hh with ⟨-, h2⟩ | ⟨h1, rfl⟩
        · exact ⟨c, rfl, (hR _ _ h2).1, (hR _ _ h2).2.1, fun _ => h2⟩
        · exact ⟨_, rfl, rfl, rfl, fun hd => by simp [Scope.has, hd] at h1⟩
  have forth : ∀ id c, s.cd? id = some c →
      ∃ c', (s.mapScope (.domain d) fi fl fb).cd? id = some c' ∧ c'.wasReset = c.wasReset := by
    intro id c hc
    have hr := hrel id
    rw [hc] at hr
    cases hsc : (s.mapScope (.domain d) fi fl fb).cd? id with
    | none => rw [hsc] at hr; cases hr
    | some c' =>
      obtain ⟨c2, h1, -, h3, -⟩ := back id c' hsc
      rw [hc] at h1; cases h1
      exact ⟨c', rfl, h3⟩
  refine ⟨hn, ?_, ?_⟩
  · intro id c' hc' hd
    obtain ⟨c, hc, h1, h2, h3⟩ := back id c' hc'
    have hcd : c.domain = d := h1 ▸ hd
    obtain ⟨g1, g2, g3, g4⟩ := hs id c hc hcd
    refine ⟨h2 ▸ g1, (hR _ _ (h3 hcd)).2.2, ?_, ?_, ?_⟩
    · show (s.mapScope (.domain d) fi fl fb).paramsOk id = true
      rw [State.mapScope_paramsOk hip hlp]; exact g2
    · cases id <;> exact g3
    · rw [List.all_eq_true] at g4 ⊢
      intro w hw
      have := g4 w hw
      simp only [State.sourceReset, Option.any_eq_true] at this ⊢
      obtain ⟨a, ha, hr⟩ := this
      obtain ⟨a', ha', hr'⟩ := forth _ _ ha
      exact ⟨a', ha', hr'.trans hr⟩
  · intro o hos c' hc'
    obtain ⟨c, hc, h1, -, -⟩ := back _ c' hc'
    rw [h1]
    exact ho o hos c hc

theorem State.Calm.withStarted (h : s.Calm d) : s.withStarted.Calm d := ⟨h.run, h.inst, h.free⟩

/-! ### The states of a cycle -/

/-- clk driven to 1 (R151 step 1). -/
def CD.raised (c : CD) : CD := { c with clk := true, fresh := false }
/-- The rising edge evaluated and committed (steps 2 and 3). -/
def CD.edgeDone (c : CD) : CD := { c with clk := true, prevClk := true, pendClk := none, fresh := false, changed := true }
/-- The repetition of step 4, which changed nothing (R152). -/
def CD.settled (c : CD) : CD := { c.edgeDone with changed := false }
/-- clk driven to 0 (step 5). -/
def CD.lowered (c : CD) : CD := { c.settled with clk := false }

/-- The domain ticked once, its records in the cycle's phase `f`. -/
def State.inPhase (f : CD → CD) (s : State) (d : Nat) : State :=
  (s.mapScope (.domain d) (fun k x => { x.tick (s.i2cInputs k x) with cd := f x.cd })
    (fun k x => { x.tick s.mem (s.lrInputs k x) with cd := f x.cd })
    (fun k x => { x.tick s.mem (s.bsInputs k x) with cd := f x.cd })).withOvertaken
      (s.overtakenBut fun _ c => c.domain == d)

/-- clk driven to 1 before anything is evaluated. -/
def State.raised (s : State) (d : Nat) : State :=
  (s.mapCD (.domain d) CD.raised).withOvertaken (s.overtakenBut fun _ c => c.domain == d)

/-- Who is overtaken outside a domain. -/
theorem State.overtakenBut_domain : ∀ o ∈ s.overtakenBut fun _ c => c.domain == d,
    ∀ c, s.cd? o.dst = some c → c.domain ≠ d := by
  intro o ho c hc
  have := (List.mem_filter.mp ho).2
  simpa [hc] using this

@[simp] theorem State.raised_mem : (s.raised d).mem = s.mem := rfl

/-- What an instance at rest is. -/
theorem State.rested_iff {id : InstId} {c : CD} (hc : s.cd? id = some c) (h : s.rested id = true) :
    (c.wasReset = true ∧ s.paramsOk id = true ∧ s.imageFor id = true ∧ (s.wiresInto id).all s.sourceReset = true) ∧
      c.clk = false ∧ c.prevClk = false ∧ c.pendClk = none := by
  simp only [State.rested, hc, Option.any_some, Bool.and_eq_true, Bool.not_eq_true', Option.isNone_iff_eq_none] at h
  tauto

/-- What a domain at rest is. -/
theorem State.of_ready (h : s.ready d = true) : s.nonconv = none ∧
    ∀ id c, s.cd? id = some c → c.domain = d → (c.wasReset = true ∧ s.paramsOk id = true ∧ s.imageFor id = true ∧
      (s.wiresInto id).all s.sourceReset = true) ∧ c.clk = false ∧ c.prevClk = false ∧ c.pendClk = none := by
  simp only [State.ready, Bool.and_eq_true, Option.isNone_iff_eq_none, List.all_eq_true] at h
  exact ⟨h.1, fun id c hc hd =>
    State.rested_iff hc (h.2 id ((State.mem_inScope id).mpr ⟨c, hc, by simp [Scope.has, hd]⟩))⟩

/-- Step 1. -/
theorem State.driveClk_ready (h : s.ready d = true) : s.driveClk d true = s.raised d := by
  have hr := (State.of_ready h).2
  have ho : (s.overtakenBut fun _ c => c.domain == d && c.clk != true) = s.overtakenBut fun _ c => c.domain == d := by
    refine List.filter_congr fun o _ => ?_
    cases hc : s.cd? o.dst with
    | none => rfl
    | some c =>
      by_cases hd : c.domain = d
      · simp [hd, (hr _ c hc hd).2.1]
      · simp [hd]
  have hm : s.mapCD (.domain d) (CD.driveClk true) = s.mapCD (.domain d) CD.raised := by
    refine State.mapScope_congr ?_ ?_ ?_
    · intro k x hx hd
      have := (hr (.i2c k) x.cd (by simp [State.cd?, hx]) (by simpa [Scope.has] using hd)).2.1
      simp [CD.driveClk, CD.raised, this]
    · intro k x hx hd
      have := (hr (.lr k) x.cd (by simp [State.cd?, hx]) (by simpa [Scope.has] using hd)).2.1
      simp [CD.driveClk, CD.raised, this]
    · intro k x hx hd
      have := (hr (.bs k) x.cd (by simp [State.cd?, hx]) (by simpa [Scope.has] using hd)).2.1
      simp [CD.driveClk, CD.raised, this]
  rw [State.driveClk, State.raised, ho, hm]

/-- Steps 2 and 3 on the rising edge. -/
theorem State.raised_committed (h : s.ready d = true) :
    ((s.raised d).evaluated (.domain d)).committed (.domain d) = (s.inPhase CD.edgeDone d).withStarted := by
  have hr := (State.of_ready h).2
  have ho : ∀ id p, (s.raised d).output id p = s.output id p :=
    State.mapScope_output (fun _ _ => ⟨rfl, rfl⟩) (fun _ _ => rfl) (fun _ _ => rfl)
  have hc : ∀ id, (s.raised d).cd? id = (s.cd? id).map fun c => if c.domain == d then c.raised else c :=
    State.mapCD_cd? _
  rw [State.evaluated_committed (s := s.raised d) fun o hos c hc' => by
    rw [hc, Option.map_eq_some_iff] at hc'
    obtain ⟨c₀, h₀, rfl⟩ := hc'
    simp [State.overtakenBut_domain o hos c₀ h₀]]
  show (((s.mapCD (.domain d) CD.raised).mapScope (.domain d) _ _ _).withOvertaken _).withStarted = _
  unfold State.mapCD
  rw [State.mapScope_mapScope (by intros; rfl) (by intros; rfl) (by intros; rfl)]
  unfold State.inPhase
  congr 2
  refine State.mapScope_congr ?_ ?_ ?_
  · intro k x hx hd
    have hp := (hr (.i2c k) x.cd (by simp [State.cd?, hx]) (by simpa [Scope.has] using hd)).2.2.1
    have := State.i2cInputs_congr (s := s) (t := s.raised d) (k := k) (x := x) (y := { x with cd := x.cd.raised }) rfl
      ho rfl rfl
    simp only [I2CInst.commit, I2CInst.evaluate, this]
    simp [CD.rising, hp, CD.commit, CD.evaluate, CD.raised, CD.edgeDone, I2CInst.tick]
  · intro k x hx hd
    have hp := (hr (.lr k) x.cd (by simp [State.cd?, hx]) (by simpa [Scope.has] using hd)).2.2.1
    have := State.lrInputs_congr (s := s) (t := s.raised d) (k := k) (x := x) (y := { x with cd := x.cd.raised }) rfl
      ho rfl rfl
    simp only [LRInst.commit, LRInst.evaluate, this]
    simp [CD.rising, hp, CD.commit, CD.evaluate, CD.raised, CD.edgeDone, LRInst.tick]
  · intro k x hx hd
    have hp := (hr (.bs k) x.cd (by simp [State.cd?, hx]) (by simpa [Scope.has] using hd)).2.2.1
    have := State.bsInputs_congr (s := s) (t := s.raised d) (k := k) (x := x) (y := { x with cd := x.cd.raised }) rfl
      ho rfl
    simp only [BSInst.commit, BSInst.evaluate, this]
    simp [CD.rising, hp, CD.commit, CD.evaluate, CD.raised, CD.edgeDone, BSInst.tick]

/-- The records in a phase of the cycle. -/
theorem State.inPhase_cd? {f : CD → CD} (id : InstId) :
    (s.inPhase f d).cd? id = (s.cd? id).map fun c => if c.domain == d then f c else c :=
  State.mapScope_cd? f (fun _ _ => rfl) (fun _ _ => rfl) (fun _ _ => rfl) id

/-- In a phase of the cycle no instance of the domain is overtaken. -/
theorem State.inPhase_free {f : CD → CD} :
    ∀ o ∈ (s.inPhase f d).overtaken, ∀ c, (s.inPhase f d).cd? o.dst = some c → c.domain ≠ d := by
  intro o ho c hc
  rw [State.inPhase_cd?, Option.map_eq_some_iff] at hc
  obtain ⟨c₀, h₀, rfl⟩ := hc
  simp [State.overtakenBut_domain o ho c₀ h₀]

/-- An evaluation with no rising edge, committed: only the clock-discipline records change (R147). -/
theorem State.inPhase_committed {f g : CD → CD} (hd : ∀ c, (f c).domain = c.domain) (hf : ∀ c, (f c).rising = false)
    (hg : ∀ c, ((f c).evaluate).commit false = g c) :
    ((s.inPhase f d).withStarted.evaluated (.domain d)).committed (.domain d) = (s.inPhase g d).withStarted := by
  rw [State.evaluated_committed (s := (s.inPhase f d).withStarted) State.inPhase_free]
  show (((s.mapScope (.domain d) _ _ _).mapScope (.domain d) _ _ _).withOvertaken _).withStarted = _
  rw [State.mapScope_mapScope (by intros; simp [Scope.has, hd]) (by intros; simp [Scope.has, hd])
      (by intros; simp [Scope.has, hd])]
  unfold State.inPhase
  congr 2
  refine State.mapScope_congr ?_ ?_ ?_ <;> intro k x _ _
  · simp [I2CInst.commit, I2CInst.evaluate, hf, ← hg, I2CInst.tick, appendConsumed]
  · simp [LRInst.commit, LRInst.evaluate, hf, ← hg, LRInst.tick]
  · simp [BSInst.commit, BSInst.evaluate, hf, ← hg, BSInst.tick]

/-- Step 5. -/
theorem State.settled_lowered : (s.inPhase CD.settled d).withStarted.driveClk d false =
    (s.inPhase CD.lowered d).withStarted := by
  have ho : ((s.inPhase CD.settled d).overtakenBut fun _ c => c.domain == d && c.clk != false) =
      s.overtakenBut fun _ c => c.domain == d := by
    refine List.filter_eq_self.mpr fun o hos => ?_
    have := State.inPhase_free (s := s) (d := d) (f := CD.settled) o hos
    cases hc : (s.inPhase CD.settled d).cd? o.dst with
    | none => rfl
    | some c => simp [this c hc]
  show (((s.mapScope (.domain d) _ _ _).mapScope (.domain d) _ _ _).withOvertaken
    ((s.inPhase CD.settled d).overtakenBut fun _ c => c.domain == d && c.clk != false)).withStarted = _
  rw [State.mapScope_mapScope (by intros; rfl) (by intros; rfl) (by intros; rfl), ho]
  rfl

/-- A phase of the cycle with nothing pending is calm. -/
theorem State.inPhase_calm {f : CD → CD} (hf : ∀ c, (f c).domain = c.domain ∧ (f c).wasReset = c.wasReset ∧
    (f c).pendClk = none) (h : s.ready d = true) : (s.inPhase f d).withStarted.Calm d := by
  refine State.Calm.withStarted (State.Calm.of_mapScope (R := fun c c' => c' = f c) (fun _ _ _ _ => rfl)
    (fun _ _ _ _ => rfl) (fun _ _ _ _ => rfl) (fun _ _ => rfl) (fun _ _ => rfl) ?_ State.overtakenBut_domain
    (State.of_ready h).1 fun id c hc hd => ((State.of_ready h).2 id c hc hd).1)
  rintro c _ rfl; exact hf c

/-- The domain with clk driven to 1 from rest is calm. -/
theorem State.raised_calm (h : s.ready d = true) : (s.raised d).Calm d := by
  have hr := (State.of_ready h).2
  refine State.Calm.of_mapScope (R := fun c c' => c' = c.raised ∧ c.pendClk = none) ?_ ?_ ?_ (fun _ _ => rfl)
    (fun _ _ => rfl) ?_ State.overtakenBut_domain (State.of_ready h).1 fun id c hc hd => (hr id c hc hd).1
  · intro k x hx hd; exact ⟨rfl, (hr (.i2c k) x.cd (by simp [State.cd?, hx]) hd).2.2.2⟩
  · intro k x hx hd; exact ⟨rfl, (hr (.lr k) x.cd (by simp [State.cd?, hx]) hd).2.2.2⟩
  · intro k x hx hd; exact ⟨rfl, (hr (.bs k) x.cd (by simp [State.cd?, hx]) hd).2.2.2⟩
  · rintro c _ ⟨rfl, h⟩; exact ⟨rfl, rfl, h⟩

/-- After the rising edge some commit of the domain returned `changed = 1`: prev_clk rose. -/
theorem State.edgeDone_anyChanged (hk : s.inScope (.domain d) ≠ []) :
    (s.inPhase CD.edgeDone d).withStarted.anyChanged (.domain d) = true := by
  obtain ⟨id, hid⟩ := List.exists_mem_of_ne_nil _ hk
  obtain ⟨c, hc, hd⟩ := (State.mem_inScope id).mp hid
  have hcc : (s.inPhase CD.edgeDone d).withStarted.cd? id = some c.edgeDone := by
    show (s.inPhase CD.edgeDone d).cd? id = _
    rw [State.inPhase_cd?, hc]
    simp [show c.domain = d by simpa [Scope.has] using hd]
  simp only [State.anyChanged, List.any_eq_true]
  exact ⟨id, (State.mem_inScope id).mpr ⟨_, hcc, hd⟩, by simp [hcc, CD.edgeDone]⟩

/-- THE CYCLE: from rest, a clock cycle of a domain with an instance in it ticks every instance of the domain once
(R142, R151, R152). -/
theorem cycle_ready (h : s.ready d = true) (hk : s.inScope (.domain d) ≠ []) : cycle d s = .next (s.ticked d) := by
  have hn := (State.of_ready h).1
  have e3 : ((s.inPhase CD.edgeDone d).withStarted.evaluated (.domain d)).committed (.domain d) =
      (s.inPhase CD.settled d).withStarted := State.inPhase_committed (fun _ => rfl) (fun _ => rfl) (fun _ => rfl)
  have e5 : ((s.inPhase CD.lowered d).withStarted.evaluated (.domain d)).committed (.domain d) = s.ticked d :=
    State.inPhase_committed (fun _ => rfl) (fun _ => rfl) (fun _ => rfl)
  have c2 : (s.inPhase CD.edgeDone d).withStarted.Calm d :=
    State.inPhase_calm (fun _ => ⟨rfl, rfl, rfl⟩) h
  have c4 : (s.inPhase CD.lowered d).withStarted.Calm d :=
    State.inPhase_calm (fun _ => ⟨rfl, rfl, rfl⟩) h
  have round2 : settle (.domain d) 1 (s.inPhase CD.edgeDone d).withStarted =
      .next (s.inPhase CD.settled d).withStarted := by
    unfold settle
    rw [c2.evaluate_eq, andThen_running _ (by exact hn)]
    simp only [settle, e3, ite_self]
  have rounds : settle (.domain d) 2 (s.raised d) = .next (s.inPhase CD.settled d).withStarted := by
    unfold settle
    rw [(State.raised_calm h).evaluate_eq, andThen_running _ (by exact hn)]
    simp only [State.raised_committed h, State.edgeDone_anyChanged hk, if_true, round2]
  unfold cycle
  rw [State.driveClk_ready h, rounds, andThen_running _ (by exact hn), State.settled_lowered, c4.evaluate_eq,
    andThen_running _ (by exact hn), e5]

end Sys2Proof.Machine
end

