-- ==== Sys2Proof/Laws/Rest.lean ====
section
/-! SUPPORT. The state between two cycles: driving an instance's inputs and ticking a domain keep a domain at rest, and
what each does to one instance. -/

namespace Sys2Proof.Machine

variable {s t : State} {d : Nat}

/-! ### Rest is kept -/

/-- A change of the instances that keeps parameters, and of each clock-discipline record what rest asks for, keeps a
domain at rest. -/
theorem State.ready_mapScope {sc : Scope} {fi : Nat → I2CInst → I2CInst} {fl : Nat → LRInst → LRInst}
    {fb : Nat → BSInst → BSInst} {R : CD → CD → Prop}
    (hi : ∀ k x, s.i2cs[k]? = some x → sc.has (.i2c k) x.cd = true → R x.cd (fi k x).cd)
    (hl : ∀ k x, s.lrs[k]? = some x → sc.has (.lr k) x.cd = true → R x.cd (fl k x).cd)
    (hb : ∀ k x, s.bss[k]? = some x → sc.has (.bs k) x.cd = true → R x.cd (fb k x).cd)
    (hip : ∀ k x, (fi k x).params = x.params) (hlp : ∀ k x, (fl k x).params = x.params)
    (hR : ∀ c c', R c c' → c'.domain = c.domain ∧ c'.wasReset = c.wasReset ∧
      (c.clk = false ∧ c.prevClk = false ∧ c.pendClk = none →
        c'.clk = false ∧ c'.prevClk = false ∧ c'.pendClk = none))
    (h : s.ready d = true) : (s.mapScope sc fi fl fb).ready d = true := by
  have hrel := fun id => State.mapScope_cd?_rel (s := s) (sc := sc) (fi := fi) (fl := fl) (fb := fb) (R := R) hi hl hb id
  have back : ∀ id c', (s.mapScope sc fi fl fb).cd? id = some c' → ∃ c, s.cd? id = some c ∧ (c' = c ∨ R c c') := by
    intro id c' hc'
    have hr := hrel id
    rw [hc'] at hr
    cases hsc : s.cd? id with
    | none => rw [hsc] at hr; cases hr
    | some c =>
      rw [hsc] at hr
      cases hr with
      | some hh =>
        rcases hh with ⟨-, h2⟩ | ⟨-, rfl⟩
        · exact ⟨c, rfl, .inr h2⟩
        · exact ⟨_, rfl, .inl rfl⟩
  have forth : ∀ id c, s.cd? id = some c →
      ∃ c', (s.mapScope sc fi fl fb).cd? id = some c' ∧ c'.wasReset = c.wasReset := by
    intro id c hc
    have hr := hrel id
    rw [hc] at hr
    cases hsc : (s.mapScope sc fi fl fb).cd? id with
    | none => rw [hsc] at hr; cases hr
    | some c' =>
      obtain ⟨c2, h1, h2⟩ := back id c' hsc
      rw [hc] at h1; cases h1
      refine ⟨c', rfl, ?_⟩
      rcases h2 with rfl | h2
      · rfl
      · exact (hR _ _ h2).2.1
  obtain ⟨hn, hr⟩ := State.of_ready h
  simp only [State.ready, Bool.and_eq_true, Option.isNone_iff_eq_none, List.all_eq_true]
  refine ⟨hn, fun id hid => ?_⟩
  obtain ⟨c', hc', hd⟩ := (State.mem_inScope id).mp hid
  have hd : c'.domain = d := by simpa [Scope.has] using hd
  obtain ⟨c, hc, hcc⟩ := back id c' hc'
  have hfacts : c.domain = d ∧ c'.wasReset = c.wasReset ∧
      (c.clk = false ∧ c.prevClk = false ∧ c.pendClk = none →
        c'.clk = false ∧ c'.prevClk = false ∧ c'.pendClk = none) := by
    rcases hcc with rfl | hcc
    · exact ⟨hd, rfl, fun h => h⟩
    · exact ⟨(hR _ _ hcc).1 ▸ hd, (hR _ _ hcc).2⟩
  obtain ⟨⟨g1, g2, g3, g4⟩, g5, g6, g7⟩ := hr id c hc hfacts.1
  obtain ⟨k1, k2, k3⟩ := hfacts.2.2 ⟨g5, g6, g7⟩
  have hp : (s.mapScope sc fi fl fb).paramsOk id = true := by rw [State.mapScope_paramsOk hip hlp]; exact g2
  have hm : (s.mapScope sc fi fl fb).imageFor id = true := by cases id <;> exact g3
  have hw : ((s.mapScope sc fi fl fb).wiresInto id).all (s.mapScope sc fi fl fb).sourceReset = true := by
    rw [List.all_eq_true] at g4 ⊢
    intro w hw
    have := g4 w hw
    simp only [State.sourceReset, Option.any_eq_true] at this ⊢
    obtain ⟨a, ha, hr⟩ := this
    obtain ⟨a', ha', hr'⟩ := forth _ _ ha
    exact ⟨a', ha', hr'.trans hr⟩
  simp [State.rested, hc', hp, hm, hw, hfacts.2.1, g1, k1, k2, k3]

theorem State.ready_setI2cIn {k : Nat} {i : I2CIn} (h : s.ready d = true) : (s.setI2cIn k i).ready d = true :=
  State.ready_mapScope (R := fun c c' => c' = c) (fun _ _ _ _ => rfl) (fun _ _ _ _ => rfl) (fun _ _ _ _ => rfl)
    (fun _ _ => rfl) (fun _ _ => rfl) (by rintro c _ rfl; exact ⟨rfl, rfl, id⟩) h

theorem State.ready_setLrIn {k : Nat} {i : LRIn} (h : s.ready d = true) : (s.setLrIn k i).ready d = true :=
  State.ready_mapScope (R := fun c c' => c' = c) (fun _ _ _ _ => rfl) (fun _ _ _ _ => rfl) (fun _ _ _ _ => rfl)
    (fun _ _ => rfl) (fun _ _ => rfl) (by rintro c _ rfl; exact ⟨rfl, rfl, id⟩) h

theorem State.ready_setBsIn {k : Nat} {i : BSIn} (h : s.ready d = true) : (s.setBsIn k i).ready d = true :=
  State.ready_mapScope (R := fun c c' => c' = c) (fun _ _ _ _ => rfl) (fun _ _ _ _ => rfl) (fun _ _ _ _ => rfl)
    (fun _ _ => rfl) (fun _ _ => rfl) (by rintro c _ rfl; exact ⟨rfl, rfl, id⟩) h

/-- A tick of a domain leaves every domain at rest that was. -/
theorem State.ready_ticked {e : Nat} (h : s.ready e = true) : (s.ticked d).ready e = true :=
  show (s.mapScope _ _ _ _).ready e = true from
  State.ready_mapScope (R := fun c c' => c' = c.afterCycle) (fun _ _ _ _ => rfl) (fun _ _ _ _ => rfl)
    (fun _ _ _ _ => rfl) (fun _ _ => rfl) (fun _ _ => rfl)
    (by rintro c _ rfl; exact ⟨rfl, rfl, fun _ => ⟨rfl, rfl, rfl⟩⟩) h

/-! ### One instance after driving and ticking -/

theorem State.ticked_i2c (k : Nat) : (s.ticked d).i2cs[k]? =
    s.i2cs[k]?.map fun x => if x.cd.domain == d then x.tick (s.i2cInputs k x) else x :=
  State.mapScope_i2c (fun k x => x.tick (s.i2cInputs k x)) (fun k x => x.tick s.mem (s.lrInputs k x))
    (fun k x => x.tick s.mem (s.bsInputs k x)) k

theorem State.ticked_lr (k : Nat) : (s.ticked d).lrs[k]? =
    s.lrs[k]?.map fun x => if x.cd.domain == d then x.tick s.mem (s.lrInputs k x) else x :=
  State.mapScope_lr (fun k x => x.tick (s.i2cInputs k x)) (fun k x => x.tick s.mem (s.lrInputs k x))
    (fun k x => x.tick s.mem (s.bsInputs k x)) k

theorem State.ticked_bs (k : Nat) : (s.ticked d).bss[k]? =
    s.bss[k]?.map fun x => if x.cd.domain == d then x.tick s.mem (s.bsInputs k x) else x :=
  State.mapScope_bs (fun k x => x.tick (s.i2cInputs k x)) (fun k x => x.tick s.mem (s.lrInputs k x))
    (fun k x => x.tick s.mem (s.bsInputs k x)) k

@[simp] theorem State.ticked_mem : (s.ticked d).mem = s.mem := rfl
@[simp] theorem State.ticked_wires : (s.ticked d).wires = s.wires := rfl
@[simp] theorem State.ticked_overtaken : (s.ticked d).overtaken = s.overtakenBut fun _ c => c.domain == d := rfl
@[simp] theorem State.ticked_nonconv : (s.ticked d).nonconv = s.nonconv := rfl
@[simp] theorem State.ticked_checking : (s.ticked d).checking = s.checking := rfl
@[simp] theorem State.ticked_script : (s.ticked d).script = s.script := rfl

theorem State.setI2cIn_i2c (k j : Nat) (i : I2CIn) : (s.setI2cIn k i).i2cs[j]? =
    s.i2cs[j]?.map fun x => if j = k then { x with inp := i } else x := by
  simp [State.setI2cIn, State.mapScope_i2c, Scope.has]
theorem State.setI2cIn_lr (k j : Nat) (i : I2CIn) : (s.setI2cIn k i).lrs[j]? = s.lrs[j]? := by
  simp [State.setI2cIn, State.mapScope_lr]
theorem State.setI2cIn_bs (k j : Nat) (i : I2CIn) : (s.setI2cIn k i).bss[j]? = s.bss[j]? := by
  simp [State.setI2cIn, State.mapScope_bs]

theorem State.setLrIn_lr (k j : Nat) (i : LRIn) : (s.setLrIn k i).lrs[j]? =
    s.lrs[j]?.map fun x => if j = k then { x with inp := i } else x := by
  simp [State.setLrIn, State.mapScope_lr, Scope.has]
theorem State.setLrIn_i2c (k j : Nat) (i : LRIn) : (s.setLrIn k i).i2cs[j]? = s.i2cs[j]? := by
  simp [State.setLrIn, State.mapScope_i2c]
theorem State.setLrIn_bs (k j : Nat) (i : LRIn) : (s.setLrIn k i).bss[j]? = s.bss[j]? := by
  simp [State.setLrIn, State.mapScope_bs]

theorem State.setBsIn_bs (k j : Nat) (i : BSIn) : (s.setBsIn k i).bss[j]? =
    s.bss[j]?.map fun x => if j = k then { x with inp := i } else x := by
  simp [State.setBsIn, State.mapScope_bs, Scope.has]
theorem State.setBsIn_i2c (k j : Nat) (i : BSIn) : (s.setBsIn k i).i2cs[j]? = s.i2cs[j]? := by
  simp [State.setBsIn, State.mapScope_i2c]
theorem State.setBsIn_lr (k j : Nat) (i : BSIn) : (s.setBsIn k i).lrs[j]? = s.lrs[j]? := by
  simp [State.setBsIn, State.mapScope_lr]

/-! ### The frame of a driven tick -/

theorem State.sameOutside_i2c {k : Nat} {i : I2CIn} {x : I2CInst} (hx : s.i2cs[k]? = some x) (hd : x.cd.domain = d) :
    s.sameOutside ((s.setI2cIn k i).ticked d) d := by
  refine ⟨fun _ => rfl, rfl, rfl, rfl, rfl, ?_, ?_, ?_⟩ <;> intro j y hy hyd
  · have : j ≠ k := by rintro rfl; rw [hx] at hy; cases hy; exact hyd hd
    simp [State.ticked_i2c, State.setI2cIn_i2c, hy, this, hyd]
  · simp [State.ticked_lr, State.setI2cIn_lr, hy, hyd]
  · simp [State.ticked_bs, State.setI2cIn_bs, hy, hyd]

theorem State.sameOutside_lr {k : Nat} {i : LRIn} {x : LRInst} (hx : s.lrs[k]? = some x) (hd : x.cd.domain = d) :
    s.sameOutside ((s.setLrIn k i).ticked d) d := by
  refine ⟨fun _ => rfl, rfl, rfl, rfl, rfl, ?_, ?_, ?_⟩ <;> intro j y hy hyd
  · simp [State.ticked_i2c, State.setLrIn_i2c, hy, hyd]
  · have : j ≠ k := by rintro rfl; rw [hx] at hy; cases hy; exact hyd hd
    simp [State.ticked_lr, State.setLrIn_lr, hy, this, hyd]
  · simp [State.ticked_bs, State.setLrIn_bs, hy, hyd]

theorem State.sameOutside_bs {k : Nat} {i : BSIn} {x : BSInst} (hx : s.bss[k]? = some x) (hd : x.cd.domain = d) :
    s.sameOutside ((s.setBsIn k i).ticked d) d := by
  refine ⟨fun _ => rfl, rfl, rfl, rfl, rfl, ?_, ?_, ?_⟩ <;> intro j y hy hyd
  · simp [State.ticked_i2c, State.setBsIn_i2c, hy, hyd]
  · simp [State.ticked_lr, State.setBsIn_lr, hy, hyd]
  · have : j ≠ k := by rintro rfl; rw [hx] at hy; cases hy; exact hyd hd
    simp [State.ticked_bs, State.setBsIn_bs, hy, this, hyd]

/-- Agreement outside a domain is transitive, where the domain keeps its instances. -/
theorem State.sameOutside.trans {u : State} (h1 : s.sameOutside t d) (h2 : t.sameOutside u d) : s.sameOutside u d := by
  obtain ⟨a1, a2, a3, a4, a5, a6, a7, a8⟩ := h1
  obtain ⟨b1, b2, b3, b4, b5, b6, b7, b8⟩ := h2
  exact ⟨fun a => (b1 a).trans (a1 a), b2.trans a2, b3.trans a3, b4.trans a4, b5.trans a5,
    fun k x h hd => b6 k x (a6 k x h hd) hd, fun k x h hd => b7 k x (a7 k x h hd) hd,
    fun k x h hd => b8 k x (a8 k x h hd) hd⟩

/-- An instance of a domain makes the domain's scope non-empty. -/
theorem State.inScope_ne_nil {id : InstId} {c : CD} (hc : s.cd? id = some c) (hd : c.domain = d) :
    s.inScope (.domain d) ≠ [] := by
  intro h
  have : id ∈ s.inScope (.domain d) := (State.mem_inScope id).mpr ⟨c, hc, by simp [Scope.has, hd]⟩
  rw [h] at this
  cases this

end Sys2Proof.Machine
end

