-- ==== Sys2Proof/Laws/Calls.lean ====
section
/-! SUPPORT. The host calls: what an evaluation, a commit, a reset and a raise do to one instance and leave alone. -/

namespace Sys2Proof.Machine

variable {s t : State} {sc : Scope} {id : InstId}

/-! ### One instance -/

theorem State.committed_i2c (k : Nat) : (s.committed sc).i2cs[k]? = s.i2cs[k]?.map fun x =>
    if sc.has (.i2c k) x.cd then x.commit else x :=
  State.mapScope_i2c (fun _ x => x.commit) (fun _ x => x.commit) (fun _ x => x.commit) k

theorem State.committed_lr (k : Nat) : (s.committed sc).lrs[k]? = s.lrs[k]?.map fun x =>
    if sc.has (.lr k) x.cd then x.commit else x :=
  State.mapScope_lr (fun _ x => x.commit) (fun _ x => x.commit) (fun _ x => x.commit) k

theorem State.committed_bs (k : Nat) : (s.committed sc).bss[k]? = s.bss[k]?.map fun x =>
    if sc.has (.bs k) x.cd then x.commit else x :=
  State.mapScope_bs (fun _ x => x.commit) (fun _ x => x.commit) (fun _ x => x.commit) k

theorem State.afterReset_i2c (k : Nat) : (s.afterReset sc).i2cs[k]? = s.i2cs[k]?.map fun x =>
    if sc.has (.i2c k) x.cd then x.afterReset else x :=
  State.mapScope_i2c (fun _ x => x.afterReset) (fun _ x => x.afterReset) (fun _ x => x.afterReset) k

theorem State.afterReset_lr (k : Nat) : (s.afterReset sc).lrs[k]? = s.lrs[k]?.map fun x =>
    if sc.has (.lr k) x.cd then x.afterReset else x :=
  State.mapScope_lr (fun _ x => x.afterReset) (fun _ x => x.afterReset) (fun _ x => x.afterReset) k

theorem State.afterReset_bs (k : Nat) : (s.afterReset sc).bss[k]? = s.bss[k]?.map fun x =>
    if sc.has (.bs k) x.cd then x.afterReset else x :=
  State.mapScope_bs (fun _ x => x.afterReset) (fun _ x => x.afterReset) (fun _ x => x.afterReset) k

theorem State.raise_i2c (k : Nat) : (s.raise id).i2cs[k]? = s.i2cs[k]?.map fun x =>
    if (Scope.one id).has (.i2c k) x.cd then { x with pend := {}, sampled := [], cd := x.cd.discard } else x :=
  State.mapScope_i2c (sc := .one id) (fun _ x => { x with pend := {}, sampled := [], cd := x.cd.discard })
    (fun _ x => { x with pend := {}, sampled := [], cd := x.cd.discard })
    (fun _ x => { x with pend := {}, sampled := [], cd := x.cd.discard }) k

theorem State.raise_lr (k : Nat) : (s.raise id).lrs[k]? = s.lrs[k]?.map fun x =>
    if (Scope.one id).has (.lr k) x.cd then { x with pend := {}, sampled := [], cd := x.cd.discard } else x :=
  State.mapScope_lr (sc := .one id) (fun _ x => { x with pend := {}, sampled := [], cd := x.cd.discard })
    (fun _ x => { x with pend := {}, sampled := [], cd := x.cd.discard })
    (fun _ x => { x with pend := {}, sampled := [], cd := x.cd.discard }) k

theorem State.raise_bs (k : Nat) : (s.raise id).bss[k]? = s.bss[k]?.map fun x =>
    if (Scope.one id).has (.bs k) x.cd then { x with pend := {}, sampled := [], cd := x.cd.discard } else x :=
  State.mapScope_bs (sc := .one id) (fun _ x => { x with pend := {}, sampled := [], cd := x.cd.discard })
    (fun _ x => { x with pend := {}, sampled := [], cd := x.cd.discard })
    (fun _ x => { x with pend := {}, sampled := [], cd := x.cd.discard }) k

/-! ### What a call on one instance leaves alone -/

theorem State.sameBut_mapScope {fi : Nat → I2CInst → I2CInst} {fl : Nat → LRInst → LRInst}
    {fb : Nat → BSInst → BSInst} : s.sameBut (s.mapScope (.one id) fi fl fb) id := by
  refine ⟨fun _ => rfl, rfl, rfl, rfl, rfl, ?_, ?_, ?_⟩ <;> intro k hk
  · rw [State.mapScope_i2c]; cases s.i2cs[k]? <;> simp [Scope.has, hk]
  · rw [State.mapScope_lr]; cases s.lrs[k]? <;> simp [Scope.has, hk]
  · rw [State.mapScope_bs]; cases s.bss[k]? <;> simp [Scope.has, hk]

theorem State.sameBut_evaluated : s.sameBut (s.evaluated (.one id)) id :=
  State.sameBut_mapScope (s := s) (id := id)
    (fi := fun k x => { x.evaluate (s.i2cInputs k x) with sampled := s.wireValues (.i2c k) })
    (fl := fun k x => { x.evaluate s.mem (s.lrInputs k x) with sampled := s.wireValues (.lr k) })
    (fb := fun k x => { x.evaluate s.mem (s.bsInputs k x) with sampled := s.wireValues (.bs k) })

theorem State.sameBut_committed : s.sameBut (s.committed (.one id)) id :=
  State.sameBut_mapScope (s := s) (id := id) (fi := fun _ x => x.commit) (fl := fun _ x => x.commit)
    (fb := fun _ x => x.commit)

theorem State.sameBut_afterReset : s.sameBut (s.afterReset (.one id)) id :=
  State.sameBut_mapScope (s := s) (id := id) (fi := fun _ x => x.afterReset) (fl := fun _ x => x.afterReset)
    (fb := fun _ x => x.afterReset)

theorem State.sameBut_raise : s.sameBut (s.raise id) id :=
  State.sameBut_mapScope (s := s) (id := id) (fi := fun _ x => { x with pend := {}, sampled := [], cd := x.cd.discard })
    (fl := fun _ x => { x with pend := {}, sampled := [], cd := x.cd.discard })
    (fb := fun _ x => { x with pend := {}, sampled := [], cd := x.cd.discard })

theorem State.sameBut.trans {u : State} (h1 : s.sameBut t id) (h2 : t.sameBut u id) : s.sameBut u id := by
  obtain ⟨a1, a2, a3, a4, a5, a6, a7, a8⟩ := h1
  obtain ⟨b1, b2, b3, b4, b5, b6, b7, b8⟩ := h2
  exact ⟨fun a => (b1 a).trans (a1 a), b2.trans a2, b3.trans a3, b4.trans a4, b5.trans a5,
    fun k h => (b6 k h).trans (a6 k h), fun k h => (b7 k h).trans (a7 k h), fun k h => (b8 k h).trans (a8 k h)⟩

/-! ### Calls that have a meaning -/

/-- A call on an instance that exists, in a run that goes on. -/
theorem onInst_eq {r : Result} (h : s.nonconv = none) (hc : (s.cd? id).isSome = true) : onInst id s r = r := by
  simp [onInst, guardRun, h, hc]

/-- A call that answers is on an instance that exists, in a run that goes on. -/
theorem onInst_next {r : Result} (h : onInst id s r = .next t) :
    s.nonconv = none ∧ (s.cd? id).isSome = true ∧ r = .next t := by
  obtain ⟨hn, h⟩ := guardRun_next h
  split at h
  · exact ⟨hn, by assumption, h⟩
  · cases h

/-- The scope of one instance is that instance. -/
theorem State.mem_inScope_one {c : CD} (hc : s.cd? id = some c) (j : InstId) : j ∈ s.inScope (.one id) ↔ j = id := by
  rw [State.mem_inScope]
  constructor
  · rintro ⟨_, -, h⟩; simpa [Scope.has] using h
  · rintro rfl; exact ⟨c, hc, by simp [Scope.has]⟩

/-- An instance that can be evaluated is not blocked. -/
theorem State.blocked_of_evaluable (h : s.evaluable id = true) : s.blocked id = none := by
  rw [State.evaluable, Option.any_eq_true] at h
  obtain ⟨c, hc, h⟩ := h
  simp only [Bool.and_eq_true, List.all_eq_true, Bool.not_eq_true'] at h
  obtain ⟨⟨⟨h1, h2⟩, h3⟩, h4⟩ := h
  refine State.blocked_none hc h1 h2 h3 (fun w hw hr => ?_) fun w hw => ?_
  · have := h4 w hw
    simp only [CD.rising, Bool.and_eq_true, Bool.not_eq_true'] at hr
    simp [hr] at this
    exact this.1
  · rw [Bool.eq_false_iff]
    intro he
    obtain ⟨k1, k2, k3, k4⟩ := State.sameEdge_iff.mp he
    have := h4 w hw
    simp [k1, k2, k3, k4] at this

/-- A commit that has nothing pending, or follows its evaluation with the inputs unchanged, completes (R145, 60_exceptions.md
R263). -/
theorem execHostCommit_eq (hn : s.nonconv = none) (hc : (s.cd? id).isSome = true)
    (h : s.checking = false ∨ s.unsettled id = false) :
    execHostCommit id s = .next (s.committed (.one id)) := by
  rw [execHostCommit, onInst_eq hn hc, commitChecked_eq h]

end Sys2Proof.Machine
end

