-- ==== Sys2Proof/Laws/Memory.lean ====
section
/-! SUPPORT. The image's canonical form, and what a read of it gives (20_memory.md R82). -/

namespace Sys2Proof.Machine

theorem cellsFrom_addresses (bs : List Byte) : ∀ a, (cellsFrom a bs).map (·.1) = List.range' a bs.length := by
  induction bs with
  | nil => intro a; rfl
  | cons b bs ih =>
    intro a
    show a :: (cellsFrom (a + 1) bs).map (·.1) = _
    rw [ih, List.length_cons, List.range'_succ]

/-- The one operation that builds an image gives a well-formed one from a content of the window's length. -/
theorem Memory.ofImage_imageOk (base : Nat) (content : List Byte) :
    (Memory.ofImage base content.length content).imageOk = true := by
  simp [Memory.imageOk, Memory.ofImage, cellsFrom_addresses]

/-- A well-formed image has the canonical form. -/
theorem Memory.imageOk_wf {m : Memory} (h : m.imageOk = true) : m.wf = true := by
  have h' : m.cells.map (·.1) = List.range' m.base m.len := by simpa [Memory.imageOk] using h
  simp only [Memory.wf, h', decide_eq_true_eq]
  exact List.pairwise_lt_range'

/-- Whatever the content, the image built has the canonical form. -/
theorem Memory.ofImage_wf (base len : Nat) (content : List Byte) : (Memory.ofImage base len content).wf = true := by
  simp only [Memory.wf, Memory.ofImage, cellsFrom_addresses, decide_eq_true_eq]
  exact List.pairwise_lt_range'

theorem State.reset_mem_wf : State.reset.mem.wf = true := by decide

theorem State.reset_mem_imageOk : State.reset.mem.imageOk = true := by decide

/-- Supplying an image keeps the image well formed. -/
theorem supplyImage_imageOk {base len : Nat} {content : List Byte} {s t : State}
    (h : supplyImage base len content s = .next t) : t.mem.imageOk = true := by
  unfold supplyImage at h
  split at h
  · cases h
  · split at h
    · cases h
    · rename_i hl
      have hl : content.length = len := by simpa using hl
      cases h
      subst hl
      exact Memory.ofImage_imageOk base content

theorem Memory.read_none_of_not_inWindow {m : Memory} {a : Nat} (h : m.inWindow a = false) : m.read a = none := by
  simp [Memory.read, h]

theorem Memory.inWindow_iff (m : Memory) (a : Nat) : m.inWindow a = true ↔ m.base ≤ a ∧ a < m.base + m.len := by
  simp [Memory.inWindow]

/-- In a well-formed image every window address holds a byte. -/
theorem Memory.read_isSome_of_inWindow {m : Memory} {a : Nat} (h : m.imageOk = true) (ha : m.inWindow a = true) :
    (m.read a).isSome = true := by
  have hc : m.cells.map (·.1) = List.range' m.base m.len := by simpa [Memory.imageOk] using h
  have hm : a ∈ m.cells.map (·.1) := by
    rw [hc, List.mem_range'_1]; exact (m.inWindow_iff a).mp ha
  obtain ⟨c, hc', rfl⟩ := List.mem_map.mp hm
  simp only [Memory.read, ha, if_true, Memory.cell?, Option.isSome_map, List.find?_isSome]
  exact ⟨c, hc', by simp⟩

/-- The byte at the `i`-th window address is the `i`-th byte supplied (R82). -/
theorem Memory.read_ofImage (content : List Byte) (base i : Nat) (hi : i < content.length) :
    (Memory.ofImage base content.length content).read (base + i) = some content[i] := by
  have key : ∀ (bs : List Byte) (b j : Nat) (hj : j < bs.length),
      ((cellsFrom b bs).find? fun c => c.1 == b + j).map (·.2) = some bs[j] := by
    intro bs
    induction bs with
    | nil => intro b j hj; simp at hj
    | cons x xs ih =>
      intro b j hj
      cases j with
      | zero => simp [cellsFrom]
      | succ j =>
        have := ih (b + 1) j (by simpa using hj)
        simpa [cellsFrom, List.find?_cons, Nat.add_assoc, Nat.add_comm 1 j] using this
  have hw : (Memory.ofImage base content.length content).inWindow (base + i) = true := by
    simp [Memory.inWindow, Memory.ofImage, hi]
  rw [Memory.read, if_pos hw]
  exact key content base i hi

end Sys2Proof.Machine
end

