-- ==== Sys2Proof/Laws/PerInstr.lean ====
section
/-! SUPPORT. Statements about every operation as syntax, one lemma a constructor: the line of an operation is well formed
(30_encoding.md R111 to R116, R120). -/

namespace Sys2Proof.Laws.EncodesWellFormed

/-- The line of the operation fits its format, is for an instance of the format's machine, and has no stray operand. -/
def Statement (i : Instr) : Prop := (encode i).wf = true

theorem i2cTick (k : Nat) (ack : Bool) (a b : Nat) : Statement (.i2cTick k ack a b) := by
  cases ack <;> rfl

theorem i2cStart (k : Nat) (we ore pub ack : Bool) (a b : Nat) : Statement (.i2cStart k we ore pub ack a b) := by
  cases we <;> cases ore <;> cases pub <;> cases ack <;> rfl

theorem i2cInWrite (k : Nat) (ore pub ack : Bool) (a b : Nat) : Statement (.i2cInWrite k ore pub ack a b) := by
  cases ore <;> cases pub <;> cases ack <;> rfl

theorem i2cOutRead (k : Nat) (pub ack : Bool) (a b : Nat) : Statement (.i2cOutRead k pub ack a b) := by
  cases pub <;> cases ack <;> rfl

theorem i2cOutPublish (k : Nat) (ack : Bool) (a b : Nat) : Statement (.i2cOutPublish k ack a b) := by
  cases ack <;> rfl

theorem lrTick (k a n : Nat) : Statement (.lrTick k a n) := rfl

theorem lrStart (k a n : Nat) : Statement (.lrStart k a n) := rfl

theorem bsTick (k : Nat) (cs si : Bool) : Statement (.bsTick k cs si) := by
  cases cs <;> cases si <;> rfl

theorem bsReleasePowerDown (k : Nat) : Statement (.bsReleasePowerDown k) := rfl

theorem bsRead (k : Nat) (addr : FrameAddr) : Statement (.bsRead k addr) := by
  have h : (readFrame addr).toNat < 2 ^ 32 := (readFrame addr).isLt
  have hf : (encode (.bsRead k addr)).fits = true := decide_eq_true h
  simp only [Statement, Line.wf, hf]
  rfl

theorem hostReset (id : InstId) : Statement (.hostReset id) := rfl

theorem hostEvaluate (id : InstId) : Statement (.hostEvaluate id) := rfl

theorem hostCommit (id : InstId) : Statement (.hostCommit id) := rfl

end Sys2Proof.Laws.EncodesWellFormed
end

