-- ==== Sys2Proof/Tests/Slice0.lean ====
section
/-! SUPPORT. Tests: ill-formed terms that the checks refuse, words written out from the spec's encodings, single steps with
the results of spec/95_test_vectors.md, and for each obligation with hypotheses a state and operands that meet them. -/

namespace Sys2Proof.Tests
open Sys2Proof Sys2Proof.Machine

/-! ### Small states -/

/-- The image of 95_test_vectors.md: window 0x100000, 16 bytes, byte `k` is `k`. -/
def flash : Memory := Memory.ofImage 0x100000 16 ((List.range 16).map (BitVec.ofNat 8))

/-- The reset system with that image. -/
def demo : State := State.reset.withMem flash

/-- The reset system with that image, its DUAL I2C instance holding these registers. -/
def dualAt (r : I2CReg) : State :=
  demo.mapScope (.one (.i2c 0)) (fun _ x => { x with reg := r }) (fun _ x => x) (fun _ x => x)

/-- The same for the SINGLE instance. -/
def singleAt (r : I2CReg) : State :=
  demo.mapScope (.one (.i2c 1)) (fun _ x => { x with reg := r }) (fun _ x => x) (fun _ x => x)

/-- The same for the linear reader. -/
def lrAt (r : LRReg) : State :=
  demo.mapScope (.one (.lr 0)) (fun _ x => x) (fun _ x => { x with reg := r }) (fun _ x => x)

/-- The same for the recognizer. -/
def bsAt (r : BSReg) : State :=
  demo.mapScope (.one (.bs 0)) (fun _ x => x) (fun _ x => x) (fun _ x => { x with reg := r })

def dual (r : I2CReg) : I2CInst := { I2CInst.initial (I2CParams.default .dual) 0 true with reg := r }
def single (r : I2CReg) : I2CInst := { I2CInst.initial (I2CParams.default .single) 1 true with reg := r }
def reader (r : LRReg) : LRInst := { LRInst.initial LRParams.default 2 true with reg := r }
def recognizer (r : BSReg) : BSInst := { BSInst.initial BSParams.default 3 true with reg := r }

/-- BUSY with a countdown. -/
def busyAt (n : Nat) : I2CReg := { I2CReg.reset with st := .busy, busy := true, cnt := n }
/-- READING at an address. -/
def readingAt (a n c : Nat) : LRReg := { LRReg.reset with st := .reading, busy := true, addr := a, rem := n, cnt := c }
/-- A recognizer's registers. -/
def bsReg (st : BSSt) (ec : Nat) (sr : Nat) : BSReg := { BSReg.reset with st := st, ec := ec, sr := sr }

/-- The registers of an instance after an operation. -/
def i2cAfter (k : Nat) (r : Result) : Option I2CReg :=
  match r with
  | .next t => t.i2cs[k]?.map (·.reg)
  | _ => none
def lrAfter (r : Result) : Option LRReg :=
  match r with
  | .next t => t.lrs[0]?.map (·.reg)
  | _ => none
def bsAfter (r : Result) : Option BSReg :=
  match r with
  | .next t => t.bss[0]?.map (·.reg)
  | _ => none
/-- The trace of an I2C instance after an operation. -/
def traceAfter (k : Nat) (r : Result) : Option (List TraceEvent) :=
  match r with
  | .next t => t.i2cs[k]?.map (·.trace)
  | _ => none

/-! ### Ill-formed terms -/

theorem test_wf_refuses_wide_i2c_vector : (Line.mk .i2cCtl (.i2c 0) 0x20#32 0 0).fits = false := by decide
theorem test_decode_refuses_wide_i2c_vector :
    decode ⟨.i2cCtl, .i2c 0, 0x20#32, 0, 0⟩ = .error (.vectorTooWide .i2cCtl) := by decide
theorem test_wf_refuses_wide_cmd8_frame : (Line.mk .cmd8 (.bs 0) 0x1AB#32 0 0).wf = false := by decide
theorem test_wf_refuses_wrong_unit : (Format.lrCtl.takes (.i2c 0)) = false := by decide
theorem test_decode_refuses_wrong_unit : decode ⟨.lrCtl, .i2c 0, 0#32, 0, 0⟩ = .error (.wrongUnit .lrCtl) := by decide
theorem test_wf_refuses_stray_operand : (Line.mk .bsWire (.bs 0) 2#32 1 0).wf = false := by decide
theorem test_decode_refuses_stray_operand :
    decode ⟨.host, .lr 0, 0#32, 0, 1⟩ = .error (.strayOperand .host) := by decide
theorem test_instr_wf_refuses_wide_in_data : (Instr.i2cInWrite 0 false false false 0x100 0).wf ⟨8, 8, 24, 8⟩ = false := by
  decide
theorem test_instr_wf_refuses_wide_out_data : (Instr.i2cOutPublish 0 false 0 0x100).wf ⟨8, 8, 24, 8⟩ = false := by decide
theorem test_instr_wf_refuses_wide_address : (Instr.lrStart 0 0x1000000 1).wf ⟨8, 8, 24, 8⟩ = false := by decide
theorem test_instr_wf_refuses_wide_length : (Instr.lrStart 0 0 0x100).wf ⟨8, 8, 24, 8⟩ = false := by decide
theorem test_image_of_wrong_length_is_ill_formed : (Memory.ofImage 0 2 [0#8]).imageOk = false := by decide
theorem test_cells_out_of_order_are_ill_formed : (Memory.mk 0 2 [(1, 0#8), (0, 0#8)]).wf = false := by decide
theorem test_timeout_zero_is_out_of_range : (I2CParams.mk .dual 0 8 8).ok = false := by decide
theorem test_single_widths_must_agree : (I2CParams.mk .single 5 8 9).ok = false := by decide

/-! ### Words from the spec's encodings (30_encoding.md R111, R113 to R116, R120) -/

theorem test_decode_i2c_tick : decode ⟨.i2cCtl, .i2c 0, 0b10000#32, 0, 0⟩ = .ok (.i2cTick 0 true 0 0) := by decide
theorem test_decode_i2c_start :
    decode ⟨.i2cCtl, .i2c 1, 0b11011#32, 0x21, 0x99⟩ = .ok (.i2cStart 1 true false true true 0x21 0x99) := by decide
theorem test_decode_i2c_in_write :
    decode ⟨.i2cCtl, .i2c 0, 0b00110#32, 0x5A, 0⟩ = .ok (.i2cInWrite 0 true false false 0x5A 0) := by decide
theorem test_decode_i2c_out_read :
    decode ⟨.i2cCtl, .i2c 0, 0b01100#32, 0, 0x44⟩ = .ok (.i2cOutRead 0 true false 0 0x44) := by decide
theorem test_decode_i2c_out_publish :
    decode ⟨.i2cCtl, .i2c 0, 0b01000#32, 0, 0x42⟩ = .ok (.i2cOutPublish 0 false 0 0x42) := by decide
theorem test_decode_lr_tick : decode ⟨.lrCtl, .lr 0, 0#32, 7, 9⟩ = .ok (.lrTick 0 7 9) := by decide
theorem test_decode_lr_start : decode ⟨.lrCtl, .lr 0, 1#32, 0x10000E, 4⟩ = .ok (.lrStart 0 0x10000E 4) := by decide
theorem test_decode_bs_tick_si : decode ⟨.bsWire, .bs 0, 0b01#32, 0, 0⟩ = .ok (.bsTick 0 false true) := by decide
theorem test_decode_bs_tick_cs : decode ⟨.bsWire, .bs 0, 0b10#32, 0, 0⟩ = .ok (.bsTick 0 true false) := by decide
theorem test_decode_release_power_down :
    decode ⟨.cmd8, .bs 0, 0b10101011#32, 0, 0⟩ = .ok (.bsReleasePowerDown 0) := by decide
theorem test_decode_read :
    decode ⟨.cmd32, .bs 0, 0b00000011000100000000000000001010#32, 0, 0⟩ = .ok (.bsRead 0 0x10000A#24) := by decide
theorem test_decode_host_reset : decode ⟨.host, .bs 2, 0b00#32, 0, 0⟩ = .ok (.hostReset (.bs 2)) := by decide
theorem test_decode_host_evaluate : decode ⟨.host, .i2c 0, 0b01#32, 0, 0⟩ = .ok (.hostEvaluate (.i2c 0)) := by decide
theorem test_decode_host_commit : decode ⟨.host, .lr 1, 0b10#32, 0, 0⟩ = .ok (.hostCommit (.lr 1)) := by decide
theorem test_decode_other_frame : decode ⟨.cmd8, .bs 0, 0xAA#32, 0, 0⟩ = .error (.unrecognisedFrame 8) := by decide
theorem test_table_word_read : decodeTableWord 32 0x0310000A = some (.bsRead 0 0x10000A#24) := by decide
theorem test_table_word_release_power_down : decodeTableWord 8 0xAB = some (.bsReleasePowerDown 0) := by decide
/-- X11: the bits of the two frames, first to last on the wire. -/
theorem test_frame_bits : msbFirst 8 rpdFrame = [true, false, true, false, true, false, true, true] := by decide

/-! ### Single steps (95_test_vectors.md) -/

/-- I-9: BUSY/2 with a waiting item. -/
theorem test_tick_consumes :
    i2cAfter 0 (exec (.i2cTick 0 false 0 0) (dualAt { busyAt 2 with inFull := true, inQ := 0x11, inReady := false })) =
      some { busyAt 4 with inQ := 0x11 } := by decide
/-- I-10: BUSY/1 with an empty slot. -/
theorem test_tick_expires :
    i2cAfter 0 (exec (.i2cTick 0 false 0 0) (dualAt (busyAt 1))) = some I2CReg.reset := by decide
/-- I-6: a start in IDLE does not consume. -/
theorem test_start_does_not_consume :
    i2cAfter 0 (exec (.i2cStart 0 false false false false 0 0)
      (dualAt { I2CReg.reset with inFull := true, inQ := 0x5A, inReady := false })) =
      some { busyAt 5 with inFull := true, inQ := 0x5A, inReady := false } := by decide
/-- I-14: every request at one edge. -/
theorem test_start_with_all_requests :
    i2cAfter 0 (exec (.i2cStart 0 true false true true 0x21 0x99) demo) =
      some { busyAt 5 with
        inFull := true, inQ := 0x21, inReady := false, outFull := true, outData := 0x99, outReady := true,
        ackOut := true } := by decide
/-- I-7: a write at the edge that consumes is refused. -/
theorem test_write_at_consuming_edge_is_refused :
    i2cAfter 0 (exec (.i2cInWrite 0 false false false 0x5C 0)
      (dualAt { busyAt 5 with inFull := true, inQ := 0x5A, inReady := false })) =
      some { busyAt 4 with inQ := 0x5A } := by decide
/-- I-11: a write at the expiring edge does not keep the transaction alive. -/
theorem test_write_at_expiring_edge :
    i2cAfter 0 (exec (.i2cInWrite 0 false false false 0x77 0) (dualAt (busyAt 1))) =
      some { I2CReg.reset with inFull := true, inQ := 0x77, inReady := false } := by decide
/-- I-3: a publish at the edge of a read overrides it. -/
theorem test_read_and_publish :
    i2cAfter 0 (exec (.i2cOutRead 0 true false 0 0x44)
      (dualAt { I2CReg.reset with outFull := true, outData := 0x43, outReady := true })) =
      some { I2CReg.reset with outFull := true, outData := 0x44, outReady := true } := by decide
/-- S-1: in SINGLE the reader and the controller both take the item. -/
theorem test_single_read_while_consuming :
    traceAfter 1 (exec (.i2cOutRead 1 false false 0 0) (singleAt { busyAt 3 with full := true, q := 0x33 })) =
      some [.consumed 0x33] := by decide
/-- I-2: a publish replaces the unread item. -/
theorem test_publish_overwrites :
    i2cAfter 0 (exec (.i2cOutPublish 0 false 0 0x43)
      (dualAt { I2CReg.reset with outFull := true, outData := 0x42, outReady := true })) =
      some { I2CReg.reset with outFull := true, outData := 0x43, outReady := true } := by decide
/-- S-2: in SINGLE the published item is never read-ready. -/
theorem test_single_publish_while_consuming :
    i2cAfter 1 (exec (.i2cOutPublish 1 false 0 0x44) (singleAt { busyAt 3 with full := true, q := 0x33 })) =
      some { busyAt 4 with q := 0x44 } := by decide
/-- X6, e6: the second byte. -/
theorem test_lr_emits :
    lrAfter (exec (.lrTick 0 0 0) (lrAt (readingAt 0x100001 3 0))) =
      some { readingAt 0x100002 2 2 with data := 0x01#8, valid := true } := by decide
/-- L-5, e9: past the window the fill byte. -/
theorem test_lr_fill :
    lrAfter (exec (.lrTick 0 0 0) (lrAt (readingAt 0x100010 2 0))) =
      some { readingAt 0x100011 1 2 with data := 0xFF#8, valid := true } := by decide
/-- X6, e0. -/
theorem test_lr_start : lrAfter (exec (.lrStart 0 0x100000 4) demo) = some (readingAt 0x100000 4 2) := by decide
/-- L-3: the first address past the window. -/
theorem test_lr_start_past_window :
    lrAfter (exec (.lrStart 0 0x100010 4) demo) = some { LRReg.reset with addr := 0x100010, rem := 4 } := by decide
/-- B-10: the capture edge. -/
theorem test_bs_capture :
    bsAfter (exec (.bsTick 0 true false) (bsAt (bsReg .spu 31 0x81880005))) =
      some { bsReg .reading 32 0x0310000A with raddr := 0x10000A, bidx := 1 } := by decide
/-- B-15: the deselect edge still puts out a data bit. -/
theorem test_bs_deselect_in_reading :
    bsAfter (exec (.bsTick 0 false false) (bsAt { bsReg .reading 40 0 with raddr := 0x10000A, bidx := 4 })) =
      some { BSReg.reset with raddr := 0x10000A, bidx := 5, so := true } := by decide
/-- R12, R223, R226: a recognizer with BS_SR_W = 16 and BS_ADDR_W = 8 takes the top byte of its 16 bits as the opcode and
the low byte as the address. -/
theorem test_bs_capture_at_other_widths :
    ((BSReg.reset.commit (bsTick ⟨0x0A, 1, [(0x0A, 0x80#8)]⟩
      { BSParams.default with rdEdge := 15, srW := 16, addrW := 8 } (bsReg .spu 15 0x8185) ⟨true, false⟩)).sr,
      (bsTick ⟨0x0A, 1, [(0x0A, 0x80#8)]⟩
        { BSParams.default with rdEdge := 15, srW := 16, addrW := 8 } (bsReg .spu 15 0x8185) ⟨true, false⟩).so,
      (bsTick ⟨0x0A, 1, [(0x0A, 0x80#8)]⟩
        { BSParams.default with rdEdge := 15, srW := 16, addrW := 8 } (bsReg .spu 15 0x8185) ⟨true, false⟩).raddr) =
      (0x030A, some true, some 0x0A) := by decide
/-- X8, e7. -/
theorem test_bs_release_power_down :
    bsAfter (exec (.bsReleasePowerDown 0) demo) = some (bsReg .spupd 8 0x000000AB) := by decide +kernel
/-- X8, e40: from DPU. -/
theorem test_bs_read :
    bsAfter (exec (.bsRead 0 0x10000A#24) (bsAt (bsReg .dpu 0 0x000000AB))) =
      some { bsReg .reading 32 0x0310000A with raddr := 0x10000A, bidx := 1 } := by decide +kernel
/-- L-8. -/
theorem test_host_reset :
    lrAfter (exec (.hostReset (.lr 0)) (lrAt { readingAt 0x100002 1 0 with valid := true, data := 1#8 })) =
      some LRReg.reset := by decide

/-- The state of H-1 step 2: start and clk driven on the DUAL instance. -/
def h1 : State :=
  (demo.setI2cIn 0 { I2CIn.zero with start := true }).driveClk 0 true

/-- The same after HOST.EVALUATE. -/
def h1Evaluated : State := h1.evaluated (.one (.i2c 0))

/-- H-1 step 2: the pending set. -/
theorem test_host_evaluate :
    (match exec (.hostEvaluate (.i2c 0)) h1 with
      | .next t => t.i2cs[0]?.map fun x => (x.reg, x.pend, x.cd.pendClk)
      | _ => none) =
      some (I2CReg.reset,
        { st := some .busy, cnt := some 5, busy := some true, ackOut := some false }, some true) := by decide
/-- H-1 step 3. -/
theorem test_host_commit :
    (match exec (.hostCommit (.i2c 0)) h1Evaluated with
      | .next t => t.i2cs[0]?.map fun x => (x.reg, x.cd.prevClk, x.cd.changed)
      | _ => none) = some (busyAt 5, true, true) := by decide
/-- H-3: the host changes `start` between the evaluations. -/
theorem test_non_convergence :
    (match exec (.hostEvaluate (.i2c 0)) (h1Evaluated.setI2cIn 0 I2CIn.zero) with
      | .next t => t.nonconv
      | _ => none) = some (.i2c 0) := by decide

/-- H-3 with no second evaluation by the host: the harness makes its own before the commit (60_exceptions.md R262). -/
theorem test_commit_after_changed_input :
    (match exec (.hostCommit (.i2c 0)) (h1Evaluated.setI2cIn 0 I2CIn.zero) with
      | .next t => (t.nonconv, t.i2cs[0]?.map (·.reg))
      | _ => (none, none)) = (some (.i2c 0), some I2CReg.reset) := by decide

/-! ### What meets the hypotheses of the obligations

Each theorem gives concrete terms that meet all hypotheses of the obligation it is named after together, with one theorem
or conjunct for each clause that has hypotheses of its own. -/

/-- The run goes on after an operation. -/
def runsOn (r : Result) : Bool :=
  match r with
  | .next t => t.nonconv.isNone
  | _ => false

theorem runsOn_spec {r : Result} (h : runsOn r = true) : ∃ t, r = .next t ∧ t.nonconv = none := by
  cases r with
  | next t => exact ⟨t, rfl, by simpa [runsOn] using h⟩
  | fault e => cases h
  | refused e => cases h

theorem answers {r : Result} (h : runsOn r = true) : ∃ t, r = .next t :=
  let ⟨t, ht, _⟩ := runsOn_spec h
  ⟨t, ht⟩

theorem rest_dual (r : I2CReg) : (dualAt r).restI2c 0 (dual r) := ⟨rfl, rfl, rfl⟩
theorem rest_single (r : I2CReg) : (singleAt r).restI2c 1 (single r) := ⟨rfl, rfl, rfl⟩
theorem rest_lr (r : LRReg) : (lrAt r).restLr 0 (reader r) := ⟨rfl, rfl, rfl⟩
theorem rest_bs (r : BSReg) : (bsAt r).restBs 0 (recognizer r) := ⟨rfl, rfl, rfl⟩

theorem witness_EncodeOfDecodedLineIsTheLine :
    decode ⟨.cmd32, .bs 0, 0x03FFFFFF#32, 0, 0⟩ = .ok (.bsRead 0 0xFFFFFF#24) := by decide
/-- One line for each of the four cases. -/
theorem witness_WellFormedLineDecodesOrIsNamed :
    (Line.mk .i2cCtl (.i2c 0) 31#32 3 4).wf = true ∧ (Line.mk .cmd8 (.bs 0) 0xFF#32 0 0).wf = true ∧
      (Line.mk .cmd32 (.bs 0) 0xFFFFFFFF#32 0 0).wf = true ∧ (Line.mk .host (.lr 0) 3#32 0 0).wf = true := by decide
/-- The largest vector of each format. -/
theorem witness_ControlVectorBitsAreTheDrivenInputs : (31#32).toNat < 32 ∧ (1#32).toNat < 2 ∧ (3#32).toNat < 4 := by
  decide
theorem witness_HostCallNumbersAreZeroOneTwo : State.reset.nonconv = none := rfl
/-- The smallest and the largest frame of each format, and frames that differ in one bit. -/
theorem witness_UnrecognisedFrameGoesOnTheWire :
    State.reset.nonconv = none ∧ ((0#32).toNat < 256 ∧ 0#32 ≠ 0xAB#32) ∧ ((0xAA#32).toNat < 256 ∧ 0xAA#32 ≠ 0xAB#32) ∧
      ((0xFF#32).toNat < 256 ∧ 0xFF#32 ≠ 0xAB#32) ∧ (0#32).extractLsb' 24 8 ≠ 0x03#8 ∧
      (0x0203FFFF#32).extractLsb' 24 8 ≠ 0x03#8 ∧ (0xFFFFFFFF#32).extractLsb' 24 8 ≠ 0x03#8 := by decide
theorem witness_StepRunsTheDecodedLine :
    let l : Line := ⟨.i2cCtl, .i2c 0, 1#32, 0, 0⟩
    let s := State.reset.withScript [.line l]
    s.nonconv = none ∧ s.script = [.line l] ∧ decode l = .ok (.i2cStart 0 false false false false 0 0) := by decide
theorem witness_IdleHostChangesNothingAndEndedRunFaults :
    (State.reset.nonconv = none ∧ State.reset.script = []) ∧
      (State.reset.raise (.i2c 0)).nonconv = some (.i2c 0) := by decide
theorem witness_LineIsOneTickOfItsClockDomain :
    (demo.i2cs[0]? = some (dual I2CReg.reset) ∧ demo.ready (dual I2CReg.reset).cd.domain = true) ∧
      (demo.lrs[0]? = some (reader LRReg.reset) ∧ demo.ready (reader LRReg.reset).cd.domain = true) ∧
      demo.bss[0]? = some (recognizer BSReg.reset) ∧ demo.ready (recognizer BSReg.reset).cd.domain = true := by decide
theorem witness_OperationLeavesOtherDomainsAlone :
    (demo.i2cs[0]? = some (dual I2CReg.reset) ∧ ∃ t, exec (I2CIn.zero.op 0) demo = .next t) ∧
      (demo.lrs[0]? = some (reader LRReg.reset) ∧ ∃ t, exec (LRIn.zero.op 0) demo = .next t) ∧
      demo.bss[0]? = some (recognizer BSReg.reset) ∧ ∃ t, exec (BSIn.zero.op 0) demo = .next t :=
  ⟨⟨rfl, answers (by decide)⟩, ⟨rfl, answers (by decide)⟩, rfl, answers (by decide)⟩

/-! I2C target controller -/

/-- With an item waiting (I-6). -/
theorem witness_StartInIdleEntersBusy :
    let r : I2CReg := { I2CReg.reset with inFull := true, inQ := 0x5A, inReady := false }
    (dualAt r).restI2c 0 (dual r) ∧ (dual r).reg.st = .idle ∧ (dual r).params.variant = .dual ∧
      (dual r).reg.inFull = true :=
  ⟨rest_dual _, rfl, rfl, rfl⟩
/-- The last conjunct meets the inner hypothesis: at countdown 1 the edge ends in IDLE. -/
theorem witness_StartInBusyHasNoEffect :
    (dualAt (busyAt 1)).restI2c 0 (dual (busyAt 1)) ∧ (dual (busyAt 1)).reg.st = .busy ∧
      (i2cAfter 0 (exec ({ I2CIn.zero with start := true }.op 0) (dualAt (busyAt 1)))).map (·.st) = some .idle :=
  ⟨rest_dual _, rfl, rfl⟩
theorem witness_InWriteFillsTheEmptySlot :
    (dualAt I2CReg.reset).restI2c 0 (dual I2CReg.reset) ∧ (dual I2CReg.reset).params.variant = .dual ∧
      (dual I2CReg.reset).reg.inFull = false ∧ 0xFF < 2 ^ (dual I2CReg.reset).params.inW ∧
      (dual I2CReg.reset).reg.st = .idle :=
  ⟨rest_dual _, rfl, rfl, by decide, rfl⟩
theorem witness_InWriteIntoFullSlotIsDropped :
    let r : I2CReg := { busyAt 5 with inFull := true, inQ := 0x5A, inReady := false }
    (dualAt r).restI2c 0 (dual r) ∧ (dual r).params.variant = .dual ∧ (dual r).reg.inFull = true :=
  ⟨rest_dual _, rfl, rfl⟩
theorem witness_OutReadEmptiesTheFullSlot :
    let r : I2CReg := { I2CReg.reset with outFull := true, outData := 0x33, outReady := true }
    (dualAt r).restI2c 0 (dual r) ∧ (dual r).params.variant = .dual ∧ (dual r).reg.outFull = true ∧
      0xFF < 2 ^ (dual r).params.outW ∧ (dual r).reg.st = .idle :=
  ⟨rest_dual _, rfl, rfl, by decide, rfl⟩
theorem witness_OutReadOfEmptySlotHasNoEffect :
    (dualAt (busyAt 3)).restI2c 0 (dual (busyAt 3)) ∧ (dual (busyAt 3)).params.variant = .dual ∧
      (dual (busyAt 3)).reg.outFull = false :=
  ⟨rest_dual _, rfl, rfl⟩
theorem witness_PublishLoadsTheOutboundSlot :
    (dualAt I2CReg.reset).restI2c 0 (dual I2CReg.reset) ∧ (dual I2CReg.reset).params.variant = .dual ∧
      0xFF < 2 ^ (dual I2CReg.reset).params.outW ∧ (dual I2CReg.reset).reg.st = .idle :=
  ⟨rest_dual _, rfl, by decide, rfl⟩
/-- DUAL. -/
theorem witness_BusyTickConsumesTheWaitingItem :
    let r : I2CReg := { busyAt 2 with inFull := true, inQ := 0x11, inReady := false }
    (dualAt r).restI2c 0 (dual r) ∧ (dual r).reg.st = .busy ∧
      (dual r).reg.inboundFull (dual r).params.variant = true ∧ 2 ≤ (dual r).params.timeout ∧
      (dual r).params.variant = .dual :=
  ⟨rest_dual _, rfl, rfl, by decide, rfl⟩
/-- SINGLE. -/
theorem witness_BusyTickConsumesTheWaitingItem_single :
    let r : I2CReg := { busyAt 2 with full := true, q := 0x11 }
    (singleAt r).restI2c 1 (single r) ∧ (single r).reg.st = .busy ∧
      (single r).reg.inboundFull (single r).params.variant = true ∧ 2 ≤ (single r).params.timeout ∧
      (single r).params.variant = .single :=
  ⟨rest_single _, rfl, rfl, by decide, rfl⟩
/-- A timeout of 1 (I-18). -/
theorem witness_BusyTickConsumesTheWaitingItem_timeout_one :
    let x : I2CInst :=
      { dual { busyAt 1 with inFull := true, inReady := false } with params := ⟨.dual, 1, 8, 8⟩ }
    (demo.withInsts [x] [] []).restI2c 0 x ∧ x.reg.st = .busy ∧ x.reg.inboundFull x.params.variant = true ∧
      x.params.timeout = 1 :=
  ⟨⟨rfl, rfl, rfl⟩, rfl, rfl, rfl⟩
/-- Both at and above the expiring countdown. -/
theorem witness_BusyTickCountsDownAndExpires :
    ∀ n ∈ [1, 2, 5], (dualAt (busyAt n)).restI2c 0 (dual (busyAt n)) ∧ (dual (busyAt n)).reg.st = .busy ∧
      (dual (busyAt n)).reg.inboundFull (dual (busyAt n)).params.variant = false ∧ 1 ≤ (dual (busyAt n)).reg.cnt := by
  intro n hn
  refine ⟨rest_dual _, rfl, rfl, ?_⟩
  revert n
  decide
theorem witness_AckIsRetimedByOneEdge :
    (dualAt I2CReg.reset).restI2c 0 (dual I2CReg.reset) ∧ (dual I2CReg.reset).reg.st = .idle ∧
      ({ I2CIn.zero with ackIn := true }.op 0) = .i2cTick 0 true 0 0 :=
  ⟨rest_dual _, rfl, rfl⟩
/-- The inner hypotheses relate it to the same slot in BUSY. -/
theorem witness_OutboundSlotIsIndependentOfTheTransaction :
    (dualAt I2CReg.reset).restI2c 0 (dual I2CReg.reset) ∧ (dual I2CReg.reset).params.variant = .dual ∧
      (dualAt (busyAt 3)).restI2c 0 (dual (busyAt 3)) ∧ (dual (busyAt 3)).params = (dual I2CReg.reset).params ∧
      (dual (busyAt 3)).reg.outFull = (dual I2CReg.reset).reg.outFull ∧
      (dual (busyAt 3)).reg.outData = (dual I2CReg.reset).reg.outData ∧
      (dual (busyAt 3)).reg.outReady = (dual I2CReg.reset).reg.outReady :=
  ⟨rest_dual _, rfl, rest_dual _, rfl, rfl, rfl, rfl⟩
theorem witness_DualEdgeGivesEveryRegister :
    (dualAt (busyAt 1)).restI2c 0 (dual (busyAt 1)) ∧ (dual (busyAt 1)).params.variant = .dual ∧
      ((dual (busyAt 1)).reg.st = .busy → 1 ≤ (dual (busyAt 1)).reg.cnt) ∧
      0xFF < 2 ^ (dual (busyAt 1)).params.inW ∧ 0xFF < 2 ^ (dual (busyAt 1)).params.outW :=
  ⟨rest_dual _, rfl, by decide, by decide, by decide⟩
theorem witness_SingleEdgeGivesEveryRegister :
    (singleAt (busyAt 1)).restI2c 1 (single (busyAt 1)) ∧ (single (busyAt 1)).params.variant = .single ∧
      ((single (busyAt 1)).reg.st = .busy → 1 ≤ (single (busyAt 1)).reg.cnt) ∧
      0xFF < 2 ^ (single (busyAt 1)).params.inW ∧ 0xFF < 2 ^ (single (busyAt 1)).params.outW :=
  ⟨rest_single _, rfl, by decide, by decide, by decide⟩
/-- Rows 1 and 2 of R176: FULL and BUSY. -/
theorem witness_SingleSlotContentionOutcomes_busy :
    let r : I2CReg := { busyAt 3 with full := true, q := 0x33 }
    (singleAt r).restI2c 1 (single r) ∧ (single r).params.variant = .single ∧ (single r).reg.full = true ∧
      (single r).reg.st = .busy ∧ 0xFF < 2 ^ (single r).params.inW ∧ 0xFF < 2 ^ (single r).params.outW :=
  ⟨rest_single _, rfl, rfl, rfl, by decide, by decide⟩
/-- Rows 3 and 5: FULL and IDLE. -/
theorem witness_SingleSlotContentionOutcomes_idle :
    let r : I2CReg := { I2CReg.reset with full := true, q := 0x33 }
    (singleAt r).restI2c 1 (single r) ∧ (single r).params.variant = .single ∧ (single r).reg.full = true ∧
      (single r).reg.st = .idle ∧ 0xFF < 2 ^ (single r).params.inW ∧ 0xFF < 2 ^ (single r).params.outW :=
  ⟨rest_single _, rfl, rfl, rfl, by decide, by decide⟩
/-- Row 4: EMPTY. -/
theorem witness_SingleSlotContentionOutcomes_empty :
    (singleAt I2CReg.reset).restI2c 1 (single I2CReg.reset) ∧ (single I2CReg.reset).params.variant = .single ∧
      (single I2CReg.reset).reg.full = false ∧ 0xFF < 2 ^ (single I2CReg.reset).params.inW ∧
      0xFF < 2 ^ (single I2CReg.reset).params.outW :=
  ⟨rest_single _, rfl, rfl, by decide, by decide⟩

/-- Every instance of the result has an EMPTY inbound slot. -/
def emptyAfter (r : Result) : Bool :=
  match r with
  | .next u => u.i2cs[0]?.all fun y => !y.reg.inboundFull .dual
  | _ => true

theorem emptyAfter_spec {r : Result} (h : emptyAfter r = true) {u : State} {y : I2CInst} (hr : r = .next u)
    (hy : u.i2cs[0]? = some y) : y.reg.inboundFull .dual = false := by
  subst hr
  simpa [emptyAfter, hy] using h

/-- A start and five ticks with no item (X4), where busy has just fallen. -/
theorem witness_BusyLastsExactlyTheTimeout :
    let i : I2CIn := { I2CIn.zero with start := true }
    let is : List I2CIn := List.replicate 5 I2CIn.zero
    demo.restI2c 0 (dual I2CReg.reset) ∧ (dual I2CReg.reset).reg.st = .idle ∧ i.start = true ∧
      is.length ≤ (dual I2CReg.reset).params.timeout ∧
      ∀ m, m < is.length → ∀ u y, execAll ((i :: is.take m).map (I2CIn.op 0)) demo = .next u → u.i2cs[0]? = some y →
        y.reg.inboundFull (dual I2CReg.reset).params.variant = false := by
  have key : ∀ m < 5, emptyAfter (execAll
      (({ I2CIn.zero with start := true } :: (List.replicate 5 I2CIn.zero).take m).map (I2CIn.op 0)) demo) = true := by
    decide +kernel
  exact ⟨⟨rfl, rfl, rfl⟩, rfl, rfl, by decide, fun m hm u y hu hy => emptyAfter_spec (key m hm) hu hy⟩

/-! SPI-NOR linear reader -/

/-- The first and the last address of the window, the longest length. -/
theorem witness_ReaderStartInWindowOpensASession :
    demo.restLr 0 (reader LRReg.reset) ∧ (reader LRReg.reset).reg.st = .idle ∧
      255 < 2 ^ (reader LRReg.reset).params.lw ∧ ∀ a ∈ [0x100000, 0x10000F],
        a < 2 ^ (reader LRReg.reset).params.aw ∧ demo.mem.base ≤ a ∧ a < demo.mem.base + demo.mem.len :=
  ⟨⟨rfl, rfl, rfl⟩, rfl, by decide, by decide⟩
/-- The last address before the window and the first after it. -/
theorem witness_ReaderStartOutOfWindowStaysIdle :
    demo.restLr 0 (reader LRReg.reset) ∧ (reader LRReg.reset).reg.st = .idle ∧
      4 < 2 ^ (reader LRReg.reset).params.lw ∧ ∀ a ∈ [0x0FFFFF, 0x100010],
        a < 2 ^ (reader LRReg.reset).params.aw ∧ (a < demo.mem.base ∨ demo.mem.base + demo.mem.len ≤ a) :=
  ⟨⟨rfl, rfl, rfl⟩, rfl, by decide, by decide⟩
/-- The inner hypotheses too: the edge ends the session, and the held operand is in the window. -/
theorem witness_ReaderStartWhileReadingHasNoEffect :
    let r := readingAt 0x100004 0 0
    (lrAt r).restLr 0 (reader r) ∧ (reader r).reg.st = .reading ∧ 0x100008 < 2 ^ (reader r).params.aw ∧
      1 < 2 ^ (reader r).params.lw ∧
      (lrAfter (exec (.lrStart 0 0x100008 1) (lrAt r))).map (·.st) = some .idle ∧
      (lrAt r).mem.inWindow 0x100008 = true :=
  ⟨rest_lr _, rfl, by decide, by decide, rfl, by decide⟩
/-- IDLE; counting; the end of a session; an emission. -/
theorem witness_ReaderTickCountsEmitsAndEnds :
    (lrAt LRReg.reset).restLr 0 (reader LRReg.reset) ∧ LRReg.reset.st = .idle ∧
      (lrAt (readingAt 0x100000 4 1)).restLr 0 (reader (readingAt 0x100000 4 1)) ∧ (readingAt 0x100000 4 1).cnt ≠ 0 ∧
      (lrAt (readingAt 0x100000 0 0)).restLr 0 (reader (readingAt 0x100000 0 0)) ∧ (readingAt 0x100000 0 0).cnt = 0 ∧
      (readingAt 0x100000 0 0).rem = 0 ∧
      (lrAt (readingAt 0x10000F 1 0)).restLr 0 (reader (readingAt 0x10000F 1 0)) ∧ (readingAt 0x10000F 1 0).rem ≠ 0 :=
  ⟨rest_lr _, rfl, rest_lr _, by decide, rest_lr _, rfl, rfl, rest_lr _, by decide⟩
/-- Length 4 from the first address (X6), the edge of the last pulse and the edge at which busy falls; and length 0. -/
theorem witness_ReaderSessionTiming :
    demo.restLr 0 (reader LRReg.reset) ∧ (reader LRReg.reset).reg.st = .idle ∧
      (reader LRReg.reset).reg.valid = false ∧ demo.mem.inWindow 0x100000 = true ∧
      0x100000 < 2 ^ (reader LRReg.reset).params.aw ∧ 4 < 2 ^ (reader LRReg.reset).params.lw ∧
      (∀ n ∈ [0, 3, 12, 15], n ≤ (4 + 1) * ((reader LRReg.reset).params.pacing + 1)) ∧
      (∃ j, j < 4 ∧ 12 = (j + 1) * ((reader LRReg.reset).params.pacing + 1)) ∧
      3 ≤ (0 + 1) * ((reader LRReg.reset).params.pacing + 1) :=
  ⟨⟨rfl, rfl, rfl⟩, rfl, rfl, by decide, by decide, by decide, by decide, ⟨3, by decide, rfl⟩, by decide⟩

/-! SPI-NOR bit-serial recognizer -/

theorem witness_RecognizerFollowsTheTransitionTable (st : BSSt) (ec : Nat) (sr : Nat) :
    (bsAt (bsReg st ec sr)).restBs 0 (recognizer (bsReg st ec sr)) := rest_bs _
/-- The first and the last bit of a byte in the window, and an address out of it. -/
theorem witness_ReadingEdgeShiftsOutOneBit :
    ∀ r ∈ [{ bsReg .reading 32 0 with raddr := 0x10000F, bidx := 0 },
      { bsReg .reading 32 0 with raddr := 0x10000F, bidx := 7 },
      { bsReg .reading 32 0 with raddr := 0x100010, bidx := 7 }],
      (bsAt r).restBs 0 (recognizer r) ∧ r.st = .reading ∧ r.bidx ≤ 7 ∧
        (r.raddr = 0x10000F → (bsAt r).mem.read r.raddr = some 0x0F#8) ∧
        (r.raddr = 0x100010 → (bsAt r).mem.read r.raddr = none) := by
  intro r hr
  refine ⟨rest_bs r, ?_⟩
  simp only [List.mem_cons, List.not_mem_nil, or_false] at hr
  rcases hr with rfl | rfl | rfl <;> decide
/-- Neither at a capture edge (IDLE), nor out of the window (0x0FFFFF), nor in it (0x10000A). -/
theorem witness_OnlyTheCaptureEdgeReadsOutOfReading :
    (bsReg .idle 0 0).st ≠ .reading ∧
      ∀ sr ∈ [0x8187FFFF, 0x81880005],
        (bsAt (bsReg .spu 31 sr)).restBs 0 (recognizer (bsReg .spu 31 sr)) ∧ (bsReg .spu 31 sr).st ≠ .reading ∧
          (bsReg .spu 31 sr).ec = (recognizer (bsReg .spu 31 sr)).params.rdEdge ∧
          2 * sr % 2 ^ 32 / 2 ^ (32 - 8) % 2 ^ 8 = (recognizer (bsReg .spu 31 sr)).params.opcRead.toNat ∧
          ((bsAt (bsReg .spu 31 sr)).mem.read (2 * sr % 2 ^ 32 % 2 ^ 24)).isSome = decide (sr = 0x81880005) := by
  refine ⟨by decide, fun sr hsr => ⟨rest_bs _, ?_⟩⟩
  simp only [List.mem_cons, List.not_mem_nil, or_false] at hsr
  rcases hsr with rfl | rfl <;> decide
theorem witness_FramesAreTheirWireEdges : demo.restBs 0 (recognizer BSReg.reset) := ⟨rfl, rfl, rfl⟩
theorem witness_PowerDownIsReleasedByItsFrame :
    ∀ st ∈ [BSSt.idle, BSSt.spd], (bsAt (bsReg st 0 0)).restBs 0 (recognizer (bsReg st 0 0)) ∧
      (recognizer (bsReg st 0 0)).params.standard ∧ (bsReg st 0 0).ec = 0 ∧
      ((bsReg st 0 0).st = .idle ∨ (bsReg st 0 0).st = .spd) := by
  intro st hst
  refine ⟨rest_bs _, ⟨rfl, rfl, rfl, rfl, rfl, rfl⟩, rfl, ?_⟩
  simpa [bsReg] using hst
/-- At the check edge of SPD; a read frame in the selection of the release frame (B-22); a deselect, a reselect and one
more edge. -/
theorem witness_PowerUpNeedsDeselectAndReselect :
    (bsReg .spd 7 0x55).st = .spd ∧ (bsReg .spupd 8 0xAB).st = .spupd ∧
      (∀ i ∈ selected (msbFirst 32 (readFrame 0x10000A#24)), i.cs = true) ∧
      (BSReg.after flash BSParams.default (bsReg .spupd 8 0xAB)
        [⟨false, false⟩, ⟨true, false⟩, ⟨true, false⟩]).st = .spu := by decide
/-- In DPU and SPU, and an address in the window and one out of it. -/
theorem witness_ReadFrameCapturesTheAddress :
    ∀ st ∈ [BSSt.dpu, BSSt.spu], (bsAt (bsReg st 0 0xAB)).restBs 0 (recognizer (bsReg st 0 0xAB)) ∧
      (recognizer (bsReg st 0 0xAB)).params.standard ∧ (bsReg st 0 0xAB).ec = 0 ∧
      ((bsReg st 0 0xAB).st = .dpu ∨ (bsReg st 0 0xAB).st = .spu) ∧
      (bsAt (bsReg st 0 0xAB)).mem.read (0x10000A#24).toNat = some 0x0A#8 ∧
      (bsAt (bsReg st 0 0xAB)).mem.read (0x0FFFFF#24).toNat = none := by
  intro st hst
  refine ⟨rest_bs _, ⟨rfl, rfl, rfl, rfl, rfl, rfl⟩, rfl, ?_, rfl, rfl⟩
  simpa [bsReg] using hst
/-- X8 with its 15 further edges, every prefix at which the clauses of R243 change among its lengths. -/
theorem witness_PowerSequenceTiming :
    demo.restBs 0 (recognizer BSReg.reset) ∧ (recognizer BSReg.reset).params.standard ∧
      (recognizer BSReg.reset).reg = BSReg.reset ∧
      (∀ m ∈ [0, 1, 7, 8, 9, 10, 40, 41, 42, 56], m ≤ 41 + (List.replicate 15 false).length) ∧
      ∀ j, j ≤ (List.replicate 15 false).length →
        demo.mem.inWindow (((0x10000A#24).toNat + j / 8) % 2 ^ 24) = true := by
  refine ⟨⟨rfl, rfl, rfl⟩, ⟨rfl, rfl, rfl, rfl, rfl, rfl⟩, rfl, by decide, ?_⟩
  decide
theorem witness_ShiftResidueNeverReachesACheck : BSParams.default.standard ∧ (bsReg .spu 0 0xAB).ec = 0 :=
  ⟨⟨rfl, rfl, rfl, rfl, rfl, rfl⟩, rfl⟩
theorem witness_ReadResidueNeverReachesTheOutput : (bsReg .idle 0 0).st ≠ .reading := by decide
theorem witness_DeselectReadingsCannotBeToldApart : BSParams.default.standard ∧ (bsReg .spd 0 0xAB).ec = 0 :=
  ⟨⟨rfl, rfl, rfl, rfl, rfl, rfl⟩, rfl⟩

/-! Host calls and the clock discipline -/

theorem witness_HostResetGivesTheResetValues :
    demo.nonconv = none ∧ demo.i2cs[0]? = some (dual I2CReg.reset) ∧ demo.lrs[0]? = some (reader LRReg.reset) ∧
      demo.bss[0]? = some (recognizer BSReg.reset) := by decide
/-- Of a clause's hypotheses all but the lookup are of one shape for the three machines. -/
theorem witness_HostEvaluateReturnsTheFreshPendingSet :
    demo.nonconv = none ∧ ∀ id ∈ [InstId.i2c 0, .lr 0, .bs 0],
      demo.evaluable id = true ∧ (demo.cd? id).map (·.pendClk) = some none := by decide
theorem witness_EvaluationIsIdempotent :
    ∃ t, exec (.hostEvaluate (.i2c 0)) h1 = .next t ∧ t.nonconv = none := runsOn_spec (by decide)

/-- The reader evaluated with `start`, which the host then takes away. -/
def lrDiverging : State :=
  (((demo.setLrIn 0 ⟨true, 0x100000, 1⟩).driveClk 2 true).evaluated (.one (.lr 0))).setLrIn 0 LRIn.zero
/-- The recognizer evaluated selected, which the host then deselects. -/
def bsDiverging : State :=
  (((demo.setBsIn 0 ⟨true, true⟩).driveClk 3 true).evaluated (.one (.bs 0))).setBsIn 0 BSIn.zero
/-- The DUAL instance evaluated with clk high, which the host then drives low. -/
def clkDiverging : State := h1Evaluated.driveClk 0 false

theorem witness_DivergingEvaluationEndsTheRun_i2c :
    let s := h1Evaluated.setI2cIn 0 I2CIn.zero
    s.nonconv = none ∧ s.checking = true ∧ s.evaluable (.i2c 0) = true ∧
      (s.i2cs[0]?.any fun x => decide (x.cd.pendClk ≠ none) &&
        decide (x.pend ≠ (if x.cd.prevClk = false ∧ x.cd.clk = true then i2cTick x.params x.reg (s.i2cInputs 0 x)
          else {}))) = true := by decide
theorem witness_DivergingEvaluationEndsTheRun_clk :
    clkDiverging.nonconv = none ∧ clkDiverging.checking = true ∧ clkDiverging.evaluable (.i2c 0) = true ∧
      (clkDiverging.i2cs[0]?.any fun x => decide (x.cd.pendClk ≠ none) && decide (x.cd.pendClk ≠ some x.cd.clk)) =
        true := by decide
theorem witness_DivergingEvaluationEndsTheRun_lr :
    lrDiverging.nonconv = none ∧ lrDiverging.checking = true ∧ lrDiverging.evaluable (.lr 0) = true ∧
      (lrDiverging.lrs[0]?.any fun x => decide (x.cd.pendClk ≠ none) &&
        decide (x.pend ≠ (if x.cd.prevClk = false ∧ x.cd.clk = true
          then lrTick lrDiverging.mem x.params x.reg (lrDiverging.lrInputs 0 x) else {}))) = true := by decide
theorem witness_DivergingEvaluationEndsTheRun_bs :
    bsDiverging.nonconv = none ∧ bsDiverging.checking = true ∧ bsDiverging.evaluable (.bs 0) = true ∧
      (bsDiverging.bss[0]?.any fun x => decide (x.cd.pendClk ≠ none) &&
        decide (x.pend ≠ (if x.cd.prevClk = false ∧ x.cd.clk = true
          then bsTick bsDiverging.mem x.params x.reg (bsDiverging.bsInputs 0 x) else {}))) = true := by decide
/-- The commit of an instance whose inputs changed after its evaluation. -/
theorem witness_DivergingEvaluationEndsTheRun_commit :
    ((h1Evaluated.setI2cIn 0 I2CIn.zero).i2cs[0]?.any fun x => decide (x.cd.pendClk ≠ none) &&
        decide (x.pend ≠ (if x.cd.prevClk = false ∧ x.cd.clk = true
          then i2cTick x.params x.reg ((h1Evaluated.setI2cIn 0 I2CIn.zero).i2cHeld 0 x) else {}))) = true ∧
      (lrDiverging.lrs[0]?.any fun x => decide (x.cd.pendClk ≠ none) &&
        decide (x.pend ≠ (if x.cd.prevClk = false ∧ x.cd.clk = true
          then lrTick lrDiverging.mem x.params x.reg (lrDiverging.lrHeld 0 x) else {}))) = true ∧
      (bsDiverging.bss[0]?.any fun x => decide (x.cd.pendClk ≠ none) &&
        decide (x.pend ≠ (if x.cd.prevClk = false ∧ x.cd.clk = true
          then bsTick bsDiverging.mem x.params x.reg (bsDiverging.bsHeld 0 x) else {}))) = true ∧
      (clkDiverging.i2cs[0]?.any fun x => decide (x.cd.pendClk ≠ none) && decide (x.cd.pendClk ≠ some x.cd.clk)) =
        true := by decide
/-- A pending set that the inputs at the ports still give, for each machine; none at all; and a harness that does not
check. -/
theorem witness_HostCommitAppliesThePendingSet :
    let l := ((demo.setLrIn 0 ⟨true, 0x100000, 1⟩).driveClk 2 true).evaluated (.one (.lr 0))
    let b := ((demo.setBsIn 0 ⟨true, true⟩).driveClk 3 true).evaluated (.one (.bs 0))
    h1Evaluated.nonconv = none ∧ l.nonconv = none ∧ b.nonconv = none ∧
      (h1Evaluated.i2cs[0]?.any fun x => decide (x.cd.pendClk = some x.cd.clk ∧
        x.pend = if x.cd.prevClk = false ∧ x.cd.clk = true
          then i2cTick x.params x.reg (h1Evaluated.i2cHeld 0 x) else {})) = true ∧
      (l.lrs[0]?.any fun x => decide (x.cd.pendClk = some x.cd.clk ∧
        x.pend = if x.cd.prevClk = false ∧ x.cd.clk = true
          then lrTick l.mem x.params x.reg (l.lrHeld 0 x) else {})) = true ∧
      (b.bss[0]?.any fun x => decide (x.cd.pendClk = some x.cd.clk ∧
        x.pend = if x.cd.prevClk = false ∧ x.cd.clk = true
          then bsTick b.mem x.params x.reg (b.bsHeld 0 x) else {})) = true ∧
      (dual I2CReg.reset).cd.pendClk = none ∧ { lrDiverging with checking := false }.checking = false := by decide
/-- With a consumption pending and with none. -/
theorem witness_CommitAppendsTheConsumedItem :
    let s := ((dualAt { busyAt 2 with inFull := true }).driveClk 0 true).evaluated (.one (.i2c 0))
    s.nonconv = none ∧ s.i2cs[0]?.map (·.pend.emit) = some (some 0) ∧ h1Evaluated.nonconv = none ∧
      h1Evaluated.i2cs[0]?.map (·.pend.emit) = some none ∧ s.unsettled (.i2c 0) = false ∧
      h1Evaluated.unsettled (.i2c 0) = false := by decide
/-- With clk low; and with clk high after an edge. -/
theorem witness_NonEdgeEvaluationChangesOnlyPrevClk :
    demo.nonconv = none ∧
      (∀ id ∈ [InstId.i2c 0, .lr 0, .bs 0], demo.evaluable id = true ∧
        (demo.cd? id).any (fun c => c.pendClk.isNone && !c.clk) = true) ∧
      (h1Evaluated.committed (.one (.i2c 0))).evaluable (.i2c 0) = true ∧
      ((h1Evaluated.committed (.one (.i2c 0))).cd? (.i2c 0)).any (fun c => c.pendClk.isNone && c.prevClk) = true := by
  decide
theorem witness_EvaluationOrderIsIrrelevant :
    let ids : List InstId := [.i2c 0, .lr 0, .bs 0]
    h1.nonconv = none ∧ ids.Nodup ∧ ids.Perm ids.reverse ∧
      ∀ id ∈ ids, h1.evaluable id = true ∧ ∀ c, h1.cd? id = some c → c.pendClk = none ∨ h1.checking = false := by
  refine ⟨rfl, by decide, (List.reverse_perm _).symm, ?_⟩
  intro id hid
  refine ⟨by revert id; decide, fun c hc => .inl ?_⟩
  simp only [List.mem_cons, List.not_mem_nil, or_false] at hid
  rcases hid with rfl | rfl | rfl <;> (cases hc; rfl)
theorem witness_ResetStateIsAFixedPoint :
    (demo.restI2c 0 (dual I2CReg.reset) ∧ (dual I2CReg.reset).reg = I2CReg.reset) ∧
      (demo.restLr 0 (reader LRReg.reset) ∧ (reader LRReg.reset).reg = LRReg.reset) ∧
      demo.restBs 0 (recognizer BSReg.reset) ∧ (recognizer BSReg.reset).reg = BSReg.reset :=
  ⟨⟨⟨rfl, rfl, rfl⟩, rfl⟩, ⟨⟨rfl, rfl, rfl⟩, rfl⟩, ⟨rfl, rfl, rfl⟩, rfl⟩

/-- P4: a reader and an I2C instance in one clock domain, the reader's valid and data wired onto the write request and the
inbound data. -/
def wired (d : Nat) : State :=
  (demo.withInsts [{ dual I2CReg.reset with cd := CD.initial d true }]
    [{ reader { LRReg.reset with data := 0x42#8, valid := true } with cd := CD.initial d true }]
    [{ recognizer BSReg.reset with cd := CD.initial d true }]).withWires
    [⟨.lr 0, .valid, .i2c 0, .inWe⟩, ⟨.lr 0, .data, .i2c 0, .inDin⟩]

/-- P4, and a port with a wire and one without. -/
theorem witness_WiredInputReadsThePreviousCommit :
    let s := wired 0
    let w : Wire := ⟨.lr 0, .data, .i2c 0, .inDin⟩
    s.lineOf (.lrTick 0 0 0) (.lr 0) 0 ∧ s.ready 0 = true ∧
      s.i2cs[0]? = some { dual I2CReg.reset with cd := CD.initial 0 true } ∧
      s.soleDriver w ∧ s.output w.src w.srcPort = some 0x42 ∧ hasInPort (.i2c 0) w.dstPort = true ∧
      InstId.lr 0 ≠ .i2c 0 ∧ s.undriven (.i2c 0) .start ∧
      s.wiresInto (.i2c 0) = [⟨.lr 0, .valid, .i2c 0, .inWe⟩, ⟨.lr 0, .data, .i2c 0, .inDin⟩] ∧
      (dual I2CReg.reset).params.variant = .dual ∧ 8 ≤ (dual I2CReg.reset).params.inW ∧
      (dual I2CReg.reset).reg.inFull = false :=
  ⟨⟨_, ⟨false, 0, 0⟩, rfl, rfl, rfl⟩, by decide, rfl, ⟨by decide, by decide⟩, rfl, rfl, by decide,
    by unfold State.undriven; decide, rfl, rfl, by decide, rfl⟩
/-- A line of another instance in whose domain a wired reader of each of the other kinds is: the recognizer's serial data and
the linear reader's start from the I2C controller's ports. -/
theorem witness_WiredInputReadsThePreviousCommit_lr_bs :
    let s := (wired 0).withWires [⟨.i2c 0, .inReady, .bs 0, .si⟩, ⟨.i2c 0, .busy, .lr 0, .start⟩]
    s.lineOf (.i2cTick 0 false 0 0) (.i2c 0) 0 ∧ s.ready 0 = true ∧
      s.soleDriver ⟨.i2c 0, .inReady, .bs 0, .si⟩ ∧ s.output (.i2c 0) .inReady = some 1 ∧
      hasInPort (.bs 0) .si = true ∧ s.undriven (.bs 0) .cs ∧ s.soleDriver ⟨.i2c 0, .busy, .lr 0, .start⟩ ∧
      s.output (.i2c 0) .busy = some 0 ∧ hasInPort (.lr 0) .start = true ∧ s.undriven (.lr 0) .lrLenIn :=
  ⟨⟨_, ⟨false, false, false, false, false, 0, 0⟩, rfl, rfl, rfl⟩, by decide, ⟨by decide, by decide⟩, rfl, rfl,
    by unfold State.undriven; decide, ⟨by decide, by decide⟩, rfl, rfl, by unfold State.undriven; decide⟩

/-! Runs the spec gives no meaning to -/

/-- The reset system with an instance of each machine that was never reset. -/
def fresh : State :=
  demo.withInsts [I2CInst.initial (I2CParams.default .dual) 0 false] [LRInst.initial LRParams.default 1 false]
    [BSInst.initial BSParams.default 2 false]

/-- Never reset, for each machine. -/
theorem witness_MisusedInstanceIsRefused_never_reset :
    fresh.nonconv = none ∧ ∀ id ∈ [InstId.i2c 0, .lr 0, .bs 0], (fresh.cd? id).map (·.wasReset) = some false := by
  decide
/-- Each range of R12 broken alone, with an instance that was reset. -/
theorem witness_MisusedInstanceIsRefused_parameter :
    (∀ q ∈ [I2CParams.mk .dual 0 8 8, ⟨.dual, 5, 0, 8⟩, ⟨.dual, 5, 8, 0⟩, ⟨.single, 5, 8, 9⟩],
      (q.timeout = 0 ∨ q.inW = 0 ∨ q.outW = 0 ∨ (q.variant = .single ∧ q.inW ≠ q.outW)) ∧
        (demo.withInsts [{ dual I2CReg.reset with params := q }] [] []).nonconv = none ∧
        (demo.withInsts [{ dual I2CReg.reset with params := q }] [] []).i2cs[0]? =
          some { dual I2CReg.reset with params := q }) ∧
      (∀ q ∈ [LRParams.mk 2 0xFF#8 0 8, ⟨2, 0xFF#8, 24, 0⟩], (q.aw = 0 ∨ q.lw = 0) ∧
        (demo.withInsts [] [{ reader LRReg.reset with params := q }] []).lrs[0]? =
          some { reader LRReg.reset with params := q }) ∧
      (dual I2CReg.reset).cd.wasReset = true ∧ (reader LRReg.reset).cd.wasReset = true := by decide
/-- Each parameter at its least value. -/
theorem witness_MisusedInstanceIsRefused_in_range :
    (∀ q ∈ [I2CParams.mk .dual 1 1 2, ⟨.single, 1, 1, 1⟩],
      ¬(q.timeout = 0 ∨ q.inW = 0 ∨ q.outW = 0 ∨ (q.variant = .single ∧ q.inW ≠ q.outW))) ∧
      ¬((LRParams.mk 0 0#8 1 1).aw = 0 ∨ (LRParams.mk 0 0#8 1 1).lw = 0) := by decide
/-- An image with too few bytes, one with none and one whose bytes stand elsewhere. -/
theorem witness_MisusedInstanceIsRefused_image :
    ∀ m ∈ [Memory.ofImage 0 2 [0#8], ⟨0, 1, []⟩, ⟨5, 1, [(4, 0#8)]⟩],
      m.cells.map (·.1) ≠ List.range' m.base m.len ∧ (demo.withMem m).nonconv = none ∧
        (demo.withMem m).lrs[0]? = some (reader LRReg.reset) ∧
        (demo.withMem m).bss[0]? = some (recognizer BSReg.reset) ∧ (reader LRReg.reset).cd.wasReset = true ∧
        (recognizer BSReg.reset).cd.wasReset = true ∧
        ¬((reader LRReg.reset).params.aw = 0 ∨ (reader LRReg.reset).params.lw = 0) := by decide
/-- After the first evaluation, another image and the same; a content of another length, shorter and longer; and the window's
length, in a state that was supplied an image before. -/
theorem witness_ImageReadsBackAndIsFixedAfterTheFirstEvaluation :
    demo.withStarted.nonconv = none ∧ demo.withStarted.started = true ∧ demo.nonconv = none ∧ demo.started = false ∧
      demo.withStarted.mem ≠ Memory.ofImage 5 1 [1#8] ∧
      demo.withStarted.mem = Memory.ofImage 0x100000 16 ((List.range 16).map (BitVec.ofNat 8)) ∧
      [1#8].length ≠ 0 ∧ [1#8].length ≠ 2 ∧ [1#8].length = 1 ∧
      (demo.withScript [.image 5 1 [1#8]]).script = [.image 5 1 [1#8]] := by decide
theorem witness_ImageNeverChangesDuringARun :
    (∃ t, exec (.lrTick 0 0 0) demo = .next t) ∧
      (∃ t, demo.withStarted.started = true ∧ step demo.withStarted = .next t) ∧
      (demo.withStarted.withScript [.image 0 0 []]).nonconv = none ∧
      (demo.withStarted.withScript [.image 0 0 []]).started = true ∧
      (demo.withStarted.withScript [.image 0 0 []]).script = [.image 0 0 []] ∧
      (demo.withStarted.withScript [.image 0 0 []]).mem ≠ Memory.ofImage 0 0 [] :=
  have ⟨t, ht⟩ := answers (r := step demo.withStarted) (by decide)
  ⟨answers (by decide), ⟨t, rfl, ht⟩, rfl, rfl, rfl, by decide⟩
theorem witness_SameEdgePathIsRefused :
    let s := (wired 0).driveClk 0 true
    let c : CD := { CD.initial 0 true with clk := true }
    let w : Wire := ⟨.lr 0, .data, .i2c 0, .inDin⟩
    s.nonconv = none ∧ InstId.lr 0 ≠ .i2c 0 ∧ s.cd? (.lr 0) = some c ∧ s.cd? (.i2c 0) = some c ∧
      c.pendClk = none ∧ c.fresh = false ∧ c.prevClk = false ∧ c.clk = true ∧ s.evaluable (.lr 0) = true ∧
      s.evaluable (.i2c 0) = true ∧ w ∈ s.wires ∧ w.src = .lr 0 ∧ w.dst = .i2c 0 := by decide

/-- An I2C instance whose write request is its own write-ready, and a linear reader of it, after an edge with clk = 1. -/
def selfWired : State :=
  ((((wired 0).withWires [⟨.i2c 0, .inReady, .i2c 0, .inWe⟩, ⟨.i2c 0, .busy, .lr 0, .start⟩]).driveClk 0 true).evaluated
    (.domain 0)).committed (.domain 0)

/-- R284: reset with clk = 1, an instance wired to itself detects an edge and is not refused. -/
theorem test_self_wired_after_reset :
    runsOn (execAll [.hostReset (.i2c 0), .hostEvaluate (.i2c 0)] selfWired) = true := by decide
/-- R284: source and reader both reset with clk = 1; each order of evaluation detects an edge. -/
theorem test_both_reset_after_edge :
    runsOn (execAll [.hostReset (.i2c 0), .hostReset (.lr 0), .hostEvaluate (.lr 0), .hostEvaluate (.i2c 0)] selfWired) =
      true := by decide

/-! The calls of `lr 0` (A), which drives, and of `i2c 0` (B), which reads it, both on one clock that is high. -/

def eA : Instr := .hostEvaluate (.lr 0)
def eB : Instr := .hostEvaluate (.i2c 0)
def cA : Instr := .hostCommit (.lr 0)
def cB : Instr := .hostCommit (.i2c 0)
def rA : Instr := .hostReset (.lr 0)
def rB : Instr := .hostReset (.i2c 0)
/-- The outcome of the calls from P4's state with clk high: the refusal if it is one, and whether the run goes on. -/
def calls (is : List Instr) : Option Refusal × Bool :=
  match execAll is ((wired 0).driveClk 0 true) with
  | .refused r => (some r, false)
  | r => (none, runsOn r)

/-- R151, call by call: every evaluation before any commit; the harness' check finds nothing. -/
theorem test_cycle_by_calls : calls [eA, eB, cA, cB] = (none, true) := by decide
/-- R154: the source committed before the reader is evaluated, at the edge that both detect after their resets. -/
theorem test_same_edge_after_resets :
    calls [eA, eB, cA, cB, rB, eB, cB, rA, rB, eA, cA, eB] = (some (.sameEdgePath (.lr 0) (.i2c 0)), false) := by decide
/-- R284: whatever the source did in between, the reader's reset gives it an edge of its own. -/
theorem test_own_edge_after_reset :
    calls [eA, eB, cA, cB, rA, eA, eB, cA, cB, rB, eB] = (none, true) ∧
      calls [eA, eB, cA, cB, rA, eA, cA, rA, rB, eA, eB, cA, cB, rB, eB] = (none, true) := by decide
/-- R154: a reset of the reader alone does not open another edge where this one was never evaluated. -/
theorem test_reset_of_overtaken_reader :
    calls [eA, cA, rB, eB] = (some (.sameEdgePath (.lr 0) (.i2c 0)), false) := by decide
/-- R149, R275: evaluated before the source's commit and again after it. Where the source's output changed it is
non-convergence; where it did not the run goes on. -/
theorem test_reevaluation_after_source_commit :
    let s := (wired 0).withInsts (wired 0).i2cs
      [{ reader { readingAt 0x100000 4 2 with valid := true } with cd := CD.initial 0 true }] []
    (match execAll [eA, eB, cA, eB] (s.driveClk 0 true) with
      | .next t => t.nonconv
      | _ => none) = some (.i2c 0) ∧ calls [eA, eB, cA, eB] = (none, true) := by decide
/-- R143, R283: without a rising edge no input is read, so an instance wired to one that was never reset is evaluated. -/
theorem test_no_edge_with_unreset_source :
    let s := ((wired 0).withInsts (wired 0).i2cs [LRInst.initial LRParams.default 0 false] []).withStarted
    runsOn (exec eB s) = true ∧
      (match exec eB (s.driveClk 0 true) with
        | .refused r => some r
        | _ => none) = some (.neverReset (.lr 0)) := by decide
/-- Log 30: the reader's own evaluation is discarded by its reset before the source commits. -/
theorem test_reset_before_source_commit :
    calls [eA, eB, rB, cA, eB] = (some (.sameEdgePath (.lr 0) (.i2c 0)), false) ∧
      calls [eA, eB, cA, rB, eB] = (none, true) := by decide
/-- Log 30: the reader's first reset comes after the source's commit, with clk still 1. -/
theorem test_first_reset_after_source_commit :
    let s := (wired 0).withInsts [I2CInst.initial (I2CParams.default .dual) 0 false] (wired 0).lrs []
    (match execAll [eA, cA, rB, eB] (s.driveClk 0 true) with
      | .refused r => some r
      | _ => none) = some (.sameEdgePath (.lr 0) (.i2c 0)) := by decide
/-- What the host's actions and calls of a script come to: the refusal, or the instance that diverged. -/
def outcome (r : Result) : Option Refusal × Option InstId :=
  match r with
  | .refused r => (some r, none)
  | .next t => (none, t.nonconv)
  | .fault _ => (none, none)

/-- Log 28: of one clock domain `lr 0` is refused and `i2c 0` diverges: the line is refused. With `lr 0` reset it is
non-convergence (R262). -/
theorem test_refusal_before_check :
    let s := ((wired 0).withInsts (wired 0).i2cs [LRInst.initial LRParams.default 0 false] []).withWires []
    outcome (execAll [eB, .i2cTick 0 false 0 0] s) = (some (.neverReset (.lr 0)), none) ∧
      outcome (execAll [rA, eB, .i2cTick 0 false 0 0] s) = (none, some (.i2c 0)) := by decide
/-- Log 29: evaluated after the source's commit without a wire, then wired and evaluated again: not refused, and
its inputs have changed, which is the non-convergence of R149. -/
theorem test_wired_between_evaluations :
    outcome (andThen (execAll [eA, cA, eB] (((wired 0).withWires []).driveClk 0 true)) fun t =>
      exec eB (t.withWires (wired 0).wires)) = (none, some (.i2c 0)) ∧
    outcome (andThen (execAll [eA, cA] (((wired 0).withWires []).driveClk 0 true)) fun t =>
      exec eB (t.withWires (wired 0).wires)) = (some (.sameEdgePath (.lr 0) (.i2c 0)), none) := by decide
/-- Log 30: the reader is created after the source's commit with clk high; it detects an edge of its own. -/
theorem test_created_after_source_commit :
    let s := ((wired 0).withInsts [] (wired 0).lrs []).driveClk 0 true
    (match andThen (execAll [eA, cA] s) fun t =>
        andThen (createInst (.i2c (I2CParams.default .dual) 0) t) fun u => execAll [rB, eB] (u.driveClk 0 true) with
      | .next t => t.i2cs.map fun x => (x.cd.prevClk, x.cd.clk, x.cd.pendClk)
      | _ => []) = [(false, true, some true)] := by decide
/-- Log 10: a source that was never reset, wired after the evaluation, is read by the check before the commit; a
HOST.EVALUATE there is refused. -/
theorem test_check_reads_unreset_source :
    let s := ((wired 0).withInsts (wired 0).i2cs [LRInst.initial LRParams.default 0 false] []).withWires []
    let w : List Wire := [⟨.lr 0, .valid, .i2c 0, .inWe⟩]
    outcome (andThen (exec eB (s.driveClk 0 true)) fun t => exec cB (t.withWires w)) = (none, none) ∧
      outcome (andThen (exec eB (s.driveClk 0 true)) fun t => exec eB (t.withWires w)) =
        (some (.neverReset (.lr 0)), none) := by decide

/-! Invariants -/

/-- A state in the middle of a transaction, and its next step. -/
theorem witness_EveryStepKeepsTheInvariants :
    ((dualAt (busyAt 3)).withScript [.line ⟨.i2cCtl, .i2c 0, 0#32, 0, 0⟩]).Inv ∧
      ∃ t, step ((dualAt (busyAt 3)).withScript [.line ⟨.i2cCtl, .i2c 0, 0#32, 0, 0⟩]) = .next t := by
  refine ⟨⟨?_, ?_, ?_, by decide⟩, answers (by decide)⟩
  · intro x hx
    have hx' : x ∈ [dual (busyAt 3), single I2CReg.reset] := hx
    simp only [List.mem_cons, List.not_mem_nil, or_false] at hx'
    rcases hx' with rfl | rfl <;> (unfold I2CInst.inv I2CReg.inv; decide)
  · intro x hx
    have hx' : x ∈ [reader LRReg.reset] := hx
    simp only [List.mem_cons, List.not_mem_nil, or_false] at hx'
    subst hx'
    unfold LRInst.inv LRReg.inv
    decide
  · intro x hx
    have hx' : x ∈ [recognizer BSReg.reset] := hx
    simp only [List.mem_cons, List.not_mem_nil, or_false] at hx'
    subst hx'
    unfold BSInst.inv BSReg.inv
    decide
theorem witness_ParametersStayAndTraceOnlyGrows :
    (∃ t, step (demo.withScript [.line ⟨.lrCtl, .lr 0, 1#32, 0x100000, 4⟩]) = .next t) ∧
      demo.i2cs[0]?.isSome = true ∧ demo.lrs[0]?.isSome = true ∧ demo.bss[0]?.isSome = true :=
  ⟨answers (by decide), rfl, rfl, rfl⟩

end Sys2Proof.Tests
end

