-- ==== Sys2Proof/Proofs/Scope.lean ====
section
/-! PROOF. Where a run begins and ends (00_scope.md R4, 60_exceptions.md R262, R267): a step of an idle host, and every
step and operation after NonConvergence. -/

namespace Sys2Proof.Machine

variable {s : State} {id : InstId}

/-! ### After the run has ended -/

theorem i2cLine_of_ended (k : Nat) (i : I2CIn) (h : s.nonconv = some id) :
    i2cLine k i s = .fault (.nonConvergence id) :=
  guardRun_of_ended _ h

theorem lrLine_of_ended (k : Nat) (i : LRIn) (h : s.nonconv = some id) :
    lrLine k i s = .fault (.nonConvergence id) :=
  guardRun_of_ended _ h

theorem bsLine_of_ended (k : Nat) (i : BSIn) (h : s.nonconv = some id) :
    bsLine k i s = .fault (.nonConvergence id) :=
  guardRun_of_ended _ h

theorem onInst_of_ended (j : InstId) (r : Result) (h : s.nonconv = some id) :
    onInst j s r = .fault (.nonConvergence id) :=
  guardRun_of_ended _ h

/-- A frame of at least one bit faults at its first edge (R123, R262); a frame of no bits would have none. -/
theorem bsSend_of_ended (k : Nat) {bits : List Bool} (hb : bits ≠ []) (h : s.nonconv = some id) :
    bsSend k bits s = .fault (.nonConvergence id) := by
  obtain ⟨b, bs, rfl⟩ := List.exists_cons_of_ne_nil hb
  rw [bsSend, bsLine_of_ended k _ h, andThen]

theorem msbFirst_ne_nil {n : Nat} (hn : n ≠ 0) (w : BitVec 32) : msbFirst n w ≠ [] := by
  simpa [msbFirst] using hn

/-- Every operation of the opcode table faults after the run has ended. -/
theorem exec_of_ended (i : Instr) (h : s.nonconv = some id) : exec i s = .fault (.nonConvergence id) := by
  cases i with
  | i2cTick | i2cStart | i2cInWrite | i2cOutRead | i2cOutPublish => exact i2cLine_of_ended _ _ h
  | lrTick | lrStart => exact lrLine_of_ended _ _ h
  | bsTick => exact bsLine_of_ended _ _ h
  | bsReleasePowerDown | bsRead => exact bsSend_of_ended _ (msbFirst_ne_nil (by decide) _) h
  | hostReset | hostEvaluate | hostCommit => exact onInst_of_ended _ _ h

theorem step_of_ended (h : s.nonconv = some id) : step s = .fault (.nonConvergence id) :=
  guardRun_of_ended _ h

/-! ### An idle host -/

theorem step_of_idle (hn : s.nonconv = none) (hs : s.script = []) : step s = .next s := by
  rw [step, guardRun_of_running _ hn, hs]

/-- Settles O9: the guard of every step and operation, and the empty script. -/
theorem idleHostChangesNothingAndEndedRunFaults : Obligations.IdleHostChangesNothingAndEndedRunFaults :=
  fun _ => ⟨step_of_idle, fun _ h => ⟨step_of_ended h, fun i => exec_of_ended i h⟩⟩

end Sys2Proof.Machine
end

section
/-! PROOF. The machine's state over a run (10_state.md): the tick rules keep the invariants of the registers, every step is
a chain of changes of single instances, and a line changes no instance of another clock domain. From these: the machine's
invariant, the lifetime of parameters and trace, and the frame of an operation. -/

namespace Sys2Proof.Machine

open Relation (ReflTransGen)

/-! ### The I2C tick rule keeps the registers' invariant (R38 to R47)

Each step of the tick rule adds to the pending set, and keeps it one whose commit meets the invariant. -/

section I2cTick

variable {q : I2CParams} {c : I2CReg} {p : I2CPend}

theorem I2CReg.inv_reset (q : I2CParams) : I2CReg.reset.inv q := by
  simp [I2CReg.inv, I2CReg.reset]

theorem I2CParams.ok_timeout (h : q.ok = true) : 1 ≤ q.timeout := by
  simp only [I2CParams.ok, Bool.and_eq_true, decide_eq_true_eq] at h
  exact h.1.1.1

/-- The one slot of a SINGLE instance takes items from both sides, so its two widths agree (00_scope.md R12). -/
theorem I2CParams.ok_widths (h : q.ok = true) (hv : q.variant = .single) : q.outW = q.inW := by
  simp only [I2CParams.ok, Bool.and_eq_true, hv, beq_iff_eq] at h
  exact h.2.symm

theorem I2CPend.emptyInbound_inv (v : Variant) (h : (c.commit p).inv q) : (c.commit (p.emptyInbound v)).inv q := by
  obtain ⟨hb, hc, ht, hi, ho, hin, hout, hq⟩ := h
  cases v with
  | dual => exact ⟨hb, hc, ht, rfl, ho, hin, hout, hq⟩
  | single => exact ⟨hb, hc, ht, hi, ho, hin, hout, hq⟩

theorem I2CPend.fillInbound_inv (v : Variant) {d : Nat} (hd : d < 2 ^ q.inW) (h : (c.commit p).inv q) :
    (c.commit (p.fillInbound v d)).inv q := by
  obtain ⟨hb, hc, ht, hi, ho, hin, hout, hq⟩ := h
  cases v with
  | dual => exact ⟨hb, hc, ht, rfl, ho, hd, hout, hq⟩
  | single => exact ⟨hb, hc, ht, hi, ho, hin, hout, hd⟩

theorem I2CPend.emptyOutbound_inv (v : Variant) (h : (c.commit p).inv q) : (c.commit (p.emptyOutbound v)).inv q := by
  obtain ⟨hb, hc, ht, hi, ho, hin, hout, hq⟩ := h
  cases v with
  | dual => exact ⟨hb, hc, ht, hi, rfl, hin, hout, hq⟩
  | single => exact ⟨hb, hc, ht, hi, ho, hin, hout, hq⟩

theorem I2CPend.fillOutbound_inv {d : Nat} (hq : q.ok = true) (hd : d < 2 ^ q.outW) (h : (c.commit p).inv q) :
    (c.commit (p.fillOutbound q.variant d)).inv q := by
  obtain ⟨hb, hc, ht, hi, ho, hin, hout, hs⟩ := h
  cases hv : q.variant with
  | dual => exact ⟨hb, hc, ht, hi, rfl, hin, hd, hs⟩
  | single => exact ⟨hb, hc, ht, hi, ho, hin, hout, I2CParams.ok_widths hq hv ▸ hd⟩

theorem i2cStepAck_inv (i : I2CIn) (h : (c.commit p).inv q) : (c.commit (i2cStepAck i p)).inv q := h

theorem i2cStepOutRead_inv (v : Variant) (i : I2CIn) (h : (c.commit p).inv q) :
    (c.commit (i2cStepOutRead v c i p)).inv q := by
  unfold i2cStepOutRead
  split
  · exact I2CPend.emptyOutbound_inv v h
  · exact h

theorem i2cStepPublish_inv {i : I2CIn} (hq : q.ok = true) (hi : i.outDin < 2 ^ q.outW) (h : (c.commit p).inv q) :
    (c.commit (i2cStepPublish q.variant i p)).inv q := by
  unfold i2cStepPublish
  split
  · exact I2CPend.fillOutbound_inv hq hi h
  · exact h

theorem i2cStepIdle_inv (i : I2CIn) (hq : q.ok = true) (h : (c.commit p).inv q) :
    (c.commit (i2cStepIdle q.timeout i p)).inv q := by
  unfold i2cStepIdle
  split
  · obtain ⟨-, -, -, hrest⟩ := h
    exact ⟨iff_of_true rfl rfl, fun _ => I2CParams.ok_timeout hq, le_rfl, hrest⟩
  · exact h

theorem i2cStepConsume_inv (v : Variant) (h : (c.commit p).inv q) : (c.commit (i2cStepConsume v c p)).inv q := by
  unfold i2cStepConsume
  split
  · exact I2CPend.emptyInbound_inv v h
  · exact h

/-- The countdown either stays above 0 or ends the transaction (R47). -/
theorem i2cStepCount_inv {x : Nat} (hx : x ≤ q.timeout) (h : (c.commit p).inv q) :
    (c.commit (i2cStepCount x p)).inv q := by
  obtain ⟨hb, -, -, hrest⟩ := h
  have hle : x - 1 ≤ q.timeout := (Nat.sub_le x 1).trans hx
  unfold i2cStepCount
  split
  · exact ⟨iff_of_false Bool.false_ne_true nofun, nofun, hle, hrest⟩
  · rename_i hne
    exact ⟨hb, fun _ => Nat.one_le_iff_ne_zero.mpr hne, hle, hrest⟩

theorem i2cRearmed_le (v : Variant) (h : c.cnt ≤ q.timeout) : i2cRearmed v q.timeout c ≤ q.timeout := by
  unfold i2cRearmed
  split
  · exact le_rfl
  · exact h

theorem i2cStepFsm_inv (i : I2CIn) (hq : q.ok = true) (hc : c.cnt ≤ q.timeout) (h : (c.commit p).inv q) :
    (c.commit (i2cStepFsm q c i p)).inv q := by
  unfold i2cStepFsm
  split
  · exact i2cStepIdle_inv i hq h
  · exact i2cStepCount_inv (i2cRearmed_le _ hc) (i2cStepConsume_inv _ h)

theorem i2cStepCapture_inv (v : Variant) {i : I2CIn} (hi : i.inDin < 2 ^ q.inW) (h : (c.commit p).inv q) :
    (c.commit (i2cStepCapture v c i p)).inv q := by
  unfold i2cStepCapture
  split
  · exact I2CPend.fillInbound_inv v hi h
  · exact h

/-- One tick with parameters in range and data ports at their widths (41_i2c_target.md R161, R175). -/
theorem i2cTick_inv {i : I2CIn} (hq : q.ok = true) (hin : i.inDin < 2 ^ q.inW) (hout : i.outDin < 2 ^ q.outW)
    (h : c.inv q) : (c.commit (i2cTick q c i)).inv q := by
  have hcnt : c.cnt ≤ q.timeout := by obtain ⟨-, -, ht, -⟩ := h; exact ht
  have hack : (c.commit (i2cStepAck i {})).inv q := i2cStepAck_inv i h
  have hpub := i2cStepPublish_inv hq hout (i2cStepOutRead_inv q.variant i hack)
  exact i2cStepCapture_inv _ hin (i2cStepFsm_inv i hq hcnt hpub)

end I2cTick

/-! ### The LR tick rule keeps the registers' invariant (R49, R50, R52) -/

section LrTick

variable {q : LRParams} {c : LRReg} {i : LRIn}

theorem LRReg.inv_reset (q : LRParams) : LRReg.reset.inv q := by
  simp [LRReg.inv, LRReg.reset]

theorem lrStepStart_inv (m : Memory) (ha : i.addr < 2 ^ q.aw) (hl : i.len < 2 ^ q.lw) (h : c.inv q) :
    (c.commit (lrStepStart m q i {})).inv q := by
  unfold lrStepStart
  split
  · obtain ⟨hb, hv, hc, -, -⟩ := h
    split
    · exact ⟨iff_of_true rfl rfl, fun _ => rfl, le_rfl, ha, hl⟩
    · exact ⟨hb, hv, hc, ha, hl⟩
  · exact h

/-- In READING an edge ends the session, emits a byte or counts down; `valid` is high only after an emission. -/
theorem lrStepRead_inv (m : Memory) (hs : c.st = .reading) (h : c.inv q) :
    (c.commit (lrStepRead m q c {})).inv q := by
  obtain ⟨hb, -, hc, ha, hr⟩ := h
  simp only [lrStepRead]
  split
  · split
    · exact ⟨iff_of_false Bool.false_ne_true nofun, nofun, hc, ha, hr⟩
    · exact ⟨hb, fun _ => hs, le_rfl, Nat.mod_lt _ (Nat.two_pow_pos _), (Nat.sub_le _ _).trans_lt hr⟩
  · exact ⟨hb, nofun, (Nat.sub_le _ _).trans hc, ha, hr⟩

/-- One tick with operands at their widths (42_spinor_linear_reader.md R201). -/
theorem lrTick_inv (m : Memory) (ha : i.addr < 2 ^ q.aw) (hl : i.len < 2 ^ q.lw) (h : c.inv q) :
    (c.commit (lrTick m q c i)).inv q := by
  unfold lrTick
  split
  · exact lrStepStart_inv m ha hl h
  · rename_i hs
    exact lrStepRead_inv m hs h

end LrTick

/-! ### The BS tick rule keeps the registers' invariant (R55, R56, 43_spinor_bitserial.md R240, R247) -/

section BsTick

variable {q : BSParams} {c : BSReg} {i : BSIn} {m : Memory}

theorem BSReg.inv_reset (q : BSParams) : BSReg.reset.inv q := by
  simp [BSReg.inv, BSReg.reset]

/-- The locals of step 3 are in the registers' ranges. -/
theorem bsLocals_range (srn : Nat) (h : c.inv q) :
    (bsLocals q c srn).a < 2 ^ q.addrW ∧ (bsLocals q c srn).b ≤ 7 := by
  obtain ⟨hb, -, -, ha⟩ := h
  unfold bsLocals
  cases c.st with
  | idle | spd | spupd | dpu | reading => exact ⟨ha, hb⟩
  | spu =>
    simp only
    split
    · exact ⟨addrField_lt q srn, Nat.zero_le 7⟩
    · exact ⟨ha, hb⟩

/-- The READ action schedules a read address and a bit index in their ranges. -/
theorem bsStepRead_range {l : BSLocals} (p : BSPend) (ha : l.a < 2 ^ q.addrW) (hb : l.b ≤ 7) :
    ∃ a b, (bsStepRead m q i l p).raddr = some a ∧ (bsStepRead m q i l p).bidx = some b ∧ a < 2 ^ q.addrW ∧ b ≤ 7 := by
  unfold bsStepRead
  split <;> simp only <;> split
  case h_1.isTrue | h_1.isFalse => exact ⟨_, _, rfl, rfl, nextRaddr_lt q ha l.b, nextBidx_le hb⟩
  case h_2.isTrue | h_2.isFalse => exact ⟨_, _, rfl, rfl, ha, hb⟩

/-- Where the READ action runs, it gives the read address and the bit index. -/
theorem bsTick_read (h : (bsLocals q c (nextShift q c.sr i.si)).rd = true) : ∃ p,
    (bsTick m q c i).raddr = (bsStepRead m q i (bsLocals q c (nextShift q c.sr i.si)) p).raddr ∧
    (bsTick m q c i).bidx = (bsStepRead m q i (bsLocals q c (nextShift q c.sr i.si)) p).bidx := by
  refine ⟨bsStepState q c i (nextShift q c.sr i.si) { so := some false }, ?_⟩
  simp only [bsTick, bsStepShift, h, if_true]
  split <;> exact ⟨rfl, rfl⟩

theorem bsTick_range (h : c.inv q) :
    (c.commit (bsTick m q c i)).raddr < 2 ^ q.addrW ∧ (c.commit (bsTick m q c i)).bidx ≤ 7 := by
  cases hr : (bsLocals q c (nextShift q c.sr i.si)).rd with
  | false =>
    obtain ⟨-, hraddr, hbidx⟩ := bsTick_no_read q c i m hr
    obtain ⟨hb, -, -, ha⟩ := h
    simpa [BSReg.commit, hraddr, hbidx] using ⟨ha, hb⟩
  | true =>
    obtain ⟨p, hraddr, hbidx⟩ := bsTick_read (m := m) hr
    obtain ⟨ha, hb⟩ := bsLocals_range (nextShift q c.sr i.si) h
    obtain ⟨a, b, hpa, hpb, hla, hlb⟩ := bsStepRead_range (m := m) (i := i) p ha hb
    simpa [BSReg.commit, hraddr, hbidx, hpa, hpb] using ⟨hla, hlb⟩

/-- A selected edge leaves IDLE and DPU, and enters neither (R222). -/
theorem bsTick_st_of_selected (hcs : i.cs = true) :
    (c.commit (bsTick m q c i)).st ≠ .idle ∧ (c.commit (bsTick m q c i)).st ≠ .dpu := by
  have hread : ∀ (l : BSLocals) (p : BSPend), (bsStepRead m q i l p).st = p.st := by
    intro l p
    unfold bsStepRead
    split <;> rw [if_pos hcs]
  have hst : (bsTick m q c i).st = (bsStepState q c i (nextShift q c.sr i.si) { so := some false }).st := by
    simp only [bsTick, bsStepShift, if_pos hcs]
    split
    · exact hread _ _
    · rfl
  simp only [BSReg.commit, hst, bsStepState]
  cases hc : c.st with
  | idle | dpu => simp [hcs]
  | spupd => simp [hcs]
  | reading => simp
  | spd | spu => simp only; split <;> simp

/-- One tick (43_spinor_bitserial.md R221). An unselected edge clears the edge counter; a selected one does not end in IDLE
or DPU. -/
theorem bsTick_inv (h : c.inv q) : (c.commit (bsTick m q c i)).inv q := by
  obtain ⟨hraddr, hbidx⟩ := bsTick_range (m := m) (i := i) h
  have hsr : (c.commit (bsTick m q c i)).sr < 2 ^ q.srW := by
    obtain ⟨-, -, hs, -⟩ := h
    simp only [BSReg.commit, bsTick_sr]
    split
    · exact nextShift_lt q c.sr i.si
    · exact hs
  refine ⟨hbidx, fun hst => ?_, hsr, hraddr⟩
  cases hcs : i.cs with
  | false => simp [BSReg.commit, bsTick_ec, hcs]
  | true =>
    obtain ⟨hidle, hdpu⟩ := bsTick_st_of_selected (q := q) (c := c) (m := m) hcs
    exact absurd hst (not_or.mpr ⟨hidle, hdpu⟩)

end BsTick

/-! ### What can happen to one instance

Everything the host does changes an instance by a chain of a few changes; what each of these keeps, every step keeps. -/

/-- One change of an I2C instance: an input or the clock is driven, or it is evaluated, committed, reset, or its pending
set is discarded (40_clock_discipline.md R143, R145, 60_exceptions.md R262, 70_reset_and_hazards.md R280). It is evaluated
with parameters in their ranges only. -/
inductive I2CInst.Change (x : I2CInst) : I2CInst → Prop
  | input (i : I2CIn) : Change x { x with inp := i }
  | clock (v : Bool) : Change x { x with cd := x.cd.driveClk v }
  | evaluate (us : List (Wire × Nat)) (h : x.params.ok = true) :
      Change x { x.evaluate (x.inputs us) with sampled := us }
  | commit : Change x x.commit
  | discard : Change x { x with pend := {}, sampled := [], cd := x.cd.discard }
  | reset : Change x x.afterReset

/-- One change of an LR instance. -/
inductive LRInst.Change (x : LRInst) : LRInst → Prop
  | input (i : LRIn) : Change x { x with inp := i }
  | clock (v : Bool) : Change x { x with cd := x.cd.driveClk v }
  | evaluate (m : Memory) (us : List (Wire × Nat)) : Change x { x.evaluate m (x.inputs us) with sampled := us }
  | commit : Change x x.commit
  | discard : Change x { x with pend := {}, sampled := [], cd := x.cd.discard }
  | reset : Change x x.afterReset

/-- One change of a BS instance. -/
inductive BSInst.Change (x : BSInst) : BSInst → Prop
  | input (i : BSIn) : Change x { x with inp := i }
  | clock (v : Bool) : Change x { x with cd := x.cd.driveClk v }
  | evaluate (m : Memory) (us : List (Wire × Nat)) : Change x { x.evaluate m (x.inputs us) with sampled := us }
  | commit : Change x x.commit
  | discard : Change x { x with pend := {}, sampled := [], cd := x.cd.discard }
  | reset : Change x x.afterReset

/-- An I2C instance as it is created (70_reset_and_hazards.md R283). -/
def I2CInst.Created (x : I2CInst) : Prop := ∃ p d, x = I2CInst.initial p d false

/-- An LR instance as it is created. -/
def LRInst.Created (x : LRInst) : Prop := ∃ p d, x = LRInst.initial p d false

/-- A BS instance as it is created. -/
def BSInst.Created (x : BSInst) : Prop := ∃ p d, x = BSInst.initial p d false

/-! ### What can happen to the instances of one kind -/

/-- The list `m` of instances is a later form of `l`: each instance of `l` stands in its place after some changes, and each
further one has been created and changed since. -/
structure Descends {α : Type} (Change : α → α → Prop) (Created : α → Prop) (l m : List α) : Prop where
  lives : ∀ (k : Nat) (x : α), l[k]? = some x → ∃ y, m[k]? = some y ∧ ReflTransGen Change x y
  born : ∀ (k : Nat) (y : α), l[k]? = none → m[k]? = some y → ∃ x, Created x ∧ ReflTransGen Change x y

section Descends

variable {α : Type} {Change : α → α → Prop} {Created : α → Prop} {l m n : List α}

theorem Descends.refl (l : List α) : Descends Change Created l l where
  lives _ x hx := ⟨x, hx, .refl⟩
  born _ y hn hy := by rw [hn] at hy; cases hy

theorem Descends.trans (h₁ : Descends Change Created l m) (h₂ : Descends Change Created m n) :
    Descends Change Created l n where
  lives k x hx := by
    obtain ⟨y, hy, hxy⟩ := h₁.lives k x hx
    obtain ⟨z, hz, hyz⟩ := h₂.lives k y hy
    exact ⟨z, hz, hxy.trans hyz⟩
  born k z hn hz := by
    cases hm : m[k]? with
    | none => exact h₂.born k z hm hz
    | some y =>
      obtain ⟨x, hx, hxy⟩ := h₁.born k y hn hm
      obtain ⟨z', hz', hyz⟩ := h₂.lives k y hm
      cases hz.symm.trans hz'
      exact ⟨x, hx, hxy.trans hyz⟩

theorem Descends.mapIdx {f : Nat → α → α} (h : ∀ (k : Nat) (x : α), l[k]? = some x → ReflTransGen Change x (f k x)) :
    Descends Change Created l (l.mapIdx f) where
  lives k x hx := ⟨f k x, by simp [List.getElem?_mapIdx, hx], h k x hx⟩
  born k y hn hy := by simp [List.getElem?_mapIdx, hn] at hy

theorem Descends.append {x : α} (h : Created x) : Descends Change Created l (l ++ [x]) where
  lives k y hy := ⟨y, by rw [List.getElem?_append_left (List.getElem?_eq_some_iff.mp hy).1, hy], .refl⟩
  born k y hn hy := by
    rw [List.getElem?_append_right (List.getElem?_eq_none_iff.mp hn)] at hy
    cases List.mem_singleton.mp (List.mem_of_getElem? hy)
    exact ⟨x, h, .refl⟩

/-- What new instances have and changes keep, every later instance has. -/
theorem Descends.forall_mem {P : α → Prop} (h : Descends Change Created l m) (hc : ∀ x y, Change x y → P x → P y)
    (hn : ∀ x, Created x → P x) (hl : ∀ x ∈ l, P x) : ∀ y ∈ m, P y := by
  have chain : ∀ {x y}, ReflTransGen Change x y → P x → P y := by
    intro x y hxy hx
    induction hxy with
    | refl => exact hx
    | tail _ hyz ih => exact hc _ _ hyz ih
  intro y hy
  obtain ⟨k, hk⟩ := List.mem_iff_getElem?.mp hy
  cases hx : l[k]? with
  | none =>
    obtain ⟨x, hx, hxy⟩ := h.born k y hx hk
    exact chain hxy (hn x hx)
  | some x =>
    obtain ⟨y', hy', hxy⟩ := h.lives k x hx
    cases hk.symm.trans hy'
    exact chain hxy (hl x (List.mem_of_getElem? hx))

/-- A reflexive and transitive relation that every change meets, holds between an instance and what becomes of it. -/
theorem Descends.related {R : α → α → Prop} (h : Descends Change Created l m) (hr : ∀ x, R x x)
    (ht : ∀ x y z, R x y → R y z → R x z) (hc : ∀ x y, Change x y → R x y) {k : Nat} {x : α} (hx : l[k]? = some x) :
    ∃ y, m[k]? = some y ∧ R x y := by
  obtain ⟨y, hy, hxy⟩ := h.lives k x hx
  refine ⟨y, hy, ?_⟩
  clear hy
  induction hxy with
  | refl => exact hr x
  | tail _ hyz ih => exact ht _ _ _ ih (hc _ _ hyz)

end Descends

/-! ### What can happen to the machine -/

/-- The state `t` is a later one of `s`: its instances descend from those of `s`, and its image is that of `s` or a well-formed
one supplied since (20_memory.md R80, R82). -/
structure State.Later (s t : State) : Prop where
  i2cs : Descends I2CInst.Change I2CInst.Created s.i2cs t.i2cs
  lrs : Descends LRInst.Change LRInst.Created s.lrs t.lrs
  bss : Descends BSInst.Change BSInst.Created s.bss t.bss
  image : t.mem = s.mem ∨ t.mem.imageOk = true

section Later

variable {s t u : State} {sc : Scope}

theorem State.Later.trans (h₁ : s.Later t) (h₂ : t.Later u) : s.Later u where
  i2cs := h₁.i2cs.trans h₂.i2cs
  lrs := h₁.lrs.trans h₂.lrs
  bss := h₁.bss.trans h₂.bss
  image := by
    rcases h₂.image with he | hok
    · rw [he]; exact h₁.image
    · exact .inr hok

/-- A change of the host's own fields, or of the image for a well-formed one. -/
theorem State.Later.of_insts (hi : t.i2cs = s.i2cs) (hl : t.lrs = s.lrs) (hb : t.bss = s.bss)
    (hm : t.mem = s.mem ∨ t.mem.imageOk = true) : s.Later t :=
  ⟨hi ▸ .refl _, hl ▸ .refl _, hb ▸ .refl _, hm⟩

theorem State.Later.refl (s : State) : s.Later s := .of_insts rfl rfl rfl (.inl rfl)

theorem State.Later.withScript (as : List HostAct) : s.Later (s.withScript as) := .of_insts rfl rfl rfl (.inl rfl)

theorem State.Later.withOvertaken (os : List Overtaken) (h : s.Later t) : s.Later (t.withOvertaken os) :=
  h.trans (.of_insts rfl rfl rfl (.inl rfl))

theorem State.Later.mapScope {fi : Nat → I2CInst → I2CInst} {fl : Nat → LRInst → LRInst} {fb : Nat → BSInst → BSInst}
    (hi : ∀ k x, s.i2cs[k]? = some x → sc.has (.i2c k) x.cd = true → ReflTransGen I2CInst.Change x (fi k x))
    (hl : ∀ k x, s.lrs[k]? = some x → sc.has (.lr k) x.cd = true → ReflTransGen LRInst.Change x (fl k x))
    (hb : ∀ k x, s.bss[k]? = some x → sc.has (.bs k) x.cd = true → ReflTransGen BSInst.Change x (fb k x)) :
    s.Later (s.mapScope sc fi fl fb) where
  i2cs := .mapIdx fun k x hx => by
    split
    · exact hi k x hx ‹_›
    · exact .refl
  lrs := .mapIdx fun k x hx => by
    split
    · exact hl k x hx ‹_›
    · exact .refl
  bss := .mapIdx fun k x hx => by
    split
    · exact hb k x hx ‹_›
    · exact .refl
  image := .inl rfl

/-! ### The clock discipline (40_clock_discipline.md R141 to R151) -/

theorem State.Later.driveClk (d : Nat) (v : Bool) : s.Later (s.driveClk d v) :=
  .withOvertaken _ (.mapScope (fun _ _ _ _ => .single (.clock v)) (fun _ _ _ _ => .single (.clock v))
    fun _ _ _ _ => .single (.clock v))

theorem State.Later.committed (sc : Scope) : s.Later (s.committed sc) :=
  .withOvertaken _ (.mapScope (fun _ _ _ _ => .single .commit) (fun _ _ _ _ => .single .commit)
    fun _ _ _ _ => .single .commit)

theorem State.Later.afterReset (sc : Scope) : s.Later (s.afterReset sc) :=
  .withOvertaken _ (.mapScope (fun _ _ _ _ => .single .reset) (fun _ _ _ _ => .single .reset)
    fun _ _ _ _ => .single .reset)

theorem State.Later.raise (id : InstId) : s.Later (s.raise id) :=
  have hd : s.Later (s.discard id) := .mapScope (fun _ _ _ _ => .single .discard) (fun _ _ _ _ => .single .discard)
    fun _ _ _ _ => .single .discard
  hd.trans (.of_insts rfl rfl rfl (.inl rfl))

/-- An evaluation of instances whose parameters are in their ranges. -/
theorem State.Later.evaluated (h : ∀ id ∈ s.inScope sc, s.paramsOk id = true) : s.Later (s.evaluated sc) := by
  have hm : s.Later (s.mapScope sc
      (fun k x => { x.evaluate (s.i2cInputs k x) with sampled := s.wireValues (.i2c k) })
      (fun k x => { x.evaluate s.mem (s.lrInputs k x) with sampled := s.wireValues (.lr k) })
      (fun k x => { x.evaluate s.mem (s.bsInputs k x) with sampled := s.wireValues (.bs k) })) := by
    refine .mapScope (fun k x hx hs => .single (.evaluate _ ?_)) (fun _ _ _ _ => .single (.evaluate _ _))
      fun _ _ _ _ => .single (.evaluate _ _)
    have hok := h (.i2c k) ((State.mem_inScope _).mpr ⟨x.cd, by simp [State.cd?, hx], hs⟩)
    simpa [State.paramsOk, hx] using hok
  exact hm.trans (.of_insts rfl rfl rfl (.inl rfl))

/-- Instances that are not refused have their parameters in their ranges (60_exceptions.md R275). -/
theorem evaluate_later (h : evaluate sc s = .next t) : s.Later t := by
  obtain ⟨hb, ⟨rfl, -⟩ | ⟨id, -, -, -, rfl⟩⟩ := evaluate_next h
  · refine .evaluated fun id hid => ?_
    obtain ⟨_, -, -, hp, -⟩ := State.of_blocked_none (hb id hid)
    exact hp
  · exact .raise id

theorem commitChecked_later {id : InstId} (h : commitChecked id s = .next t) : s.Later t := by
  rcases commitChecked_next h with ⟨-, rfl⟩ | ⟨-, -, rfl⟩
  · exact .committed _
  · exact .raise id

theorem cycle_later {d : Nat} (h : cycle d s = .next t) : s.Later t :=
  cycle_keeps (P := s.Later) (fun _ v hu => hu.trans (.driveClk d v)) (fun _ _ hu he => hu.trans (evaluate_later he))
    (fun _ hu => hu.trans (.committed _)) (.refl s) h

/-! ### The operations of the opcode table -/

theorem i2cLine_later {k : Nat} {i : I2CIn} (h : i2cLine k i s = .next t) : s.Later t := by
  obtain ⟨-, h⟩ := guardRun_next h
  split at h
  · have hset : s.Later (s.setI2cIn k i) :=
      .mapScope (fun _ _ _ _ => .single (.input i)) (fun _ _ _ _ => .refl) fun _ _ _ _ => .refl
    exact hset.trans (cycle_later h)
  · cases h

theorem lrLine_later {k : Nat} {i : LRIn} (h : lrLine k i s = .next t) : s.Later t := by
  obtain ⟨-, h⟩ := guardRun_next h
  split at h
  · have hset : s.Later (s.setLrIn k i) :=
      .mapScope (fun _ _ _ _ => .refl) (fun _ _ _ _ => .single (.input i)) fun _ _ _ _ => .refl
    exact hset.trans (cycle_later h)
  · cases h

theorem bsLine_later {k : Nat} {i : BSIn} (h : bsLine k i s = .next t) : s.Later t := by
  obtain ⟨-, h⟩ := guardRun_next h
  split at h
  · have hset : s.Later (s.setBsIn k i) :=
      .mapScope (fun _ _ _ _ => .refl) (fun _ _ _ _ => .refl) fun _ _ _ _ => .single (.input i)
    exact hset.trans (cycle_later h)
  · cases h

theorem bsSend_later {k : Nat} {bits : List Bool} (h : bsSend k bits s = .next t) : s.Later t := by
  induction bits generalizing s with
  | nil => cases h; exact .refl _
  | cons b bs ih =>
    obtain ⟨u, hu, ⟨-, rfl⟩ | ⟨-, hr⟩⟩ := andThen_next h
    · exact bsLine_later hu
    · exact (bsLine_later hu).trans (ih hr)

theorem exec_later {i : Instr} (h : exec i s = .next t) : s.Later t := by
  cases i with
  | i2cTick | i2cStart | i2cInWrite | i2cOutRead | i2cOutPublish => exact i2cLine_later h
  | lrTick | lrStart => exact lrLine_later h
  | bsTick => exact bsLine_later h
  | bsReleasePowerDown | bsRead => exact bsSend_later h
  | hostReset id => obtain ⟨-, -, h⟩ := onInst_next h; cases h; exact .afterReset _
  | hostEvaluate id => obtain ⟨-, -, h⟩ := onInst_next h; exact evaluate_later h
  | hostCommit id => obtain ⟨-, -, h⟩ := onInst_next h; exact commitChecked_later h

/-! ### The host's other actions (log 22) -/

theorem undecodedLine_later {l : Line} {e : DecodeError} (h : undecodedLine l e s = .next t) : s.Later t := by
  unfold undecodedLine at h
  split at h
  · cases h; exact .withScript _
  · cases h

theorem drivePort_later {id : InstId} {p : InPort} {v : Nat} (h : drivePort id p v s = .next t) : s.Later t := by
  unfold drivePort at h
  split at h
  · cases h
  split at h
  · cases h
  · cases h
    exact .mapScope (fun _ _ _ _ => .single (.input _)) (fun _ _ _ _ => .single (.input _))
      fun _ _ _ _ => .single (.input _)

theorem connect_later {w : Wire} (h : connect w s = .next t) : s.Later t := by
  unfold connect at h
  split_ifs at h
  cases h
  exact .of_insts rfl rfl rfl (.inl rfl)

theorem supplyImage_later {base len : Nat} {content : List Byte} (h : supplyImage base len content s = .next t) :
    s.Later t := by
  have hok := supplyImage_imageOk h
  unfold supplyImage at h
  split_ifs at h
  cases h
  exact .of_insts rfl rfl rfl (.inr hok)

theorem createInst_later {n : NewInst} (h : createInst n s = .next t) : s.Later t := by
  cases n with
  | i2c p d =>
    simp only [createInst] at h
    split at h
    · cases h; exact ⟨.append ⟨p, d, rfl⟩, .refl _, .refl _, .inl rfl⟩
    · cases h
  | lr p d =>
    simp only [createInst] at h
    split at h
    · cases h; exact ⟨.refl _, .append ⟨p, d, rfl⟩, .refl _, .inl rfl⟩
    · cases h
  | bs p d => cases h; exact ⟨.refl _, .refl _, .append ⟨p, d, rfl⟩, .inl rfl⟩

theorem act_later {a : HostAct} (h : act a s = .next t) : s.Later t := by
  cases a with
  | line l =>
    simp only [act] at h
    split at h
    · exact exec_later h
    · exact undecodedLine_later h
  | pseudo p => cases h; exact .withScript _
  | drive id p v => exact drivePort_later h
  | clock d v => cases h; exact .driveClk d v
  | connect w => exact connect_later h
  | image base len content => exact supplyImage_later h
  | create n => exact createInst_later h

/-- Every step gives a later state. -/
theorem step_later (h : step s = .next t) : s.Later t := by
  obtain ⟨-, h⟩ := guardRun_next h
  split at h
  · cases h; exact .refl s
  · exact (State.Later.withScript _).trans (act_later h)

end Later

variable {s t : State} {sc : Scope}

/-! ### Every change of an instance keeps its invariant -/

theorem I2CInst.inputs_inDin_lt (x : I2CInst) (us : List (Wire × Nat)) : (x.inputs us).inDin < 2 ^ x.params.inW :=
  lowBits_lt _ _

theorem I2CInst.inputs_outDin_lt (x : I2CInst) (us : List (Wire × Nat)) : (x.inputs us).outDin < 2 ^ x.params.outW :=
  lowBits_lt _ _

theorem LRInst.inputs_addr_lt (x : LRInst) (us : List (Wire × Nat)) : (x.inputs us).addr < 2 ^ x.params.aw :=
  lowBits_lt _ _

theorem LRInst.inputs_len_lt (x : LRInst) (us : List (Wire × Nat)) : (x.inputs us).len < 2 ^ x.params.lw :=
  lowBits_lt _ _

theorem I2CInst.Change.keeps_inv {x y : I2CInst} (h : x.Change y) (hx : x.inv) : y.inv := by
  obtain ⟨hreg, hpend, hempty⟩ := hx
  cases h with
  | input => exact ⟨hreg, hpend, hempty⟩
  | clock v => exact ⟨hreg, hpend, by simpa using hempty⟩
  | commit => exact ⟨hpend, hpend, fun _ => rfl⟩
  | discard => exact ⟨hreg, hreg, fun _ => rfl⟩
  | reset => exact ⟨I2CReg.inv_reset _, I2CReg.inv_reset _, fun _ => rfl⟩
  | evaluate us hok =>
    refine ⟨hreg, ?_, nofun⟩
    simp only [I2CInst.evaluate_reg, I2CInst.evaluate_params, I2CInst.evaluate_pend]
    split
    · exact i2cTick_inv hok (x.inputs_inDin_lt us) (x.inputs_outDin_lt us) hreg
    · exact hreg

theorem LRInst.Change.keeps_inv {x y : LRInst} (h : x.Change y) (hx : x.inv) : y.inv := by
  obtain ⟨hreg, hpend, hempty⟩ := hx
  cases h with
  | input => exact ⟨hreg, hpend, hempty⟩
  | clock v => exact ⟨hreg, hpend, by simpa using hempty⟩
  | commit => exact ⟨hpend, hpend, fun _ => rfl⟩
  | discard => exact ⟨hreg, hreg, fun _ => rfl⟩
  | reset => exact ⟨LRReg.inv_reset _, LRReg.inv_reset _, fun _ => rfl⟩
  | evaluate m us =>
    refine ⟨hreg, ?_, nofun⟩
    simp only [LRInst.evaluate_reg, LRInst.evaluate_params, LRInst.evaluate_pend]
    split
    · exact lrTick_inv m (x.inputs_addr_lt us) (x.inputs_len_lt us) hreg
    · exact hreg

theorem BSInst.Change.keeps_inv {x y : BSInst} (h : x.Change y) (hx : x.inv) : y.inv := by
  obtain ⟨hreg, hpend, hempty⟩ := hx
  cases h with
  | input => exact ⟨hreg, hpend, hempty⟩
  | clock v => exact ⟨hreg, hpend, by simpa using hempty⟩
  | commit => exact ⟨hpend, hpend, fun _ => rfl⟩
  | discard => exact ⟨hreg, hreg, fun _ => rfl⟩
  | reset => exact ⟨BSReg.inv_reset _, BSReg.inv_reset _, fun _ => rfl⟩
  | evaluate m us =>
    refine ⟨hreg, ?_, nofun⟩
    simp only [BSInst.evaluate_reg, BSInst.evaluate_params, BSInst.evaluate_pend]
    split
    · exact bsTick_inv hreg
    · exact hreg

theorem I2CInst.inv_initial (p : I2CParams) (d : Nat) (r : Bool) : (I2CInst.initial p d r).inv :=
  ⟨I2CReg.inv_reset p, I2CReg.inv_reset p, fun _ => rfl⟩

theorem LRInst.inv_initial (p : LRParams) (d : Nat) (r : Bool) : (LRInst.initial p d r).inv :=
  ⟨LRReg.inv_reset p, LRReg.inv_reset p, fun _ => rfl⟩

theorem BSInst.inv_initial (p : BSParams) (d : Nat) (r : Bool) : (BSInst.initial p d r).inv :=
  ⟨BSReg.inv_reset p, BSReg.inv_reset p, fun _ => rfl⟩

/-! ### The machine's invariant -/

theorem State.Later.keeps_inv (h : s.Later t) (hs : s.Inv) : t.Inv := by
  obtain ⟨hi, hl, hb, hm⟩ := hs
  refine ⟨h.i2cs.forall_mem (fun _ _ => I2CInst.Change.keeps_inv) ?_ hi,
    h.lrs.forall_mem (fun _ _ => LRInst.Change.keeps_inv) ?_ hl,
    h.bss.forall_mem (fun _ _ => BSInst.Change.keeps_inv) ?_ hb, ?_⟩
  · rintro _ ⟨p, d, rfl⟩; exact I2CInst.inv_initial p d false
  · rintro _ ⟨p, d, rfl⟩; exact LRInst.inv_initial p d false
  · rintro _ ⟨p, d, rfl⟩; exact BSInst.inv_initial p d false
  · rcases h.image with he | hok
    · rw [he]; exact hm
    · exact hok

/-- Settles O57: a step is a chain of changes of instances, each of which keeps its instance's invariant. -/
theorem everyStepKeepsTheInvariants : Obligations.EveryStepKeepsTheInvariants :=
  fun _ _ hs h => (step_later h).keeps_inv hs

/-- Settles O58: every instance of the reset system is an initial one, and its window is empty. -/
theorem resetMeetsTheInvariants : Obligations.ResetMeetsTheInvariants := by
  refine ⟨?_, ?_, ?_, State.reset_mem_imageOk⟩
  · exact List.forall_mem_cons.mpr ⟨I2CInst.inv_initial _ _ _,
      List.forall_mem_singleton.mpr (I2CInst.inv_initial _ _ _)⟩
  · exact List.forall_mem_singleton.mpr (LRInst.inv_initial _ _ _)
  · exact List.forall_mem_singleton.mpr (BSInst.inv_initial _ _ _)

/-! ### What an instance keeps for its lifetime -/

/-- What stays of an I2C instance: its parameters and its clock domain; and its trace only grows (10_state.md R31, R60). -/
def I2CInst.Grown (x y : I2CInst) : Prop := y.params = x.params ∧ y.cd.domain = x.cd.domain ∧ x.trace <+: y.trace

/-- What stays of an LR instance. -/
def LRInst.Kept (x y : LRInst) : Prop := y.params = x.params ∧ y.cd.domain = x.cd.domain

/-- What stays of a BS instance. -/
def BSInst.Kept (x y : BSInst) : Prop := y.params = x.params ∧ y.cd.domain = x.cd.domain

theorem isPrefix_appendConsumed (tr : List TraceEvent) (p : I2CPend) : tr <+: appendConsumed tr p := by
  unfold appendConsumed
  split
  · exact List.prefix_append _ _
  · exact List.prefix_rfl

theorem I2CInst.Change.grown {x y : I2CInst} (h : x.Change y) : x.Grown y := by
  cases h with
  | clock v => exact ⟨rfl, CD.driveClk_domain v x.cd, List.prefix_rfl⟩
  | commit => exact ⟨rfl, rfl, isPrefix_appendConsumed x.trace x.pend⟩
  | input | evaluate | discard | reset => exact ⟨rfl, rfl, List.prefix_rfl⟩

theorem LRInst.Change.kept {x y : LRInst} (h : x.Change y) : x.Kept y := by
  cases h with
  | clock v => exact ⟨rfl, CD.driveClk_domain v x.cd⟩
  | input | evaluate | commit | discard | reset => exact ⟨rfl, rfl⟩

theorem BSInst.Change.kept {x y : BSInst} (h : x.Change y) : x.Kept y := by
  cases h with
  | clock v => exact ⟨rfl, CD.driveClk_domain v x.cd⟩
  | input | evaluate | commit | discard | reset => exact ⟨rfl, rfl⟩

theorem State.Later.i2c_grown (h : s.Later t) {k : Nat} {x : I2CInst} (hx : s.i2cs[k]? = some x) :
    ∃ y, t.i2cs[k]? = some y ∧ x.Grown y :=
  h.i2cs.related (fun _ => ⟨rfl, rfl, List.prefix_rfl⟩)
    (fun _ _ _ ⟨hp, hd, ht⟩ ⟨hp', hd', ht'⟩ => ⟨hp'.trans hp, hd'.trans hd, ht.trans ht'⟩)
    (fun _ _ => I2CInst.Change.grown) hx

theorem State.Later.lr_kept (h : s.Later t) {k : Nat} {x : LRInst} (hx : s.lrs[k]? = some x) :
    ∃ y, t.lrs[k]? = some y ∧ x.Kept y :=
  h.lrs.related (fun _ => ⟨rfl, rfl⟩) (fun _ _ _ ⟨hp, hd⟩ ⟨hp', hd'⟩ => ⟨hp'.trans hp, hd'.trans hd⟩)
    (fun _ _ => LRInst.Change.kept) hx

theorem State.Later.bs_kept (h : s.Later t) {k : Nat} {x : BSInst} (hx : s.bss[k]? = some x) :
    ∃ y, t.bss[k]? = some y ∧ x.Kept y :=
  h.bss.related (fun _ => ⟨rfl, rfl⟩) (fun _ _ _ ⟨hp, hd⟩ ⟨hp', hd'⟩ => ⟨hp'.trans hp, hd'.trans hd⟩)
    (fun _ _ => BSInst.Change.kept) hx

/-- Settles O59: every change of an instance keeps its parameters, and only a commit touches the trace, at its end. -/
theorem parametersStayAndTraceOnlyGrows : Obligations.ParametersStayAndTraceOnlyGrows := by
  intro s t k h
  refine ⟨fun x hx => ?_, fun x hx => ?_, fun x hx => ?_⟩
  · obtain ⟨y, hy, hp, -, ht⟩ := (step_later h).i2c_grown hx
    exact ⟨y, hy, hp, ht⟩
  · obtain ⟨y, hy, hp, -⟩ := (step_later h).lr_kept hx
    exact ⟨y, hy, hp⟩
  · obtain ⟨y, hy, hp, -⟩ := (step_later h).bs_kept hx
    exact ⟨y, hy, hp⟩

/-! ### What a line leaves alone (R30) -/

section Frame

variable {d k : Nat}

theorem State.sameOutside.refl (s : State) (d : Nat) : s.sameOutside s d :=
  ⟨fun _ => rfl, rfl, rfl, rfl, rfl, fun _ _ h _ => h, fun _ _ h _ => h, fun _ _ h _ => h⟩

/-- A change of instances of one clock domain leaves everything outside it alone. -/
theorem State.sameOutside_mapScope {fi : Nat → I2CInst → I2CInst} {fl : Nat → LRInst → LRInst}
    {fb : Nat → BSInst → BSInst} (h : ∀ id c, s.cd? id = some c → sc.has id c = true → c.domain = d) :
    s.sameOutside (s.mapScope sc fi fl fb) d := by
  have hout : ∀ id c, s.cd? id = some c → c.domain ≠ d → sc.has id c = false := fun id c hc hd =>
    Bool.eq_false_iff.mpr fun hs => hd (h id c hc hs)
  refine ⟨fun _ => rfl, rfl, rfl, rfl, rfl, fun k x hx hd => ?_, fun k x hx hd => ?_, fun k x hx hd => ?_⟩
  · simp [State.mapScope_i2c, hx, hout (.i2c k) x.cd (by simp [State.cd?, hx]) hd]
  · simp [State.mapScope_lr, hx, hout (.lr k) x.cd (by simp [State.cd?, hx]) hd]
  · simp [State.mapScope_bs, hx, hout (.bs k) x.cd (by simp [State.cd?, hx]) hd]

/-- The scope of a clock domain lies in that domain. -/
theorem Scope.domain_of_has {id : InstId} {c : CD} (h : (Scope.domain d).has id c = true) : c.domain = d := by
  simpa [Scope.has] using h

/-- The scope of one instance lies in its clock domain. -/
theorem State.domain_of_has_one {id : InstId} {c : CD} (hc : s.cd? id = some c) (hd : c.domain = d) :
    ∀ id' c', s.cd? id' = some c' → (Scope.one id).has id' c' = true → c'.domain = d := by
  intro id' c' hc' hs
  have hid : id' = id := by simpa [Scope.has] using hs
  subst hid
  cases hc.symm.trans hc'
  exact hd

theorem State.sameOutside_driveClk (v : Bool) : s.sameOutside (s.driveClk d v) d :=
  State.sameOutside_mapScope (s := s) (sc := .domain d) fun _ _ _ => Scope.domain_of_has

theorem State.sameOutside_committed : s.sameOutside (s.committed (.domain d)) d :=
  State.sameOutside_mapScope (s := s) (sc := .domain d) fun _ _ _ => Scope.domain_of_has

theorem State.sameOutside_evaluated : s.sameOutside (s.evaluated (.domain d)) d :=
  State.sameOutside_mapScope (s := s) (sc := .domain d) fun _ _ _ => Scope.domain_of_has

theorem State.sameOutside_raise {id : InstId} {c : CD} (hc : s.cd? id = some c) (hd : c.domain = d) :
    s.sameOutside (s.raise id) d :=
  State.sameOutside_mapScope (s := s) (sc := .one id) (State.domain_of_has_one hc hd)

theorem evaluate_sameOutside (h : evaluate (.domain d) s = .next t) : s.sameOutside t d := by
  obtain ⟨-, ⟨rfl, -⟩ | ⟨id, hid, -, -, rfl⟩⟩ := evaluate_next h
  · exact State.sameOutside_evaluated
  · obtain ⟨c, hc, hd⟩ := (State.mem_inScope id).mp hid
    exact State.sameOutside_raise hc (Scope.domain_of_has hd)

theorem cycle_sameOutside (h : cycle d s = .next t) : s.sameOutside t d :=
  cycle_keeps (P := fun u => s.sameOutside u d) (fun _ v hu => hu.trans (State.sameOutside_driveClk v))
    (fun _ _ hu he => hu.trans (evaluate_sameOutside he)) (fun _ hu => hu.trans State.sameOutside_committed)
    (.refl s d) h

theorem i2cLine_sameOutside {x : I2CInst} {i : I2CIn} (hx : s.i2cs[k]? = some x) (h : i2cLine k i s = .next t) :
    s.sameOutside t x.cd.domain := by
  obtain ⟨-, h⟩ := guardRun_next h
  simp only [hx] at h
  have hset : s.sameOutside (s.setI2cIn k i) x.cd.domain :=
    State.sameOutside_mapScope (State.domain_of_has_one (c := x.cd) (by simp [State.cd?, hx]) rfl)
  exact hset.trans (cycle_sameOutside h)

theorem lrLine_sameOutside {x : LRInst} {i : LRIn} (hx : s.lrs[k]? = some x) (h : lrLine k i s = .next t) :
    s.sameOutside t x.cd.domain := by
  obtain ⟨-, h⟩ := guardRun_next h
  simp only [hx] at h
  have hset : s.sameOutside (s.setLrIn k i) x.cd.domain :=
    State.sameOutside_mapScope (State.domain_of_has_one (c := x.cd) (by simp [State.cd?, hx]) rfl)
  exact hset.trans (cycle_sameOutside h)

theorem bsLine_sameOutside {x : BSInst} {i : BSIn} (hx : s.bss[k]? = some x) (h : bsLine k i s = .next t) :
    s.sameOutside t x.cd.domain := by
  obtain ⟨-, h⟩ := guardRun_next h
  simp only [hx] at h
  have hset : s.sameOutside (s.setBsIn k i) x.cd.domain :=
    State.sameOutside_mapScope (State.domain_of_has_one (c := x.cd) (by simp [State.cd?, hx]) rfl)
  exact hset.trans (cycle_sameOutside h)

/-- Every edge of a frame is one of the same clock domain, since an instance's domain is fixed. -/
theorem bsSend_sameOutside {bits : List Bool} {x : BSInst} (hx : s.bss[k]? = some x)
    (h : bsSend k bits s = .next t) : s.sameOutside t x.cd.domain := by
  induction bits generalizing s x with
  | nil => cases h; exact .refl _ _
  | cons b bs ih =>
    obtain ⟨u, hu, ⟨-, rfl⟩ | ⟨-, hr⟩⟩ := andThen_next h
    · exact bsLine_sameOutside hx hu
    · obtain ⟨y, hy, -, hd⟩ := (bsLine_later hu).bs_kept hx
      exact (bsLine_sameOutside hx hu).trans (hd ▸ ih hy hr)

/-- The operation of an I2C control vector is the line that drives its inputs (30_encoding.md R111, R112). -/
theorem exec_i2cOp (i : I2CIn) : exec (i.op k) s = i2cLine k i s := by
  obtain ⟨start, inWe, outRe, outPub, ackIn, inDin, outDin⟩ := i
  cases start with
  | true => rfl
  | false =>
    cases inWe with
    | true => rfl
    | false =>
      cases outRe with
      | true => rfl
      | false => cases outPub <;> rfl

theorem exec_lrOp (i : LRIn) : exec (i.op k) s = lrLine k i s := by
  obtain ⟨start, addr, len⟩ := i
  cases start <;> rfl

theorem exec_bsOp (i : BSIn) : exec (i.op k) s = bsLine k i s := rfl

end Frame

/-- Settles O11: a line's cycle changes instances of its clock domain only, and a frame is a sequence of such lines. -/
theorem operationLeavesOtherDomainsAlone : Obligations.OperationLeavesOtherDomainsAlone := by
  intro s t k
  refine ⟨fun x i hx h => ?_, fun x i hx h => ?_, fun x i addr hx h => ?_⟩
  · exact i2cLine_sameOutside hx (exec_i2cOp i ▸ h)
  · exact lrLine_sameOutside hx (exec_lrOp i ▸ h)
  · rcases h with h | h | h
    · exact bsLine_sameOutside hx (exec_bsOp i ▸ h)
    · exact bsSend_sameOutside hx h
    · exact bsSend_sameOutside hx h

end Sys2Proof.Machine
end

section
/-! PROOF. The image (20_memory.md R80 to R84): what each supply of it answers, and that a run keeps it. -/

namespace Sys2Proof.Machine

variable {s t u : State}

/-! ### What a supply of the image answers -/

section Supply

variable {base len : Nat} {content : List Byte}

/-- After the first evaluation another image is refused (R84). -/
theorem supplyImage_of_changed (hs : s.started = true) (hm : s.mem ≠ Memory.ofImage base len content) :
    supplyImage base len content s = .refused .imageChanged := by
  simp [supplyImage, hs, hm]

/-- Before the first evaluation a content of another length than the window is refused (R82). -/
theorem supplyImage_of_length_ne (hs : s.started = false) (hl : content.length ≠ len) :
    supplyImage base len content s = .refused .imageLength := by
  simp [supplyImage, hs, hl]

/-- A content of the window's length is the image, before the first evaluation or where it changes nothing (log 27). -/
theorem supplyImage_eq (hs : s.started = true → s.mem = Memory.ofImage base len content) (hl : content.length = len) :
    supplyImage base len content s = .next (s.withMem (Memory.ofImage base len content)) := by
  have hc : (s.started && s.mem != Memory.ofImage base len content) = false := by simpa using hs
  simp [supplyImage, hc, hl]

/-- A supply that answers after the first evaluation is of the image that stands. -/
theorem supplyImage_keeps_mem (hs : s.started = true) (h : supplyImage base len content s = .next t) :
    t.mem = s.mem ∧ t.started = true := by
  unfold supplyImage at h
  split_ifs at h with hc hl
  cases h
  have hm : s.mem = Memory.ofImage base len content := by simpa [hs] using hc
  exact ⟨hm.symm, hs⟩

theorem step_image {rest : List HostAct} (hn : s.nonconv = none) (h : s.script = .image base len content :: rest) :
    step s = supplyImage base len content (s.withScript rest) := by
  rw [step, guardRun_of_running _ hn, h]
  rfl

/-- No address out of the window has a byte, whatever the content. -/
theorem Memory.read_ofImage_out {a : Nat} (ha : a < base ∨ base + len ≤ a) :
    (Memory.ofImage base len content).read a = none := by
  refine Memory.read_none_of_not_inWindow (Bool.eq_false_iff.mpr fun hw => ?_)
  have hw : base ≤ a ∧ a < base + len := (Memory.inWindow_iff _ a).mp hw
  omega

end Supply

/-- Settles O54: the cases of a supply, and the read-back of the image it builds. -/
theorem imageReadsBackAndIsFixedAfterTheFirstEvaluation :
    Obligations.ImageReadsBackAndIsFixedAfterTheFirstEvaluation := by
  intro s base len content rest hn hscript
  rw [step_image hn hscript]
  refine ⟨fun hs hm => supplyImage_of_changed hs hm, fun hs hm hl => ?_, fun hs hl => supplyImage_of_length_ne hs hl,
    fun hs hl => ?_⟩
  · rw [supplyImage_eq (s := s.withScript rest) (fun _ => hm) hl, ← hm]
    rfl
  · have hfresh : (s.withScript rest).started = true → (s.withScript rest).mem = Memory.ofImage base len content :=
      fun h => absurd (hs.symm.trans h) Bool.false_ne_true
    refine ⟨_, supplyImage_eq hfresh hl, fun j hj => ?_, fun a ha => Memory.read_ofImage_out ha⟩
    subst hl
    rw [List.getElem?_eq_getElem hj]
    exact Memory.read_ofImage content base j hj

/-! ### What a run keeps -/

/-- The image stays, and a run that has begun stays begun (R84). -/
def State.KeepsImage (s t : State) : Prop := t.mem = s.mem ∧ (s.started = true → t.started = true)

theorem State.KeepsImage.refl (s : State) : s.KeepsImage s := ⟨rfl, id⟩

theorem State.KeepsImage.of_eq (hm : u.mem = s.mem) (hs : u.started = s.started) : s.KeepsImage u :=
  ⟨hm, fun h => hs.trans h⟩

theorem State.KeepsImage.trans (h₁ : s.KeepsImage t) (h₂ : t.KeepsImage u) : s.KeepsImage u :=
  ⟨h₂.1.trans h₁.1, h₂.2 ∘ h₁.2⟩

/-! #### The clock discipline -/

theorem evaluate_keepsImage {sc : Scope} (h : evaluate sc s = .next t) : s.KeepsImage t := by
  rcases (evaluate_next h).2 with ⟨rfl, -⟩ | ⟨id, -, -, -, rfl⟩
  · exact ⟨rfl, fun _ => rfl⟩
  · exact .refl s

theorem commitChecked_keepsImage {id : InstId} (h : commitChecked id s = .next t) : s.KeepsImage t := by
  rcases commitChecked_next h with ⟨-, rfl⟩ | ⟨-, -, rfl⟩
  · exact .refl s
  · exact .refl s

theorem cycle_keepsImage {d : Nat} (h : cycle d s = .next t) : s.KeepsImage t :=
  cycle_keeps (P := s.KeepsImage) (fun _ _ hu => hu) (fun _ _ hu he => hu.trans (evaluate_keepsImage he))
    (fun _ hu => hu) (.refl s) h

/-! #### The operations of the opcode table -/

theorem i2cLine_keepsImage {k : Nat} {i : I2CIn} (h : i2cLine k i s = .next t) : s.KeepsImage t := by
  obtain ⟨-, h⟩ := guardRun_next h
  split at h
  · exact (State.KeepsImage.of_eq (u := s.setI2cIn k i) rfl rfl).trans (cycle_keepsImage h)
  · cases h

theorem lrLine_keepsImage {k : Nat} {i : LRIn} (h : lrLine k i s = .next t) : s.KeepsImage t := by
  obtain ⟨-, h⟩ := guardRun_next h
  split at h
  · exact (State.KeepsImage.of_eq (u := s.setLrIn k i) rfl rfl).trans (cycle_keepsImage h)
  · cases h

theorem bsLine_keepsImage {k : Nat} {i : BSIn} (h : bsLine k i s = .next t) : s.KeepsImage t := by
  obtain ⟨-, h⟩ := guardRun_next h
  split at h
  · exact (State.KeepsImage.of_eq (u := s.setBsIn k i) rfl rfl).trans (cycle_keepsImage h)
  · cases h

theorem bsSend_keepsImage {k : Nat} {bits : List Bool} (h : bsSend k bits s = .next t) : s.KeepsImage t := by
  induction bits generalizing s with
  | nil => cases h; exact .refl _
  | cons b bs ih =>
    obtain ⟨u, hu, ⟨-, rfl⟩ | ⟨-, hr⟩⟩ := andThen_next h
    · exact bsLine_keepsImage hu
    · exact (bsLine_keepsImage hu).trans (ih hr)

theorem exec_keepsImage {i : Instr} (h : exec i s = .next t) : s.KeepsImage t := by
  cases i with
  | i2cTick | i2cStart | i2cInWrite | i2cOutRead | i2cOutPublish => exact i2cLine_keepsImage h
  | lrTick | lrStart => exact lrLine_keepsImage h
  | bsTick => exact bsLine_keepsImage h
  | bsReleasePowerDown | bsRead => exact bsSend_keepsImage h
  | hostReset id => obtain ⟨-, -, h⟩ := onInst_next h; cases h; exact .refl s
  | hostEvaluate id => obtain ⟨-, -, h⟩ := onInst_next h; exact evaluate_keepsImage h
  | hostCommit id => obtain ⟨-, -, h⟩ := onInst_next h; exact commitChecked_keepsImage h

/-! #### The host's other actions (log 22) -/

theorem undecodedLine_keepsImage {l : Line} {e : DecodeError} (h : undecodedLine l e s = .next t) :
    s.KeepsImage t := by
  unfold undecodedLine at h
  split at h
  · cases h; exact .refl s
  · cases h

theorem drivePort_keepsImage {id : InstId} {p : InPort} {v : Nat} (h : drivePort id p v s = .next t) :
    s.KeepsImage t := by
  unfold drivePort at h
  split_ifs at h
  cases h
  exact .refl s

theorem connect_keepsImage {w : Wire} (h : connect w s = .next t) : s.KeepsImage t := by
  unfold connect at h
  split_ifs at h
  cases h
  exact .refl s

theorem createInst_keepsImage {n : NewInst} (h : createInst n s = .next t) : s.KeepsImage t := by
  cases n with
  | i2c p d | lr p d =>
    simp only [createInst] at h
    split at h
    · cases h; exact .refl s
    · cases h
  | bs p d => cases h; exact .refl s

/-- Every action of the host keeps the image of a run that has begun; only its supply needs that (R84). -/
theorem act_keepsImage {a : HostAct} (hs : s.started = true) (h : act a s = .next t) :
    t.mem = s.mem ∧ t.started = true := by
  have begun (hk : s.KeepsImage t) : t.mem = s.mem ∧ t.started = true := ⟨hk.1, hk.2 hs⟩
  cases a with
  | line l =>
    simp only [act] at h
    split at h
    · exact begun (exec_keepsImage h)
    · exact begun (undecodedLine_keepsImage h)
  | pseudo p => cases h; exact ⟨rfl, hs⟩
  | drive id p v => exact begun (drivePort_keepsImage h)
  | clock d v => cases h; exact ⟨rfl, hs⟩
  | connect w => exact begun (connect_keepsImage h)
  | image base len content => exact supplyImage_keeps_mem hs h
  | create n => exact begun (createInst_keepsImage h)

theorem step_keeps_mem (hs : s.started = true) (h : step s = .next t) : t.mem = s.mem ∧ t.started = true := by
  obtain ⟨-, h⟩ := guardRun_next h
  split at h
  · cases h; exact ⟨rfl, hs⟩
  · next rest _ => exact act_keepsImage (s := s.withScript rest) hs h

/-- Settles O55: what operations and steps keep, and the refusal of another image. -/
theorem imageNeverChangesDuringARun : Obligations.ImageNeverChangesDuringARun := by
  refine ⟨fun i s t h => (exec_keepsImage h).1, fun s t hs h => step_keeps_mem hs h, ?_⟩
  intro s base len content rest hn hs hscript hm
  rw [step_image hn hscript]
  exact supplyImage_of_changed hs hm

end Sys2Proof.Machine
end

section
/-! PROOF. Wires between instances (20_memory.md R95 to R97): what a wired port reads, and that one line's cycle gives every
instance of its clock domain what the wires drove before it. -/

namespace Sys2Proof.Machine

variable {s u : State} {id : InstId} {d k v : Nat} {w : Wire}

/-! ### What one driven port reads (30_encoding.md R110) -/

theorem portBit_toNat (v : Nat) : (portBit v).toNat = v % 2 := by
  rcases Nat.mod_two_eq_zero_or_one v with h | h <;> simp [portBit, h]

/-- A driven port of an I2C instance reads the value at the port's width. -/
theorem I2CIn.port_wired_self (q : I2CParams) (i : I2CIn) (hp : hasInPort (.i2c k) w.dstPort = true) :
    ((i.wired (w, v)).atWidth q).port w.dstPort = some (v % 2 ^ q.width w.dstPort) := by
  obtain ⟨_, _, _, p⟩ := w
  cases p with
  | inDin | outDin => rfl
  | start | inWe | outRe | outPub | ackIn => exact congrArg some (portBit_toNat v)
  | lrAddrIn | lrLenIn | cs | si => cases hp

/-- Driving a port of an I2C instance leaves its others alone. -/
theorem I2CIn.port_wired_of_ne (q : I2CParams) (i : I2CIn) (u : Wire × Nat) {p : InPort} (h : u.1.dstPort ≠ p) :
    ((i.wired u).atWidth q).port p = (i.atWidth q).port p := by
  obtain ⟨⟨_, _, _, p'⟩, v⟩ := u
  cases p' with
  | lrAddrIn | lrLenIn | cs | si => rfl
  | start | inWe | inDin | outRe | outPub | outDin | ackIn => cases p <;> trivial

/-- A driven port of an LR instance reads the value at the port's width. -/
theorem LRIn.port_wired_self (q : LRParams) (i : LRIn) (hp : hasInPort (.lr k) w.dstPort = true) :
    ((i.wired (w, v)).atWidth q).port w.dstPort = some (v % 2 ^ q.width w.dstPort) := by
  obtain ⟨_, _, _, p⟩ := w
  cases p with
  | lrAddrIn | lrLenIn => rfl
  | start => exact congrArg some (portBit_toNat v)
  | inWe | inDin | outRe | outPub | outDin | ackIn | cs | si => cases hp

/-- Driving a port of an LR instance leaves its others alone. -/
theorem LRIn.port_wired_of_ne (q : LRParams) (i : LRIn) (u : Wire × Nat) {p : InPort} (h : u.1.dstPort ≠ p) :
    ((i.wired u).atWidth q).port p = (i.atWidth q).port p := by
  obtain ⟨⟨_, _, _, p'⟩, v⟩ := u
  cases p' with
  | inWe | inDin | outRe | outPub | outDin | ackIn | cs | si => rfl
  | start | lrAddrIn | lrLenIn => cases p <;> trivial

/-- A driven port of a BS instance reads the value's low bit. -/
theorem BSIn.port_wired_self (i : BSIn) (hp : hasInPort (.bs k) w.dstPort = true) :
    (i.wired (w, v)).port w.dstPort = some (v % 2) := by
  obtain ⟨_, _, _, p⟩ := w
  cases p with
  | cs | si => exact congrArg some (portBit_toNat v)
  | start | inWe | inDin | outRe | outPub | outDin | ackIn | lrAddrIn | lrLenIn => cases hp

/-- Driving a port of a BS instance leaves its others alone. -/
theorem BSIn.port_wired_of_ne (i : BSIn) (u : Wire × Nat) {p : InPort} (h : u.1.dstPort ≠ p) :
    (i.wired u).port p = i.port p := by
  obtain ⟨⟨_, _, _, p'⟩, v⟩ := u
  cases p' with
  | start | inWe | inDin | outRe | outPub | outDin | ackIn | lrAddrIn | lrLenIn => rfl
  | cs | si => cases p <;> trivial

/-! ### What a port reads under all wires of its instance (R95, R97)

Once for the three kinds: `drive` drives one wire's value onto the inputs, `port` reads a port of them. -/

theorem State.mem_wireValues : (w, v) ∈ s.wireValues id ↔
    w ∈ s.wires ∧ w.dst = id ∧ s.output w.src w.srcPort = some v := by
  simp [State.wireValues, State.wiresInto, and_assoc]

section AllWires

variable {α : Type} {drive : α → Wire × Nat → α} {port : α → InPort → Option Nat}

/-- The port of a wire that is its only driver reads what that wire drives, whatever the order of the wires. -/
theorem State.port_of_soleDriver {c : Option Nat}
    (hne : ∀ i u p, u.1.dstPort ≠ p → port (drive i u) p = port i p)
    (hself : ∀ i, port (drive i (w, v)) w.dstPort = c) (hw : s.soleDriver w) (hd : w.dst = id)
    (ho : s.output w.src w.srcPort = some v) (i : α) :
    port ((s.wireValues id).foldl drive i) w.dstPort = c := by
  have hmem : (w, v) ∈ s.wireValues id := State.mem_wireValues.mpr ⟨hw.1, hd, ho⟩
  have honly : ∀ u ∈ s.wireValues id, u.1.dstPort = w.dstPort → u = (w, v) := by
    rintro ⟨w', v'⟩ hu hp
    obtain ⟨hw', hd', ho'⟩ := State.mem_wireValues.mp hu
    obtain rfl : w' = w := hw.2 w' hw' (hd'.trans hd.symm) hp
    cases ho.symm.trans ho'
    rfl
  obtain ⟨before, after, hsplit⟩ := List.append_of_mem hmem
  rw [hsplit, List.foldl_append, List.foldl_cons]
  refine List.foldlRecOn (motive := fun j => port j w.dstPort = c) after drive (hself _) fun j hj u hu => ?_
  by_cases hp : u.1.dstPort = w.dstPort
  · rw [honly u (by simp [hsplit, hu]) hp]
    exact hself j
  · exact (hne j u _ hp).trans hj

/-- A port that no wire drives reads what the host drives. -/
theorem State.port_of_undriven {p : InPort} (hne : ∀ i u p, u.1.dstPort ≠ p → port (drive i u) p = port i p)
    (hp : s.undriven id p) (i : α) : port ((s.wireValues id).foldl drive i) p = port i p := by
  refine List.foldlRecOn (motive := fun j => port j p = port i p) _ drive rfl fun j hj u hu => ?_
  obtain ⟨hw, hd, -⟩ := State.mem_wireValues.mp hu
  exact (hne j u p (hp u.1 hw hd)).trans hj

end AllWires

/-! ### A line drives its own instance and nothing else -/

/-- The state `u` is `s` with what the host drives into the instance `id` replaced. -/
structure State.DrivenAt (s u : State) (id : InstId) : Prop where
  mem : u.mem = s.mem
  wires : u.wires = s.wires
  output : ∀ j p, u.output j p = s.output j p
  i2c : ∀ (k : Nat) (x : I2CInst), s.i2cs[k]? = some x →
    ∃ i, u.i2cs[k]? = some { x with inp := i } ∧ (id ≠ .i2c k → i = x.inp)
  lr : ∀ (k : Nat) (x : LRInst), s.lrs[k]? = some x →
    ∃ i, u.lrs[k]? = some { x with inp := i } ∧ (id ≠ .lr k → i = x.inp)
  bs : ∀ (k : Nat) (x : BSInst), s.bss[k]? = some x →
    ∃ i, u.bss[k]? = some { x with inp := i } ∧ (id ≠ .bs k → i = x.inp)

theorem State.drivenAt_setI2cIn (j : Nat) (i : I2CIn) : s.DrivenAt (s.setI2cIn j i) (.i2c j) where
  mem := rfl
  wires := rfl
  output := State.mapScope_output (fun _ _ => ⟨rfl, rfl⟩) (fun _ _ => rfl) (fun _ _ => rfl)
  i2c k x hx := by
    by_cases hk : k = j
    · subst hk; exact ⟨i, by simp [State.setI2cIn_i2c, hx], fun hne => absurd rfl hne⟩
    · exact ⟨x.inp, by simp [State.setI2cIn_i2c, hx, hk], fun _ => rfl⟩
  lr k x hx := ⟨x.inp, by simp [State.setI2cIn_lr, hx], fun _ => rfl⟩
  bs k x hx := ⟨x.inp, by simp [State.setI2cIn_bs, hx], fun _ => rfl⟩

theorem State.drivenAt_setLrIn (j : Nat) (i : LRIn) : s.DrivenAt (s.setLrIn j i) (.lr j) where
  mem := rfl
  wires := rfl
  output := State.mapScope_output (fun _ _ => ⟨rfl, rfl⟩) (fun _ _ => rfl) (fun _ _ => rfl)
  i2c k x hx := ⟨x.inp, by simp [State.setLrIn_i2c, hx], fun _ => rfl⟩
  lr k x hx := by
    by_cases hk : k = j
    · subst hk; exact ⟨i, by simp [State.setLrIn_lr, hx], fun hne => absurd rfl hne⟩
    · exact ⟨x.inp, by simp [State.setLrIn_lr, hx, hk], fun _ => rfl⟩
  bs k x hx := ⟨x.inp, by simp [State.setLrIn_bs, hx], fun _ => rfl⟩

theorem State.drivenAt_setBsIn (j : Nat) (i : BSIn) : s.DrivenAt (s.setBsIn j i) (.bs j) where
  mem := rfl
  wires := rfl
  output := State.mapScope_output (fun _ _ => ⟨rfl, rfl⟩) (fun _ _ => rfl) (fun _ _ => rfl)
  i2c k x hx := ⟨x.inp, by simp [State.setBsIn_i2c, hx], fun _ => rfl⟩
  lr k x hx := ⟨x.inp, by simp [State.setBsIn_lr, hx], fun _ => rfl⟩
  bs k x hx := by
    by_cases hk : k = j
    · subst hk; exact ⟨i, by simp [State.setBsIn_bs, hx], fun hne => absurd rfl hne⟩
    · exact ⟨x.inp, by simp [State.setBsIn_bs, hx, hk], fun _ => rfl⟩

/-- A line from rest drives its own instance and ticks every instance of the clock domain (30_encoding.md R122,
40_clock_discipline.md R151). -/
theorem exec_lineOf {op : Instr} (h : s.lineOf op id d) (hr : s.ready d = true) :
    ∃ u, s.DrivenAt u id ∧ exec op s = .next (u.ticked d) := by
  have hn : s.nonconv = none := (State.of_ready hr).1
  cases id with
  | i2c j =>
    obtain ⟨z, i, hz, rfl, rfl⟩ := h
    refine ⟨s.setI2cIn j i, State.drivenAt_setI2cIn j i, ?_⟩
    rw [exec_i2cOp, i2cLine, guardRun_of_running _ hn, hz]
    exact cycle_ready (State.ready_setI2cIn hr)
      (State.inScope_ne_nil (id := .i2c j) (by simp [State.cd?, State.setI2cIn_i2c, hz]) rfl)
  | lr j =>
    obtain ⟨z, i, hz, rfl, rfl⟩ := h
    refine ⟨s.setLrIn j i, State.drivenAt_setLrIn j i, ?_⟩
    rw [exec_lrOp, lrLine, guardRun_of_running _ hn, hz]
    exact cycle_ready (State.ready_setLrIn hr)
      (State.inScope_ne_nil (id := .lr j) (by simp [State.cd?, State.setLrIn_lr, hz]) rfl)
  | bs j =>
    obtain ⟨z, i, hz, rfl, rfl⟩ := h
    refine ⟨s.setBsIn j i, State.drivenAt_setBsIn j i, ?_⟩
    rw [exec_bsOp, bsLine, guardRun_of_running _ hn, hz]
    exact cycle_ready (State.ready_setBsIn hr)
      (State.inScope_ne_nil (id := .bs j) (by simp [State.cd?, State.setBsIn_bs, hz]) rfl)

/-! ### A reader of each kind in that cycle -/

section Readers

variable (h : s.DrivenAt u id)

include h

theorem State.DrivenAt.wireValues (j : InstId) : u.wireValues j = s.wireValues j :=
  State.wireValues_congr h.wires h.output

/-- The tick of an I2C instance reads what its wires drove before the line. -/
theorem State.DrivenAt.i2c_reads {x : I2CInst} (hx : s.i2cs[k]? = some x) (hd : x.cd.domain = d) :
    ∃ y inp, (u.ticked d).i2cs[k]? = some y ∧ y.reg = x.reg.commit (i2cTick x.params x.reg inp) ∧
      (∀ w v, s.soleDriver w → w.dst = .i2c k → s.output w.src w.srcPort = some v →
        hasInPort (.i2c k) w.dstPort = true → inp.port w.dstPort = some (v % 2 ^ x.params.width w.dstPort)) ∧
      (id ≠ .i2c k → ∀ p, s.undriven (.i2c k) p → inp.port p = (x.inp.atWidth x.params).port p) := by
  obtain ⟨i, hu, hi⟩ := h.i2c k x hx
  refine ⟨_, u.i2cInputs k { x with inp := i },
    by rw [State.ticked_i2c, hu, Option.map_some, if_pos (by simpa using hd)], rfl,
    fun w v hw hdst ho hp => ?_, fun hne p hp => ?_⟩
  · rw [State.i2cInputs, h.wireValues]
    exact State.port_of_soleDriver (port := fun j => (j.atWidth x.params).port)
      (fun _ _ _ => I2CIn.port_wired_of_ne _ _ _) (fun _ => I2CIn.port_wired_self _ _ hp) hw hdst ho i
  · rw [State.i2cInputs, h.wireValues, hi hne]
    exact State.port_of_undriven (port := fun j => (j.atWidth x.params).port)
      (fun _ _ _ => I2CIn.port_wired_of_ne _ _ _) hp x.inp

/-- The tick of an LR instance reads what its wires drove before the line. -/
theorem State.DrivenAt.lr_reads {x : LRInst} (hx : s.lrs[k]? = some x) (hd : x.cd.domain = d) :
    ∃ y inp, (u.ticked d).lrs[k]? = some y ∧ y.reg = x.reg.commit (lrTick s.mem x.params x.reg inp) ∧
      (∀ w v, s.soleDriver w → w.dst = .lr k → s.output w.src w.srcPort = some v →
        hasInPort (.lr k) w.dstPort = true → inp.port w.dstPort = some (v % 2 ^ x.params.width w.dstPort)) ∧
      (id ≠ .lr k → ∀ p, s.undriven (.lr k) p → inp.port p = (x.inp.atWidth x.params).port p) := by
  obtain ⟨i, hu, hi⟩ := h.lr k x hx
  refine ⟨_, u.lrInputs k { x with inp := i },
    by rw [State.ticked_lr, hu, Option.map_some, if_pos (by simpa using hd)],
    by rw [h.mem]; rfl, fun w v hw hdst ho hp => ?_, fun hne p hp => ?_⟩
  · rw [State.lrInputs, h.wireValues]
    exact State.port_of_soleDriver (port := fun j => (j.atWidth x.params).port)
      (fun _ _ _ => LRIn.port_wired_of_ne _ _ _) (fun _ => LRIn.port_wired_self _ _ hp) hw hdst ho i
  · rw [State.lrInputs, h.wireValues, hi hne]
    exact State.port_of_undriven (port := fun j => (j.atWidth x.params).port)
      (fun _ _ _ => LRIn.port_wired_of_ne _ _ _) hp x.inp

/-- The tick of a BS instance reads what its wires drove before the line. -/
theorem State.DrivenAt.bs_reads {x : BSInst} (hx : s.bss[k]? = some x) (hd : x.cd.domain = d) :
    ∃ y inp, (u.ticked d).bss[k]? = some y ∧ y.reg = x.reg.commit (bsTick s.mem x.params x.reg inp) ∧
      (∀ w v, s.soleDriver w → w.dst = .bs k → s.output w.src w.srcPort = some v →
        hasInPort (.bs k) w.dstPort = true → inp.port w.dstPort = some (v % 2)) ∧
      (id ≠ .bs k → ∀ p, s.undriven (.bs k) p → inp.port p = x.inp.port p) := by
  obtain ⟨i, hu, hi⟩ := h.bs k x hx
  refine ⟨_, u.bsInputs k { x with inp := i },
    by rw [State.ticked_bs, hu, Option.map_some, if_pos (by simpa using hd)],
    by rw [h.mem]; rfl, fun w v hw hdst ho hp => ?_, fun hne p hp => ?_⟩
  · rw [State.bsInputs, h.wireValues]
    exact State.port_of_soleDriver (fun _ _ _ => BSIn.port_wired_of_ne _ _) (fun _ => BSIn.port_wired_self _ hp)
      hw hdst ho i
  · rw [State.bsInputs, h.wireValues, hi hne]
    exact State.port_of_undriven (fun _ _ _ => BSIn.port_wired_of_ne _ _) hp x.inp

end Readers

/-! ### P4: a linear reader feeds an I2C instance (95_test_vectors.md) -/

/-- The transaction FSM leaves an empty DUAL inbound slot alone: there is nothing to consume (R167). -/
theorem i2cStepFsm_inbound_of_empty {q : I2CParams} {c : I2CReg} (i : I2CIn) (p : I2CPend) (hq : q.variant = .dual)
    (hc : c.inFull = false) :
    (i2cStepFsm q c i p).inFull = p.inFull ∧ (i2cStepFsm q c i p).inQ = p.inQ := by
  have hempty : c.inboundFull q.variant = false := by rw [hq]; exact hc
  unfold i2cStepFsm
  split
  · unfold i2cStepIdle
    split <;> exact ⟨rfl, rfl⟩
  · simp only [i2cStepConsume, hempty, Bool.false_eq_true, if_false]
    unfold i2cStepCount
    split <;> exact ⟨rfl, rfl⟩

/-- The retiming of ack and the outbound requests leave the DUAL inbound slot alone (R163 to R165). -/
theorem i2cStepPublish_outRead_inbound (c : I2CReg) (i : I2CIn) (p : I2CPend) :
    (i2cStepPublish .dual i (i2cStepOutRead .dual c i p)).inFull = p.inFull ∧
      (i2cStepPublish .dual i (i2cStepOutRead .dual c i p)).inQ = p.inQ := by
  unfold i2cStepPublish i2cStepOutRead
  split <;> split <;> exact ⟨rfl, rfl⟩

/-- Where nothing is scheduled for an empty DUAL inbound slot, it takes the data of a write request (R169). -/
theorem i2cStepCapture_of_empty {c : I2CReg} {p : I2CPend} (i : I2CIn) (hc : c.inFull = false)
    (hfull : p.inFull = none) (hitem : p.inQ = none) :
    (c.commit (i2cStepCapture .dual c i p)).inFull = i.inWe ∧
      (c.commit (i2cStepCapture .dual c i p)).inQ = if i.inWe then i.inDin else c.inQ := by
  cases hwe : i.inWe <;>
    simp [i2cStepCapture, I2CReg.inboundFull, I2CPend.fillInbound, I2CReg.commit, hc, hwe, hfull, hitem]

/-- An empty DUAL inbound slot after a tick: filled by a write request, else still empty. -/
theorem i2cTick_inbound_of_empty {q : I2CParams} {c : I2CReg} (i : I2CIn) (hq : q.variant = .dual)
    (hc : c.inFull = false) : (c.commit (i2cTick q c i)).inFull = i.inWe ∧
      (c.commit (i2cTick q c i)).inQ = if i.inWe then i.inDin else c.inQ := by
  obtain ⟨hfull, hitem⟩ := i2cStepPublish_outRead_inbound c i (i2cStepAck i {})
  obtain ⟨hfull', hitem'⟩ := i2cStepFsm_inbound_of_empty i
    (i2cStepPublish .dual i (i2cStepOutRead .dual c i (i2cStepAck i {}))) hq hc
  rw [i2cTick, hq]
  exact i2cStepCapture_of_empty i hc (hfull'.trans hfull) (hitem'.trans hitem)

/-- A wire is the only driver of its port where the other wires onto the instance drive other ports. -/
theorem State.soleDriver_of_wiresInto {ws : List Wire} (h : s.wiresInto id = ws) (hw : w ∈ ws)
    (hone : ∀ w' ∈ ws, w'.dstPort = w.dstPort → w' = w) : s.soleDriver w := by
  subst h
  obtain ⟨hmem, hd⟩ := List.mem_filter.mp hw
  refine ⟨hmem, fun w' hw' hd' hp => hone w' (List.mem_filter.mpr ⟨hw', ?_⟩) hp⟩
  rwa [hd']

theorem bool_eq_of_toNat_eq : ∀ {a b : Bool}, a.toNat = b.toNat → a = b := by decide

/-- A byte fits a port of at least 8 bits. -/
theorem byte_mod_width (b : Byte) {n : Nat} (hn : 8 ≤ n) : b.toNat % 2 ^ n = b.toNat :=
  Nat.mod_eq_of_lt (b.isLt.trans_le (Nat.pow_le_pow_right (by decide) hn))

/-- The inputs of an I2C instance onto which the valid and data ports of a linear reader are wired. -/
theorem State.inputs_of_reader_wires {j : Nat} {z : LRInst} {q : I2CParams} {inp : I2CIn}
    (hz : s.lrs[j]? = some z)
    (hw : s.wiresInto (.i2c k) = [⟨.lr j, .valid, .i2c k, .inWe⟩, ⟨.lr j, .data, .i2c k, .inDin⟩]) (hq : 8 ≤ q.inW)
    (hread : ∀ w v, s.soleDriver w → w.dst = .i2c k → s.output w.src w.srcPort = some v →
      hasInPort (.i2c k) w.dstPort = true → inp.port w.dstPort = some (v % 2 ^ q.width w.dstPort)) :
    inp.inWe = z.reg.valid ∧ inp.inDin = z.reg.data.toNat := by
  have hwe := hread ⟨.lr j, .valid, .i2c k, .inWe⟩ z.reg.valid.toNat
    (State.soleDriver_of_wiresInto hw (by simp) (by simp)) rfl (by simp [State.output, hz, LRInst.output]) rfl
  have hdin := hread ⟨.lr j, .data, .i2c k, .inDin⟩ z.reg.data.toNat
    (State.soleDriver_of_wiresInto hw (by simp) (by simp)) rfl (by simp [State.output, hz, LRInst.output]) rfl
  constructor
  · have hbit : inp.inWe.toNat = z.reg.valid.toNat % 2 := Option.some.inj hwe
    rw [Nat.mod_eq_of_lt (Bool.toNat_lt _)] at hbit
    exact bool_eq_of_toNat_eq hbit
  · exact (Option.some.inj hdin).trans (byte_mod_width _ hq)

/-- Settles O52: a line's cycle is one tick of each reader on the wires' values; in P4 the source is a linear reader. -/
theorem wiredInputReadsThePreviousCommit : Obligations.WiredInputReadsThePreviousCommit := by
  intro s op id d hline hr
  obtain ⟨u, hu, hexec⟩ := exec_lineOf hline hr
  refine ⟨fun k x hx hd => ?_, fun k x hx hd => ?_, fun k x hx hd => ?_, fun j k z x _ hz hx hd hw hv hq hempty => ?_⟩
  · obtain ⟨y, inp, hreads⟩ := hu.i2c_reads hx hd
    exact ⟨_, y, inp, hexec, hreads⟩
  · obtain ⟨y, inp, hreads⟩ := hu.lr_reads hx hd
    exact ⟨_, y, inp, hexec, hreads⟩
  · obtain ⟨y, inp, hreads⟩ := hu.bs_reads hx hd
    exact ⟨_, y, inp, hexec, hreads⟩
  · obtain ⟨y, inp, hy, hreg, hread, -⟩ := hu.i2c_reads hx hd
    obtain ⟨hwe, hdin⟩ := State.inputs_of_reader_wires hz hw hq hread
    obtain ⟨hfull, hitem⟩ := i2cTick_inbound_of_empty inp hv hempty
    refine ⟨_, y, hexec, hy, ?_, ?_⟩
    · rw [hreg, hfull, hwe]
    · rw [hreg, hitem, hwe, hdin]

end Sys2Proof.Machine
end

section
/-! PROOF. The decoder and the encoder (30_encoding.md R111 to R121). A well-formed line is of one of six layouts; each
layout has one decoding equation, and every bit of its vector or frame is an operand. -/

namespace Sys2Proof

open Machine

/-! ### Vectors and their bits -/

/-- A property of every legal vector, from its finitely many values. -/
theorem forall_legal_vector {P : BitVec 32 → Prop} {m : Nat} (h : ∀ n < m, P (BitVec.ofNat 32 n)) {v : BitVec 32}
    (hv : v.toNat < m) : P v := by
  simpa using h v.toNat hv

/-- The I2C control vector holds each request in its own bit (R111). -/
theorem i2cVector_bits : ∀ start we ore pub ack : Bool,
    let v := i2cVector start we ore pub ack
    v.toNat < 32 ∧ v.getLsbD 0 = start ∧ v.getLsbD 1 = we ∧ v.getLsbD 2 = ore ∧ v.getLsbD 3 = pub ∧ v.getLsbD 4 = ack := by
  decide

/-- A legal I2C control vector is its five bits. -/
theorem i2cVector_of_bits {v : BitVec 32} (h : v.toNat < 32) :
    i2cVector (v.getLsbD 0) (v.getLsbD 1) (v.getLsbD 2) (v.getLsbD 3) (v.getLsbD 4) = v := by
  refine forall_legal_vector
    (P := fun v => i2cVector (v.getLsbD 0) (v.getLsbD 1) (v.getLsbD 2) (v.getLsbD 3) (v.getLsbD 4) = v) ?_ h
  decide

/-- The LR control vector is its start bit (R113). -/
theorem vecBit_zero_bit : ∀ start : Bool, (vecBit 0 start).toNat < 2 ∧ (vecBit 0 start).getLsbD 0 = start := by decide

theorem vecBit_zero_of_bit {v : BitVec 32} (h : v.toNat < 2) : vecBit 0 (v.getLsbD 0) = v := by
  refine forall_legal_vector (P := fun v => vecBit 0 (v.getLsbD 0) = v) ?_ h
  decide

/-- The BS wire vector holds chip-select in bit 1 and serial-in in bit 0 (R114). -/
theorem bsVector_bits : ∀ cs si : Bool,
    (bsVector cs si).toNat < 4 ∧ (bsVector cs si).getLsbD 1 = cs ∧ (bsVector cs si).getLsbD 0 = si := by decide

theorem bsVector_of_bits {v : BitVec 32} (h : v.toNat < 4) : bsVector (v.getLsbD 1) (v.getLsbD 0) = v := by
  refine forall_legal_vector (P := fun v => bsVector (v.getLsbD 1) (v.getLsbD 0) = v) ?_ h
  decide

/-- The four values of a host call's number (R120). -/
theorem host_number_cases {v : BitVec 32} (h : v.toNat < 4) : v = 0#32 ∨ v = 1#32 ∨ v = 2#32 ∨ v = 3#32 := by
  refine forall_legal_vector (P := fun v => v = 0#32 ∨ v = 1#32 ∨ v = 2#32 ∨ v = 3#32) ?_ h
  decide

/-! ### Frames and their fields -/

/-- A frame of 8 bits has the opcode of R115 exactly where it is the release-power-down frame. -/
theorem extract_eq_opcRpd_iff {v : BitVec 32} (h : v.toNat < 256) :
    v.extractLsb' 0 8 = Config.opcRpd ↔ v = rpdFrame := by
  have hfield : v.extractLsb' 0 8 = Config.opcRpd ↔ v.toNat % 2 ^ 8 = 0xAB := by
    simp [← BitVec.toNat_inj, Config.opcRpd]
  have hframe : v = rpdFrame ↔ v.toNat = 0xAB := by
    simp [← BitVec.toNat_inj, rpdFrame, Config.opcRpd]
  rw [hfield, hframe]
  omega

@[simp] theorem readFrame_opcode (addr : FrameAddr) : (readFrame addr).extractLsb' 24 8 = Config.opcRead :=
  BitVec.extractLsb'_append_eq_left

@[simp] theorem readFrame_address (addr : FrameAddr) : (readFrame addr).extractLsb' 0 24 = addr :=
  BitVec.extractLsb'_append_eq_right

/-- A frame with the read opcode is the read frame of its address field (R116). -/
theorem readFrame_of_fields {v : BitVec 32} (h : v.extractLsb' 24 8 = Config.opcRead) :
    readFrame (v.extractLsb' 0 24) = v := by
  rw [readFrame, ← h]
  exact BitVec.extractLsb'_append_extractLsb'

/-! ### The six layouts -/

/-- The layouts of R111, R113, R114, R115, R116 and R120, one constructor a format. -/
inductive Line.Legal : Line → Prop
  | i2cCtl (k a b : Nat) (v : BitVec 32) (h : v.toNat < 32) : Legal ⟨.i2cCtl, .i2c k, v, a, b⟩
  | lrCtl (k a n : Nat) (v : BitVec 32) (h : v.toNat < 2) : Legal ⟨.lrCtl, .lr k, v, a, n⟩
  | bsWire (k : Nat) (v : BitVec 32) (h : v.toNat < 4) : Legal ⟨.bsWire, .bs k, v, 0, 0⟩
  | cmd8 (k : Nat) (v : BitVec 32) (h : v.toNat < 256) : Legal ⟨.cmd8, .bs k, v, 0, 0⟩
  | cmd32 (k : Nat) (v : BitVec 32) : Legal ⟨.cmd32, .bs k, v, 0, 0⟩
  | host (id : InstId) (v : BitVec 32) (h : v.toNat < 4) : Legal ⟨.host, id, v, 0, 0⟩

theorem Line.legal_of_wf {l : Line} (h : l.wf = true) : l.Legal := by
  obtain ⟨fmt, unit, v, a, b⟩ := l
  simp only [Line.wf, Line.fits, Bool.and_eq_true, decide_eq_true_eq, Bool.or_eq_true, beq_iff_eq] at h
  obtain ⟨⟨hv, hunit⟩, hop⟩ := h
  cases fmt with
  | i2cCtl => cases unit with
    | i2c k => exact .i2cCtl k a b v hv
    | lr | bs => cases hunit
  | lrCtl => cases unit with
    | lr k => exact .lrCtl k a b v hv
    | i2c | bs => cases hunit
  | bsWire => cases unit with
    | bs k => obtain ⟨rfl, rfl⟩ := hop.resolve_left nofun; exact .bsWire k v hv
    | i2c | lr => cases hunit
  | cmd8 => cases unit with
    | bs k => obtain ⟨rfl, rfl⟩ := hop.resolve_left nofun; exact .cmd8 k v hv
    | i2c | lr => cases hunit
  | cmd32 => cases unit with
    | bs k => obtain ⟨rfl, rfl⟩ := hop.resolve_left nofun; exact .cmd32 k v
    | i2c | lr => cases hunit
  | host => obtain ⟨rfl, rfl⟩ := hop.resolve_left nofun; exact .host unit v hv

/-- The decoder accepts well-formed lines only. -/
theorem Line.wf_of_decode {l : Line} {i : Instr} (h : decode l = .ok i) : l.wf = true := by
  unfold decode at h
  split at h
  · cases h
  · rename_i hfits
    split at h
    · cases h
    · rename_i hop
      rw [Bool.not_eq_true, Bool.not_eq_false'] at hfits hop
      have htakes : l.fmt.takes l.unit = true := by
        split at h
        case h_7 => cases h
        all_goals simp [*, Format.takes]
      rw [Line.wf, hfits, htakes, hop]
      rfl

/-! ### Decoding, layout by layout -/

section Layouts

variable {k a b n : Nat} {id : InstId} {v : BitVec 32}

/-- An I2C line is the operation of the inputs that its bits and operands drive (R111, R112). -/
theorem decode_i2cCtl (h : v.toNat < 32) : decode ⟨.i2cCtl, .i2c k, v, a, b⟩ = .ok (I2CIn.op k
    ⟨v.getLsbD 0, v.getLsbD 1, v.getLsbD 2, v.getLsbD 3, v.getLsbD 4, a, b⟩) := by
  simp [decode, Line.fits, Format.width, Format.hasOperands, h, decodeI2c, I2CIn.op]

theorem decode_lrCtl (h : v.toNat < 2) :
    decode ⟨.lrCtl, .lr k, v, a, n⟩ = .ok (LRIn.op k ⟨v.getLsbD 0, a, n⟩) := by
  simp [decode, Line.fits, Format.width, Format.hasOperands, h, decodeLr, LRIn.op]

theorem decode_bsWire (h : v.toNat < 4) :
    decode ⟨.bsWire, .bs k, v, 0, 0⟩ = .ok (BSIn.op k ⟨v.getLsbD 1, v.getLsbD 0⟩) := by
  simp [decode, Line.fits, Format.width, h, BSIn.op]

theorem decode_cmd8 (h : v.toNat < 256) : decode ⟨.cmd8, .bs k, v, 0, 0⟩ =
    if v = rpdFrame then .ok (.bsReleasePowerDown k) else .error (.unrecognisedFrame 8) := by
  simp [decode, Line.fits, Format.width, h, decodeCmd8, extract_eq_opcRpd_iff h]

theorem decode_cmd32 : decode ⟨.cmd32, .bs k, v, 0, 0⟩ =
    if v.extractLsb' 24 8 = Config.opcRead then .ok (.bsRead k (v.extractLsb' 0 24))
    else .error (.unrecognisedFrame 32) := by
  have h : v.toNat < 2 ^ 32 := v.isLt
  simp only [decode, Line.fits, Format.width, h]
  rfl

theorem decode_hostReset : decode ⟨.host, id, 0#32, 0, 0⟩ = .ok (.hostReset id) := rfl
theorem decode_hostEvaluate : decode ⟨.host, id, 1#32, 0, 0⟩ = .ok (.hostEvaluate id) := rfl
theorem decode_hostCommit : decode ⟨.host, id, 2#32, 0, 0⟩ = .ok (.hostCommit id) := rfl
theorem decode_hostCall3 : decode ⟨.host, id, 3#32, 0, 0⟩ = .error .hostCall3 := rfl

end Layouts

/-! ### Encoding the operation of an edge's inputs -/

theorem encode_i2cOp (k : Nat) (i : I2CIn) : encode (i.op k) =
    ⟨.i2cCtl, .i2c k, i2cVector i.start i.inWe i.outRe i.outPub i.ackIn, i.inDin, i.outDin⟩ := by
  obtain ⟨start, inWe, outRe, outPub, ackIn, inDin, outDin⟩ := i
  cases start with
  | true => rfl
  | false =>
    cases inWe with
    | true => rfl
    | false =>
      cases outRe with
      | true => rfl
      | false => cases outPub <;> rfl

theorem encode_lrOp (k : Nat) (i : LRIn) : encode (i.op k) = ⟨.lrCtl, .lr k, vecBit 0 i.start, i.addr, i.len⟩ := by
  obtain ⟨start, addr, len⟩ := i
  cases start <;> rfl

theorem encode_bsOp (k : Nat) (i : BSIn) : encode (i.op k) = ⟨.bsWire, .bs k, bsVector i.cs i.si, 0, 0⟩ := rfl

/-! ### The round trips -/

theorem decode_encode_i2cOp (k : Nat) (i : I2CIn) : decode (encode (i.op k)) = .ok (i.op k) := by
  obtain ⟨hv, h0, h1, h2, h3, h4⟩ := i2cVector_bits i.start i.inWe i.outRe i.outPub i.ackIn
  rw [encode_i2cOp, decode_i2cCtl hv, h0, h1, h2, h3, h4]

theorem decode_encode_lrOp (k : Nat) (i : LRIn) : decode (encode (i.op k)) = .ok (i.op k) := by
  obtain ⟨hv, h0⟩ := vecBit_zero_bit i.start
  rw [encode_lrOp, decode_lrCtl hv, h0]

theorem decode_encode_bsOp (k : Nat) (i : BSIn) : decode (encode (i.op k)) = .ok (i.op k) := by
  obtain ⟨hv, hcs, hsi⟩ := bsVector_bits i.cs i.si
  rw [encode_bsOp, decode_bsWire hv, hcs, hsi]

theorem decode_encode_bsRead (k : Nat) (addr : FrameAddr) : decode (encode (.bsRead k addr)) = .ok (.bsRead k addr) := by
  rw [encode, decode_cmd32, readFrame_opcode, if_pos rfl, readFrame_address]

/-- Settles O1: a control line carries the bits of the inputs its operation drives, and a frame its opcode and address. -/
theorem decodeOfEncodeIsTheOperation : Obligations.DecodeOfEncodeIsTheOperation := by
  intro i
  cases i with
  | i2cTick k ack a b => exact decode_encode_i2cOp k ⟨false, false, false, false, ack, a, b⟩
  | i2cStart k we ore pub ack a b => exact decode_encode_i2cOp k ⟨true, we, ore, pub, ack, a, b⟩
  | i2cInWrite k ore pub ack a b => exact decode_encode_i2cOp k ⟨false, true, ore, pub, ack, a, b⟩
  | i2cOutRead k pub ack a b => exact decode_encode_i2cOp k ⟨false, false, true, pub, ack, a, b⟩
  | i2cOutPublish k ack a b => exact decode_encode_i2cOp k ⟨false, false, false, true, ack, a, b⟩
  | lrTick k a n => exact decode_encode_lrOp k ⟨false, a, n⟩
  | lrStart k a n => exact decode_encode_lrOp k ⟨true, a, n⟩
  | bsTick k cs si => exact decode_encode_bsOp k ⟨cs, si⟩
  | bsReleasePowerDown k => exact decode_cmd8 (by decide)
  | bsRead k addr => exact decode_encode_bsRead k addr
  | hostReset => exact decode_hostReset
  | hostEvaluate => exact decode_hostEvaluate
  | hostCommit => exact decode_hostCommit

/-- Settles O2: a line that decodes has one of the six layouts, and each vector or frame is the one made of its fields. -/
theorem encodeOfDecodedLineIsTheLine : Obligations.EncodeOfDecodedLineIsTheLine := by
  intro l i h
  cases Line.legal_of_wf (Line.wf_of_decode h) with
  | i2cCtl k a b v hv =>
    cases (decode_i2cCtl hv).symm.trans h
    rw [encode_i2cOp, i2cVector_of_bits hv]
  | lrCtl k a n v hv =>
    cases (decode_lrCtl hv).symm.trans h
    rw [encode_lrOp, vecBit_zero_of_bit hv]
  | bsWire k v hv =>
    cases (decode_bsWire hv).symm.trans h
    rw [encode_bsOp, bsVector_of_bits hv]
  | cmd8 k v hv =>
    rw [decode_cmd8 hv] at h
    split at h <;> cases h
    subst_vars
    rfl
  | cmd32 k v =>
    rw [decode_cmd32] at h
    split at h <;> cases h
    rw [encode, readFrame_of_fields ‹_›]
  | host id v hv =>
    rcases host_number_cases hv with rfl | rfl | rfl | rfl <;> cases h <;> rfl

/-- Settles O3: of the six layouts, the control vectors all decode; a frame does by its opcode, a host call by its number. -/
theorem wellFormedLineDecodesOrIsNamed : Obligations.WellFormedLineDecodesOrIsNamed := by
  intro l h
  cases Line.legal_of_wf h with
  | i2cCtl k a b v hv => exact .inl ⟨_, decode_i2cCtl hv⟩
  | lrCtl k a n v hv => exact .inl ⟨_, decode_lrCtl hv⟩
  | bsWire k v hv => exact .inl ⟨_, decode_bsWire hv⟩
  | cmd8 k v hv =>
    rw [decode_cmd8 hv]
    split
    · exact .inl ⟨_, rfl⟩
    · exact .inr (.inl ⟨rfl, ‹_›, rfl⟩)
  | cmd32 k v =>
    rw [decode_cmd32]
    split
    · exact .inl ⟨_, rfl⟩
    · exact .inr (.inr (.inl ⟨rfl, ‹_›, rfl⟩))
  | host id v hv =>
    rcases host_number_cases hv with rfl | rfl | rfl | rfl
    · exact .inl ⟨_, decode_hostReset⟩
    · exact .inl ⟨_, decode_hostEvaluate⟩
    · exact .inl ⟨_, decode_hostCommit⟩
    · exact .inr (.inr (.inr ⟨rfl, rfl, decode_hostCall3⟩))

/-- Settles O4: a legal vector decodes to the operation of the inputs its bits drive, and that operation is their line. -/
theorem controlVectorBitsAreTheDrivenInputs : Obligations.ControlVectorBitsAreTheDrivenInputs :=
  ⟨fun _ _ _ _ _ hv => ⟨_, decode_i2cCtl hv, exec_i2cOp _⟩, fun _ _ _ _ _ hv => ⟨_, decode_lrCtl hv, exec_lrOp _⟩,
    fun _ _ _ hv => ⟨_, decode_bsWire hv, exec_bsOp _⟩⟩

/-- Settles O5: each word's bits, read by its layout's equation. -/
theorem specEncodingsDecode : Obligations.SpecEncodingsDecode :=
  ⟨decode_i2cCtl (by decide), decode_i2cCtl (by decide), decode_lrCtl (by decide), decode_bsWire (by decide),
    decode_cmd8 (by decide), decode_cmd32, decode_hostCommit⟩

end Sys2Proof
end

section
/-! PROOF. What a step does with a line (30_encoding.md R120 to R123), and a line as one tick of its clock domain
(40_clock_discipline.md R151); a frame is a sequence of such lines. -/

namespace Sys2Proof.Machine

variable {s t u : State} {k d : Nat}

/-! ### The step of a line -/

section Step

variable {l : Line} {rest : List HostAct}

theorem step_line (hn : s.nonconv = none) (hs : s.script = .line l :: rest) :
    step s = act (.line l) (s.withScript rest) := by
  rw [step, guardRun_of_running _ hn, hs]

theorem step_withScript_line (hn : s.nonconv = none) :
    step (s.withScript (.line l :: rest)) = act (.line l) (s.withScript rest) :=
  step_line (s := s.withScript (.line l :: rest)) hn rfl

theorem act_line_of_decode {i : Instr} (h : decode l = .ok i) : act (.line l) s = exec i s := by
  simp only [act, h]

theorem act_line_of_error {e : DecodeError} (h : decode l = .error e) : act (.line l) s = undecodedLine l e s := by
  simp only [act, h]

/-- Settles O8: the step fetches the line, and a line that decodes is executed. -/
theorem stepRunsTheDecodedLine : Obligations.StepRunsTheDecodedLine :=
  fun _ _ _ _ hn hs hd => (step_line hn hs).trans (act_line_of_decode hd)

/-- Settles O6: the decoder's four answers, and the refusal of a line that names no operation. -/
theorem hostCallNumbersAreZeroOneTwo : Obligations.HostCallNumbersAreZeroOneTwo :=
  fun _ _ _ hn => ⟨decode_hostReset, decode_hostEvaluate, decode_hostCommit,
    (step_withScript_line hn).trans (act_line_of_error decode_hostCall3)⟩

end Step

/-! ### The bits of a frame on the wire -/

/-- The `j`-th bit on the wire is the `j`-th from the top (20_memory.md R90). -/
theorem msbFirst_eq (n : Nat) (v : BitVec 32) : msbFirst n v = (List.range n).map fun j => v.getLsbD (n - 1 - j) := by
  refine List.ext_getElem (by simp [msbFirst]) fun j _ _ => ?_
  simp [msbFirst]

/-- The wire lines of a frame, written out: chip-select and the bit, in a vector of R114. -/
theorem frameLines_eq (k n : Nat) (v : BitVec 32) : frameLines k n v = (List.range n).map fun j =>
    ⟨.bsWire, .bs k, if v.getLsbD (n - 1 - j) then 3#32 else 2#32, 0, 0⟩ := by
  rw [frameLines, msbFirst_eq, List.map_map]
  refine List.map_congr_left fun j _ => ?_
  simp only [Function.comp]
  cases v.getLsbD (n - 1 - j) <;> rfl

/-- An unrecognised frame of `n` bits puts its wire lines at the head of the script (30_encoding.md R121, R123). -/
theorem step_unrecognisedFrame {fmt : Format} {n : Nat} {v : BitVec 32} {rest : List HostAct} (hn : s.nonconv = none)
    (hd : decode ⟨fmt, .bs k, v, 0, 0⟩ = .error (.unrecognisedFrame n)) :
    step (s.withScript (.line ⟨fmt, .bs k, v, 0, 0⟩ :: rest)) =
      .next (s.withScript ((List.range n).map (fun j =>
        HostAct.line ⟨.bsWire, .bs k, if v.getLsbD (n - 1 - j) then 3#32 else 2#32, 0, 0⟩) ++ rest)) := by
  have hwire : undecodedLine ⟨fmt, .bs k, v, 0, 0⟩ (.unrecognisedFrame n) (s.withScript rest) =
      .next (s.withScript ((frameLines k n v).map .line ++ rest)) := rfl
  rw [step_withScript_line hn, act_line_of_error hd]
  exact hwire.trans (by rw [frameLines_eq, List.map_map]; rfl)

/-- Settles O7: a frame of another opcode does not decode, and then its bits are the next lines. -/
theorem unrecognisedFrameGoesOnTheWire : Obligations.UnrecognisedFrameGoesOnTheWire := by
  intro s k v rest hn
  refine ⟨fun hv hne => ?_, fun hne => ?_⟩
  · have hd : decode ⟨.cmd8, .bs k, v, 0, 0⟩ = .error (.unrecognisedFrame 8) := (decode_cmd8 hv).trans (if_neg hne)
    simpa only [Nat.reduceSub] using step_unrecognisedFrame hn hd
  · have hd : decode ⟨.cmd32, .bs k, v, 0, 0⟩ = .error (.unrecognisedFrame 32) := decode_cmd32.trans (if_neg hne)
    simpa only [Nat.reduceSub] using step_unrecognisedFrame hn hd

/-! ### A line from rest -/

theorem i2cLine_of_ready {x : I2CInst} (i : I2CIn) (hx : s.i2cs[k]? = some x) (hr : s.ready x.cd.domain = true) :
    i2cLine k i s = .next ((s.setI2cIn k i).ticked x.cd.domain) := by
  rw [i2cLine, guardRun_of_running _ (State.of_ready hr).1, hx]
  exact cycle_ready (State.ready_setI2cIn hr)
    (State.inScope_ne_nil (id := .i2c k) (by simp [State.cd?, State.setI2cIn_i2c, hx]) rfl)

theorem lrLine_of_ready {x : LRInst} (i : LRIn) (hx : s.lrs[k]? = some x) (hr : s.ready x.cd.domain = true) :
    lrLine k i s = .next ((s.setLrIn k i).ticked x.cd.domain) := by
  rw [lrLine, guardRun_of_running _ (State.of_ready hr).1, hx]
  exact cycle_ready (State.ready_setLrIn hr)
    (State.inScope_ne_nil (id := .lr k) (by simp [State.cd?, State.setLrIn_lr, hx]) rfl)

theorem bsLine_of_ready {x : BSInst} (i : BSIn) (hx : s.bss[k]? = some x) (hr : s.ready x.cd.domain = true) :
    bsLine k i s = .next ((s.setBsIn k i).ticked x.cd.domain) := by
  rw [bsLine, guardRun_of_running _ (State.of_ready hr).1, hx]
  exact cycle_ready (State.ready_setBsIn hr)
    (State.inScope_ne_nil (id := .bs k) (by simp [State.cd?, State.setBsIn_bs, hx]) rfl)

/-- Settles O10: an operation of each kind of control vector is its line, and a line's cycle from rest is one tick. -/
theorem lineIsOneTickOfItsClockDomain : Obligations.LineIsOneTickOfItsClockDomain :=
  fun _ _ => ⟨fun _ i hx hr => (exec_i2cOp i).trans (i2cLine_of_ready i hx hr),
    fun _ i hx hr => (exec_lrOp i).trans (lrLine_of_ready i hx hr),
    fun _ i hx hr => (exec_bsOp i).trans (bsLine_of_ready i hx hr)⟩

/-! ### A frame is its wire edges -/

theorem bsSend_eq_execAll (k : Nat) (bits : List Bool) (s : State) :
    bsSend k bits s = execAll ((selected bits).map (BSIn.op k)) s := by
  induction bits generalizing s with
  | nil => rfl
  | cons b bs ih =>
    have hrest : bsSend k bs = execAll ((selected bs).map (BSIn.op k)) := funext ih
    rw [bsSend, hrest, ← exec_bsOp]
    rfl

theorem msbFirst_rpdFrame : msbFirst 8 rpdFrame = [true, false, true, false, true, false, true, true] := by decide

/-- The top `m` bits of a frame go on the wire before the low `n`. -/
theorem msbFirst_add (n m : Nat) (v : BitVec 32) :
    msbFirst (n + m) v = ((List.range m).reverse.map fun j => v.getLsbD (n + j)) ++ msbFirst n v := by
  simp [msbFirst, List.range_add, Function.comp_def]

theorem readFrame_getLsbD (addr : FrameAddr) (j : Nat) :
    (readFrame addr).getLsbD j = if j < 24 then addr.getLsbD j else Config.opcRead.getLsbD (j - 24) :=
  BitVec.getLsbD_append.trans (by split <;> simp [*])

/-- The read frame's bits: the opcode 0x03, then the address from its top bit (30_encoding.md R116). -/
theorem msbFirst_readFrame (addr : FrameAddr) : msbFirst 32 (readFrame addr) =
    [false, false, false, false, false, false, true, true] ++ (List.range 24).map fun j => addr.getLsbD (23 - j) := by
  have hopcode : ∀ j, (readFrame addr).getLsbD (24 + j) = Config.opcRead.getLsbD j := fun j => by
    simp [readFrame_getLsbD]
  have haddr : ∀ j, (readFrame addr).getLsbD (23 - j) = addr.getLsbD (23 - j) := fun j => by
    rw [readFrame_getLsbD, if_pos (by omega)]
  rw [msbFirst_add 24 8, msbFirst_eq 24]
  simp only [hopcode, haddr]
  rfl

/-! ### A frame from rest -/

theorem State.bsFrame.trans {x y z : BSInst} (h₁ : s.bsFrame t x y) (h₂ : t.bsFrame u y z) : s.bsFrame u x z := by
  obtain ⟨-, hout, hparams, hcd, -, -⟩ := h₁
  obtain ⟨hrun, hout', hparams', hcd', hpend, hsampled⟩ := h₂
  have hd : y.cd.domain = x.cd.domain := by rw [hcd]; rfl
  exact ⟨hrun, hout.trans (hd ▸ hout'), hparams'.trans hparams, by rw [hcd', hcd]; rfl, hpend, hsampled⟩

/-- One edge of an unwired recognizer at rest: the tick rule on the line's inputs, and rest again. -/
theorem bsLine_of_restBs {x : BSInst} (i : BSIn) (h : s.restBs k x) :
    ∃ t y, bsLine k i s = .next t ∧ t.restBs k y ∧ y.reg = x.reg.commit (bsTick s.mem x.params x.reg i) ∧
      s.bsFrame t x y := by
  obtain ⟨hx, hr, hw⟩ := h
  have hinput : (s.setBsIn k i).bsInputs k { x with inp := i } = i := State.bsInputs_unwired hw
  have hy : ((s.setBsIn k i).ticked x.cd.domain).bss[k]? = some ({ x with inp := i }.tick s.mem i) := by
    simp [State.ticked_bs, State.setBsIn_bs, hx, hinput]
  exact ⟨_, _, bsLine_of_ready i hx hr, ⟨hy, State.ready_ticked (State.ready_setBsIn hr), hw⟩, rfl,
    (State.of_ready hr).1, State.sameOutside_bs hx rfl, rfl, rfl, rfl, rfl⟩

/-- A frame of at least one bit to an unwired recognizer at rest completes: its registers go through the tick rule once a
bit, and it is at rest again. -/
theorem bsSend_of_restBs {x : BSInst} {bits : List Bool} (hb : bits ≠ []) (h : s.restBs k x) :
    ∃ t y, bsSend k bits s = .next t ∧ t.restBs k y ∧
      y.reg = BSReg.after s.mem x.params x.reg (selected bits) ∧ s.bsFrame t x y := by
  induction bits generalizing s x with
  | nil => exact absurd rfl hb
  | cons b bs ih =>
    obtain ⟨t, y, hline, hrest, hreg, hframe⟩ := bsLine_of_restBs ⟨true, b⟩ h
    have ⟨hrun, ⟨_, hmem, _⟩, hparams, _⟩ := hframe
    have hsend : bsSend k (b :: bs) s = bsSend k bs t := by rw [bsSend, hline, andThen_running _ hrun]
    by_cases hbs : bs = []
    · subst hbs
      exact ⟨t, y, hsend, hrest, hreg, hframe⟩
    · obtain ⟨u, z, hsend', hrest', hreg', hframe'⟩ := ih hbs hrest
      rw [hmem, hparams, hreg] at hreg'
      exact ⟨u, z, hsend.trans hsend', hrest', hreg', hframe.trans hframe'⟩

/-- The edge counter counts the selected edges (43_spinor_bitserial.md R230). -/
theorem BSReg.after_selected_ec (m : Memory) (q : BSParams) (c : BSReg) (bits : List Bool) :
    (BSReg.after m q c (selected bits)).ec = c.ec + bits.length := by
  induction bits generalizing c with
  | nil => rfl
  | cons b bs ih =>
    have hedge : (c.commit (bsTick m q c ⟨true, b⟩)).ec = c.ec + 1 := by simp [BSReg.commit, bsTick_ec]
    have hrest := ih (c.commit (bsTick m q c ⟨true, b⟩))
    rw [hedge, Nat.add_right_comm] at hrest
    exact hrest

/-- A frame of `n` bits from rest completes in every state of the recognizer, and counts `n` edges (R121, R260). -/
theorem msbFirst_completes {x : BSInst} {n : Nat} (hn : n ≠ 0) (v : BitVec 32) (h : s.restBs k x) :
    ∃ t y, bsSend k (msbFirst n v) s = .next t ∧ t.bss[k]? = some y ∧ y.reg.ec = x.reg.ec + n ∧ s.bsFrame t x y := by
  obtain ⟨t, y, hsend, ⟨hy, -, -⟩, hreg, hframe⟩ := bsSend_of_restBs (msbFirst_ne_nil hn v) h
  exact ⟨t, y, hsend, hy, by rw [hreg, BSReg.after_selected_ec]; simp [msbFirst], hframe⟩

/-- Settles O35: a frame sends its bits one line each, and from rest each line is an edge that leaves rest behind. -/
theorem framesAreTheirWireEdges : Obligations.FramesAreTheirWireEdges := by
  intro s k addr
  refine ⟨?_, ?_, fun x hx => ⟨msbFirst_completes (by decide) rpdFrame hx, msbFirst_completes (by decide) _ hx⟩⟩
  · rw [← msbFirst_rpdFrame, ← bsSend_eq_execAll]
    rfl
  · rw [← msbFirst_readFrame, ← bsSend_eq_execAll]
    rfl

end Sys2Proof.Machine
end

section
/-! PROOF. The clock discipline by host calls (40_clock_discipline.md R141 to R149): a fresh evaluation, a commit, and
the order in which instances are evaluated. -/

namespace Sys2Proof.Machine

variable {s t : State} {sc : Scope} {id a b : InstId}

/-! ### Sequences of host calls -/

theorem execAll_cons {i : Instr} (h : exec i s = .next t) (hn : t.nonconv = none) (is : List Instr) :
    execAll (i :: is) s = execAll is t := by
  rw [execAll, h, andThen_running _ hn]

/-! ### When an evaluation has a meaning (60_exceptions.md R275) -/

/-- What the statements' `evaluable` says, in the words of the model's own checks. -/
theorem State.evaluable_iff : s.evaluable id = true ↔ ∃ c, s.cd? id = some c ∧ c.wasReset = true ∧
    s.paramsOk id = true ∧ s.imageFor id = true ∧
    ∀ w ∈ s.wiresInto id, c.rising = true →
      s.sourceReset w = true ∧ (c.fresh = false → ⟨w.src, w.dst⟩ ∉ s.overtaken) := by
  simp only [State.evaluable, Option.any_eq_true, Bool.and_eq_true, List.all_eq_true, CD.rising, and_assoc]
  refine exists_congr fun c => and_congr_right fun _ => and_congr_right fun _ => and_congr_right fun _ =>
    and_congr_right fun _ => forall₂_congr fun w _ => ?_
  cases c.prevClk <;> cases c.clk <;> cases c.fresh <;> simp

theorem State.blocked_eq_none_iff : s.blocked id = none ↔ s.evaluable id = true := by
  refine ⟨fun h => ?_, State.blocked_of_evaluable⟩
  obtain ⟨c, hc, hreset, hparams, himage, hsource, hpath⟩ := State.of_blocked_none h
  refine State.evaluable_iff.mpr ⟨c, hc, hreset, hparams, himage, fun w hw hr => ⟨hsource w hw hr, fun hf ho => ?_⟩⟩
  have he : s.sameEdge c w = true := by simp [State.sameEdge, CD.owes, hr, hf, ho]
  simp [hpath w hw] at he

theorem State.isSome_of_evaluable (h : s.evaluable id = true) : (s.cd? id).isSome = true := by
  obtain ⟨c, hc, -⟩ := State.evaluable_iff.mp h
  simp [hc]

theorem State.evaluated_paramsOk : (s.evaluated sc).paramsOk id = s.paramsOk id :=
  State.mapScope_paramsOk (fi := fun k x => { x.evaluate (s.i2cInputs k x) with sampled := s.wireValues (.i2c k) })
    (fl := fun k x => { x.evaluate s.mem (s.lrInputs k x) with sampled := s.wireValues (.lr k) })
    (fb := fun k x => { x.evaluate s.mem (s.bsInputs k x) with sampled := s.wireValues (.bs k) })
    (fun _ _ => rfl) (fun _ _ => rfl) id

/-- The image is asked for as in any state with the same image. -/
theorem State.imageFor_congr (h : t.mem = s.mem) : t.imageFor id = s.imageFor id := by
  cases id <;> simp [State.imageFor, h]

theorem State.evaluated_sourceReset (w : Wire) : (s.evaluated sc).sourceReset w = s.sourceReset w := by
  simp only [State.sourceReset, State.evaluated_cd?]
  cases s.cd? w.src with
  | none => rfl
  | some c => simp only [Option.map_some, Option.any_some]; split <;> rfl

/-- An evaluation stops no other one, nor its own repetition: it commits nothing (R143, R148). -/
theorem State.evaluable_evaluated (h : s.evaluable id = true) : (s.evaluated sc).evaluable id = true := by
  obtain ⟨c, hc, hreset, hparams, himage, hwires⟩ := State.evaluable_iff.mp h
  refine State.evaluable_iff.mpr ⟨if sc.has id c then c.evaluate else c, by simp [State.evaluated_cd?, hc], ?_,
    State.evaluated_paramsOk.trans hparams, (State.imageFor_congr rfl).trans himage, fun w hw hr => ?_⟩
  · split <;> exact hreset
  · have hr' : c.rising = true := by split at hr <;> exact hr
    obtain ⟨hsource, hpath⟩ := hwires w hw hr'
    refine ⟨(State.evaluated_sourceReset w).trans hsource, fun hf => hpath ?_⟩
    split at hf
    · cases hf
    · exact hf

/-! ### HOST.EVALUATE (R143) -/

/-- The harness has nothing to compare where nothing is pending or it does not check (60_exceptions.md R262). -/
theorem State.not_checked_diverges (h : ∀ c, s.cd? id = some c → c.pendClk = none ∨ s.checking = false) :
    (s.checking && s.diverges id) = false := by
  cases hc : s.cd? id with
  | none => cases id <;> simp_all [State.cd?, State.diverges]
  | some c =>
    rcases h c hc with hp | hk
    · simp [State.not_diverges hc hp]
    · simp [hk]

/-- An evaluation with nothing to refuse and nothing to report answers the fresh pending set. -/
theorem exec_hostEvaluate (hn : s.nonconv = none) (he : s.evaluable id = true)
    (hd : (s.checking && s.diverges id) = false) :
    exec (.hostEvaluate id) s = .next (s.evaluated (.one id)) := by
  obtain ⟨c, hc, -⟩ := State.evaluable_iff.mp he
  have hone : ∀ j ∈ s.inScope (.one id), j = id := fun j => (State.mem_inScope_one hc j).mp
  exact (onInst_eq hn (State.isSome_of_evaluable he)).trans
    (evaluate_eq (fun j hj => hone j hj ▸ State.blocked_of_evaluable he) fun j hj => hone j hj ▸ hd)

theorem exec_hostEvaluate_of_idle (hn : s.nonconv = none) (he : s.evaluable id = true)
    (hp : ∀ c, s.cd? id = some c → c.pendClk = none ∨ s.checking = false) :
    exec (.hostEvaluate id) s = .next (s.evaluated (.one id)) :=
  exec_hostEvaluate hn he (State.not_checked_diverges hp)

/-- An evaluation that answers and does not end the run is of an instance that can be evaluated, and gives its fresh
pending set. -/
theorem exec_hostEvaluate_next (h : exec (.hostEvaluate id) s = .next t) (hn : t.nonconv = none) :
    s.nonconv = none ∧ s.evaluable id = true ∧ t = s.evaluated (.one id) := by
  obtain ⟨hs, hc, h⟩ := onInst_next h
  obtain ⟨c, hc⟩ := Option.isSome_iff_exists.mp hc
  obtain ⟨hb, ⟨rfl, -⟩ | ⟨j, -, -, -, rfl⟩⟩ := evaluate_next h
  · exact ⟨hs, State.blocked_eq_none_iff.mp (hb id ((State.mem_inScope_one hc id).mpr rfl)), rfl⟩
  · simp at hn

theorem CD.rising_iff {c : CD} : c.rising = true ↔ c.prevClk = false ∧ c.clk = true := by simp [CD.rising]

/-- Settles O44: nothing is refused and nothing compared, so that the answer is the model's evaluation of one
instance. -/
theorem hostEvaluateReturnsTheFreshPendingSet : Obligations.HostEvaluateReturnsTheFreshPendingSet := by
  intro s k hn
  refine ⟨fun x hx he hp => ?_, fun x hx he hp => ?_, fun x hx he hp => ?_⟩
  all_goals
    refine ⟨_, exec_hostEvaluate_of_idle hn he (by simpa [State.cd?, hx] using hp), State.sameBut_evaluated, hn, ?_⟩
    simp only [State.evaluated_i2c, State.evaluated_lr, State.evaluated_bs, hx, Option.map_some, Scope.has,
      beq_self_eq_true, if_true, ← CD.rising_iff]
    rfl

/-- A commit that is not checked, or whose check finds nothing, commits. -/
theorem exec_hostCommit (hn : s.nonconv = none) (hc : (s.cd? id).isSome = true)
    (h : s.checking = false ∨ s.unsettled id = false) :
    exec (.hostCommit id) s = .next (s.committed (.one id)) :=
  execHostCommit_eq hn hc h

/-! ### Evaluating again, and evaluating several (R144, R148) -/

/-- The instances of a scope of `u` get the pending sets that the values committed in `r` give. -/
def State.pendingFrom (r u : State) (sc : Scope) : State :=
  u.mapScope sc (fun k x => { x.evaluate (r.i2cInputs k x) with sampled := r.wireValues (.i2c k) })
    (fun k x => { x.evaluate r.mem (r.lrInputs k x) with sampled := r.wireValues (.lr k) })
    (fun k x => { x.evaluate r.mem (r.bsInputs k x) with sampled := r.wireValues (.bs k) })

theorem State.evaluated_eq_pendingFrom : s.evaluated sc = (s.pendingFrom s sc).withStarted := rfl

/-- An evaluation reads what the one before it read: no evaluation changes a committed value. -/
theorem State.evaluated_pendingFrom (sc' : Scope) :
    (s.evaluated sc).pendingFrom (s.pendingFrom s sc) sc' = s.pendingFrom (s.pendingFrom s sc) sc' := by
  refine State.mapScope_congr ?_ ?_ ?_ <;> intro k x _ _
  · simp only [State.evaluated_wireValues,
      State.i2cInputs_congr (s := s) (t := s.evaluated sc) (y := x) rfl State.evaluated_output rfl rfl]
  · simp only [State.evaluated_wireValues, State.evaluated_mem,
      State.lrInputs_congr (s := s) (t := s.evaluated sc) (y := x) rfl State.evaluated_output rfl rfl]
  · simp only [State.evaluated_wireValues, State.evaluated_mem,
      State.bsInputs_congr (s := s) (t := s.evaluated sc) (y := x) rfl State.evaluated_output rfl]

theorem State.evaluated_evaluated (sc' : Scope) :
    (s.evaluated sc).evaluated sc' = (s.pendingFrom (s.pendingFrom s sc) sc').withStarted := by
  rw [← State.evaluated_pendingFrom]
  rfl

/-- Whether an instance is in the scope does not depend on what it has pending. -/
theorem Scope.has_evaluate (c : CD) : sc.has id c.evaluate = sc.has id c := by
  cases sc <;> rfl

/-- Evaluating a scope again changes nothing (R144). -/
theorem State.evaluated_idem : (s.evaluated sc).evaluated sc = s.evaluated sc := by
  rw [State.evaluated_evaluated, State.evaluated_eq_pendingFrom]
  unfold State.pendingFrom
  rw [State.mapScope_mapScope (fun _ _ => Scope.has_evaluate _) (fun _ _ => Scope.has_evaluate _)
    fun _ _ => Scope.has_evaluate _]
  rfl

/-- A change made where `p` holds and then where `q` holds may be made in either order. -/
theorem ite_change_comm {α : Type} (f : α → α) (p q : Bool) (x : α) :
    (if q then f (if p then f x else x) else if p then f x else x) =
      if p then f (if q then f x else x) else if q then f x else x := by
  cases p <;> cases q <;> rfl

/-- One change of single instances, made to two of them, may be made in either order. -/
theorem State.mapScope_one_comm (fi : Nat → I2CInst → I2CInst) (fl : Nat → LRInst → LRInst)
    (fb : Nat → BSInst → BSInst) : (s.mapScope (.one a) fi fl fb).mapScope (.one b) fi fl fb =
      (s.mapScope (.one b) fi fl fb).mapScope (.one a) fi fl fb := by
  simp only [State.mapScope, State.withInsts, List.mapIdx_mapIdx]
  congr 1
  · congr 1; funext k x; exact ite_change_comm (fi k) (InstId.i2c k == a) (InstId.i2c k == b) x
  · congr 1; funext k x; exact ite_change_comm (fl k) (InstId.lr k == a) (InstId.lr k == b) x
  · congr 1; funext k x; exact ite_change_comm (fb k) (InstId.bs k == a) (InstId.bs k == b) x

/-- Two instances may be evaluated in either order (R148). -/
theorem State.evaluated_comm :
    (s.evaluated (.one a)).evaluated (.one b) = (s.evaluated (.one b)).evaluated (.one a) := by
  rw [State.evaluated_evaluated, State.evaluated_evaluated]
  exact congrArg State.withStarted (State.mapScope_one_comm _ _ _)

/-- An evaluation that has just been made is not reported when it is made again (R144, 60_exceptions.md R263). -/
theorem State.not_diverges_evaluated {c : CD} (hc : s.cd? id = some c) (hs : sc.has id c = true) :
    (s.evaluated sc).diverges id = false := by
  cases id with
  | i2c k =>
    obtain ⟨x, hx, rfl⟩ := Option.map_eq_some_iff.mp hc
    simp only [State.diverges, State.evaluated_i2c, hx, Option.map_some, hs, if_true, Option.any_some]
    rw [State.i2cInputs_congr (s := s) (t := s.evaluated sc)
      (y := { x.evaluate (s.i2cInputs k x) with sampled := s.wireValues (.i2c k) }) (x := x) rfl
      State.evaluated_output rfl rfl]
    exact x.evaluate_differs _ _
  | lr k =>
    obtain ⟨x, hx, rfl⟩ := Option.map_eq_some_iff.mp hc
    simp only [State.diverges, State.evaluated_lr, hx, Option.map_some, hs, if_true, Option.any_some]
    rw [State.lrInputs_congr (s := s) (t := s.evaluated sc)
      (y := { x.evaluate s.mem (s.lrInputs k x) with sampled := s.wireValues (.lr k) }) (x := x) rfl
      State.evaluated_output rfl rfl]
    exact x.evaluate_differs _ _ _
  | bs k =>
    obtain ⟨x, hx, rfl⟩ := Option.map_eq_some_iff.mp hc
    simp only [State.diverges, State.evaluated_bs, hx, Option.map_some, hs, if_true, Option.any_some]
    rw [State.bsInputs_congr (s := s) (t := s.evaluated sc)
      (y := { x.evaluate s.mem (s.bsInputs k x) with sampled := s.wireValues (.bs k) }) (x := x) rfl
      State.evaluated_output rfl]
    exact x.evaluate_differs _ _ _

/-- The check before a commit finds nothing right after the evaluation (60_exceptions.md R263). -/
theorem State.evaluated_one_settled (hc : (s.cd? id).isSome = true) : (s.evaluated (.one id)).unsettled id = false := by
  obtain ⟨c, hc⟩ := Option.isSome_iff_exists.mp hc
  exact State.evaluated_settled hc (by simp [Scope.has])

theorem State.evaluated_cd?_isSome : ((s.evaluated sc).cd? id).isSome = (s.cd? id).isSome := by
  simp [State.evaluated_cd?]

/-- Settles O45: the second evaluation reads the same values, and so does the check before the commit. -/
theorem evaluationIsIdempotent : Obligations.EvaluationIsIdempotent := by
  intro s t id h hn
  obtain ⟨hs, he, rfl⟩ := exec_hostEvaluate_next h hn
  have hsome := State.isSome_of_evaluable he
  obtain ⟨c, hc⟩ := Option.isSome_iff_exists.mp hsome
  have hsame : (s.evaluated (.one id)).diverges id = false := State.not_diverges_evaluated hc (by simp [Scope.has])
  refine ⟨?_, _, exec_hostCommit hn ?_ (.inr (State.evaluated_one_settled hsome)), hn⟩
  · have hagain := exec_hostEvaluate hn (State.evaluable_evaluated (sc := .one id) he) (by simp [hsame])
    rwa [State.evaluated_idem] at hagain
  · rwa [State.evaluated_cd?_isSome]

/-- The state after one evaluation of each instance of a list, in its order. -/
def State.evaluatedAll (s : State) (ids : List InstId) : State := ids.foldl (fun u id => u.evaluated (.one id)) s

theorem State.evaluatedAll_perm {ids ids' : List InstId} (h : ids.Perm ids') :
    s.evaluatedAll ids = s.evaluatedAll ids' :=
  h.foldl_eq' (fun _ _ _ _ _ => State.evaluated_comm) s

/-- An evaluation of one instance leaves the record of every other one alone. -/
theorem State.evaluated_one_cd?_of_ne (h : id ≠ a) : (s.evaluated (.one a)).cd? id = s.cd? id := by
  simp [State.evaluated_cd?, Scope.has, h]

theorem execAll_hostEvaluate {ids : List InstId} (hn : s.nonconv = none) (hnodup : ids.Nodup)
    (h : ∀ id ∈ ids, s.evaluable id = true ∧ ∀ c, s.cd? id = some c → c.pendClk = none ∨ s.checking = false) :
    execAll (ids.map .hostEvaluate) s = .next (s.evaluatedAll ids) := by
  induction ids generalizing s with
  | nil => rfl
  | cons id ids ih =>
    obtain ⟨hnot, hnodup⟩ := List.nodup_cons.mp hnodup
    obtain ⟨he, hp⟩ := h id List.mem_cons_self
    rw [List.map_cons, execAll_cons (exec_hostEvaluate_of_idle hn he hp) hn]
    refine ih hn hnodup fun j hj => ?_
    obtain ⟨hej, hpj⟩ := h j (List.mem_cons_of_mem _ hj)
    have hne : j ≠ id := fun hji => hnot (hji ▸ hj)
    refine ⟨State.evaluable_evaluated hej, ?_⟩
    rwa [State.evaluated_one_cd?_of_ne hne]

/-- Settles O50: each evaluation answers, whatever was evaluated before it, and any two of them commute. -/
theorem evaluationOrderIsIrrelevant : Obligations.EvaluationOrderIsIrrelevant := by
  intro s ids ids' hn hnodup hperm h
  refine ⟨_, execAll_hostEvaluate hn hnodup h, ?_⟩
  rw [State.evaluatedAll_perm hperm]
  exact execAll_hostEvaluate hn (hperm.nodup_iff.mp hnodup) fun id hid => h id (hperm.mem_iff.mpr hid)

/-! ### HOST.COMMIT (R145, R147) -/

/-- The harness' comparison in the words of the tick rule (60_exceptions.md R262). -/
theorem I2CInst.differs_eq_false_iff {x : I2CInst} {i : I2CIn} : x.differs i = false ↔ x.cd.pendClk = none ∨
    (x.cd.pendClk = some x.cd.clk ∧
      x.pend = if x.cd.prevClk = false ∧ x.cd.clk = true then i2cTick x.params x.reg i else {}) := by
  simp only [← CD.rising_iff]
  cases h : x.cd.pendClk with
  | none => simp [I2CInst.differs, h]
  | some v =>
    simp only [I2CInst.differs, I2CInst.pendingSet, h]
    simp [@eq_comm _ v, @eq_comm _ x.pend]

theorem LRInst.differs_eq_false_iff {m : Memory} {x : LRInst} {i : LRIn} : x.differs m i = false ↔ x.cd.pendClk = none ∨
    (x.cd.pendClk = some x.cd.clk ∧
      x.pend = if x.cd.prevClk = false ∧ x.cd.clk = true then lrTick m x.params x.reg i else {}) := by
  simp only [← CD.rising_iff]
  cases h : x.cd.pendClk with
  | none => simp [LRInst.differs, h]
  | some v =>
    simp only [LRInst.differs, LRInst.pendingSet, h]
    simp [@eq_comm _ v, @eq_comm _ x.pend]

theorem BSInst.differs_eq_false_iff {m : Memory} {x : BSInst} {i : BSIn} : x.differs m i = false ↔ x.cd.pendClk = none ∨
    (x.cd.pendClk = some x.cd.clk ∧
      x.pend = if x.cd.prevClk = false ∧ x.cd.clk = true then bsTick m x.params x.reg i else {}) := by
  simp only [← CD.rising_iff]
  cases h : x.cd.pendClk with
  | none => simp [BSInst.differs, h]
  | some v =>
    simp only [BSInst.differs, BSInst.pendingSet, h]
    simp [@eq_comm _ v, @eq_comm _ x.pend]

/-- What a commit returns: whether prev_clk or another element takes a value that differs (R145). -/
theorem CD.commit_changed_iff {c : CD} {α : Type} [DecidableEq α] {old new : α} :
    (c.commit (new != old)).changed = true ↔ new ≠ old ∨ (c.commit (new != old)).prevClk ≠ c.prevClk := by
  simp

/-- Settles O47: the check finds nothing, and the committed instance has each element at its pending value. -/
theorem hostCommitAppliesThePendingSet : Obligations.HostCommitAppliesThePendingSet := by
  intro s k hn
  refine ⟨fun x hx h => ?_, fun x hx h => ?_, fun x hx h => ?_⟩
  · have hcheck : s.checking = false ∨ s.unsettled (.i2c k) = false := by
      simpa [State.unsettled, hx, I2CInst.differs_eq_false_iff] using h
    refine ⟨_, x.commit, exec_hostCommit hn (by simp [State.cd?, hx]) hcheck, State.sameBut_committed, hn,
      by simp [State.committed_i2c, hx, Scope.has], rfl, rfl, rfl, rfl, rfl, rfl, rfl, rfl, rfl, rfl,
      CD.commit_changed_iff, rfl, rfl, rfl, rfl, rfl, rfl, rfl, rfl, rfl, rfl, rfl, rfl⟩
  · have hcheck : s.checking = false ∨ s.unsettled (.lr k) = false := by
      simpa [State.unsettled, hx, LRInst.differs_eq_false_iff] using h
    refine ⟨_, x.commit, exec_hostCommit hn (by simp [State.cd?, hx]) hcheck, State.sameBut_committed, hn,
      by simp [State.committed_lr, hx, Scope.has], rfl, rfl, rfl, rfl, rfl, rfl, rfl, rfl, rfl, rfl,
      CD.commit_changed_iff, rfl, rfl, rfl, rfl, rfl, rfl, rfl⟩
  · have hcheck : s.checking = false ∨ s.unsettled (.bs k) = false := by
      simpa [State.unsettled, hx, BSInst.differs_eq_false_iff] using h
    refine ⟨_, x.commit, exec_hostCommit hn (by simp [State.cd?, hx]) hcheck, State.sameBut_committed, hn,
      by simp [State.committed_bs, hx, Scope.has], rfl, rfl, rfl, rfl, rfl, rfl, rfl, rfl, rfl, rfl,
      CD.commit_changed_iff, rfl, rfl, rfl, rfl, rfl, rfl⟩

/-- An evaluation and its commit in a row: the check before the commit finds nothing (60_exceptions.md R263). -/
theorem execAll_evaluate_commit (hn : s.nonconv = none) (he : s.evaluable id = true)
    (hp : ∀ c, s.cd? id = some c → c.pendClk = none ∨ s.checking = false) :
    execAll [.hostEvaluate id, .hostCommit id] s = .next ((s.evaluated (.one id)).committed (.one id)) := by
  have hsome := State.isSome_of_evaluable he
  have hsome' : ((s.evaluated (.one id)).cd? id).isSome = true := State.evaluated_cd?_isSome.trans hsome
  have hsettled := State.evaluated_one_settled hsome
  have hn' : (s.evaluated (.one id)).nonconv = none := hn
  rw [execAll_cons (exec_hostEvaluate_of_idle hn he hp) hn',
    execAll_cons (exec_hostCommit hn' hsome' (.inr hsettled)) hn', execAll]

theorem CD.not_rising {c : CD} (h : c.prevClk = true ∨ c.clk = false) : c.rising = false := by
  rcases h with h | h <;> simp [CD.rising, h]

/-- Settles O49: with no rising edge the pending set holds the clock sample only, and the commit of it keeps every
register. -/
theorem nonEdgeEvaluationChangesOnlyPrevClk : Obligations.NonEdgeEvaluationChangesOnlyPrevClk := by
  intro s k hn
  refine ⟨fun x hx he hp hedge => ?_, fun x hx he hp hedge => ?_, fun x hx he hp hedge => ?_⟩
  · refine ⟨_, I2CInst.commit { x.evaluate (s.i2cInputs k x) with sampled := s.wireValues (.i2c k) },
      execAll_evaluate_commit hn he (by simpa [State.cd?, hx] using hp),
      State.sameBut_evaluated.trans State.sameBut_committed,
      by simp [State.committed_i2c, State.evaluated_i2c, hx, Scope.has], ?_⟩
    simp [CD.not_rising hedge, appendConsumed]
  · refine ⟨_, LRInst.commit { x.evaluate s.mem (s.lrInputs k x) with sampled := s.wireValues (.lr k) },
      execAll_evaluate_commit hn he (by simpa [State.cd?, hx] using hp),
      State.sameBut_evaluated.trans State.sameBut_committed,
      by simp [State.committed_lr, State.evaluated_lr, hx, Scope.has], ?_⟩
    simp [CD.not_rising hedge]
  · refine ⟨_, BSInst.commit { x.evaluate s.mem (s.bsInputs k x) with sampled := s.wireValues (.bs k) },
      execAll_evaluate_commit hn he (by simpa [State.cd?, hx] using hp),
      State.sameBut_evaluated.trans State.sameBut_committed,
      by simp [State.committed_bs, State.evaluated_bs, hx, Scope.has], ?_⟩
    simp [CD.not_rising hedge]

end Sys2Proof.Machine
end

section
/-! PROOF. Same-edge paths (40_clock_discipline.md R154, 70_reset_and_hazards.md R284). Each instance of a pair goes
through the phases of one high level of their clock, and each host call moves one of them on. What the calls come to
is read off the phases and the record of who was overtaken. -/

namespace Sys2Proof.Machine

variable {s t : State} {id a b : InstId} {d : Nat}

/-! ### What the wires hold while their sources commit (log 10) -/

/-- What a partial function's graph over a list holds for one of its arguments. -/
theorem lookup_filterMap_graph {α β : Type} [DecidableEq α] (f : α → Option β) (w : α) (ws : List α) :
    (ws.filterMap fun u => (f u).map fun v => (u, v)).lookup w = if w ∈ ws then f w else none := by
  induction ws with
  | nil => rfl
  | cons u us ih =>
    by_cases hwu : w = u
    · subst hwu
      cases hf : f w <;> simp [hf, ih]
    · have hbeq : (w == u) = false := by simpa using hwu
      cases hf : f u <;> simp [hf, ih, hwu, hbeq, List.lookup_cons]

/-- The wires onto an instance hold what its evaluation sampled, whatever their sources commit since. -/
theorem State.heldValues_of_wireValues (hw : t.wires = s.wires)
    (ho : ∀ id p, (t.output id p).isSome = (s.output id p).isSome) :
    t.heldValues id (s.wireValues id) = s.wireValues id := by
  have hvalues : t.wireValues id =
      (s.wiresInto id).filterMap fun w => (t.output w.src w.srcPort).map fun v => (w, v) := by
    simp only [State.wireValues, State.wiresInto, hw]
  rw [State.heldValues, hvalues, List.map_filterMap]
  refine List.filterMap_congr fun w hmem => ?_
  have hlookup : (s.wireValues id).lookup w = s.output w.src w.srcPort :=
    (lookup_filterMap_graph (fun w : Wire => s.output w.src w.srcPort) w (s.wiresInto id)).trans (if_pos hmem)
  have hsome := ho w.src w.srcPort
  cases hs : s.output w.src w.srcPort with
  | none =>
    have ht : t.output w.src w.srcPort = none := by simpa [hs] using hsome
    simp [ht]
  | some v =>
    obtain ⟨v', ht⟩ : ∃ v', t.output w.src w.srcPort = some v' := by simpa [hs, Option.isSome_iff_exists] using hsome
    simp [ht, hlookup, hs]

/-- Which ports an instance shows does not depend on its registers. -/
theorem State.mapScope_output_isSome {sc : Scope} {fi : Nat → I2CInst → I2CInst} {fl : Nat → LRInst → LRInst}
    {fb : Nat → BSInst → BSInst} (id : InstId) (p : OutPort) :
    ((s.mapScope sc fi fl fb).output id p).isSome = (s.output id p).isSome := by
  cases id with
  | i2c k =>
    simp only [State.output, State.mapScope_i2c]
    cases s.i2cs[k]? with
    | none => rfl
    | some x => cases p <;> rfl
  | lr k =>
    simp only [State.output, State.mapScope_lr]
    cases s.lrs[k]? with
    | none => rfl
    | some x => cases p <;> rfl
  | bs k =>
    simp only [State.output, State.mapScope_bs]
    cases s.bss[k]? with
    | none => rfl
    | some x => cases p <;> rfl

/-- A commit of one instance gives the check before another's commit nothing to report: that one's inputs are what its
own evaluation read. -/
theorem State.evaluated_committed_settled {c : CD} {sc : Scope} (hc : s.cd? b = some c) (hs : sc.has b c = true)
    (hne : b ≠ a) : ((s.evaluated sc).committed (.one a)).unsettled b = false := by
  obtain ⟨-, -, -, -, -, hi2c, hlr, hbs⟩ := State.sameBut_committed (s := s.evaluated sc) (id := a)
  have hheld : ((s.evaluated sc).committed (.one a)).heldValues b (s.wireValues b) = s.wireValues b :=
    State.heldValues_of_wireValues rfl fun id p =>
      (State.mapScope_output_isSome (s := s.evaluated sc) (sc := .one a) id p).trans
        (by rw [State.evaluated_output])
  cases b with
  | i2c k =>
    obtain ⟨x, hx, rfl⟩ := Option.map_eq_some_iff.mp hc
    simp only [State.unsettled, State.i2cHeld, hi2c k hne, State.evaluated_i2c, hx, Option.map_some, hs, if_true,
      Option.any_some, hheld]
    exact x.evaluate_differs (s.i2cInputs k x) _
  | lr k =>
    obtain ⟨x, hx, rfl⟩ := Option.map_eq_some_iff.mp hc
    simp only [State.unsettled, State.lrHeld, hlr k hne, State.evaluated_lr, hx, Option.map_some, hs, if_true,
      Option.any_some, hheld]
    exact x.evaluate_differs s.mem (s.lrInputs k x) _
  | bs k =>
    obtain ⟨x, hx, rfl⟩ := Option.map_eq_some_iff.mp hc
    simp only [State.unsettled, State.bsHeld, hbs k hne, State.evaluated_bs, hx, Option.map_some, hs, if_true,
      Option.any_some, hheld]
    exact x.evaluate_differs s.mem (s.bsInputs k x) _

/-! ### The clock-discipline records after one call -/

theorem State.evaluated_one_cd?_self {c : CD} (hc : s.cd? a = some c) :
    (s.evaluated (.one a)).cd? a = some c.evaluate := by
  simp [State.evaluated_cd?, hc, Scope.has]

theorem State.afterReset_one_cd?_self {c : CD} (hc : s.cd? a = some c) :
    (s.afterReset (.one a)).cd? a = some c.afterReset := by
  have h := State.mapScope_cd? (s := s) (sc := .one a) CD.afterReset (fi := fun _ x => x.afterReset)
    (fl := fun _ x => x.afterReset) (fb := fun _ x => x.afterReset) (fun _ _ => rfl) (fun _ _ => rfl) (fun _ _ => rfl) a
  exact h.trans (by simp [hc, Scope.has])

theorem State.committed_one_cd?_self {c : CD} (hc : s.cd? a = some c) :
    ∃ changed, (s.committed (.one a)).cd? a = some (c.commit changed) := by
  cases a with
  | i2c k =>
    obtain ⟨x, hx, rfl⟩ := Option.map_eq_some_iff.mp hc
    exact ⟨_, by simp [State.cd?, State.committed_i2c, hx, Scope.has]; rfl⟩
  | lr k =>
    obtain ⟨x, hx, rfl⟩ := Option.map_eq_some_iff.mp hc
    exact ⟨_, by simp [State.cd?, State.committed_lr, hx, Scope.has]; rfl⟩
  | bs k =>
    obtain ⟨x, hx, rfl⟩ := Option.map_eq_some_iff.mp hc
    exact ⟨_, by simp [State.cd?, State.committed_bs, hx, Scope.has]; rfl⟩

/-- A call on one instance leaves the record of every other one alone. -/
theorem State.sameBut.cd? (h : s.sameBut t a) (hne : id ≠ a) : t.cd? id = s.cd? id := by
  obtain ⟨-, -, -, -, -, hi2c, hlr, hbs⟩ := h
  cases id with
  | i2c k => simp only [State.cd?, hi2c k hne]
  | lr k => simp only [State.cd?, hlr k hne]
  | bs k => simp only [State.cd?, hbs k hne]

/-! ### The phases of one high level of the clock -/

/-- How far an instance is with the edge of its clock's present, high level: it has yet to evaluate it, holds an
evaluation of it, or has committed it. -/
inductive EdgePhase where
  | owing
  | seen
  | done

/-- The record of an instance in that phase. -/
def CD.atEdge (c : CD) : EdgePhase → Prop
  | .owing => c.prevClk = false ∧ c.pendClk = none ∧ c.fresh = false
  | .seen => c.prevClk = false ∧ c.pendClk = some true ∧ c.fresh = true
  | .done => c.prevClk = true ∧ c.pendClk = none ∧ c.fresh = false

theorem CD.atEdge_evaluate {c : CD} (hclk : c.clk = true) (h : c.atEdge .owing) : c.evaluate.atEdge .seen :=
  ⟨h.1, congrArg some hclk, rfl⟩

theorem CD.atEdge_commit {c : CD} (changed : Bool) (h : c.atEdge .seen) : (c.commit changed).atEdge .done :=
  ⟨by simp [h.2.1], rfl, rfl⟩

theorem CD.atEdge_afterReset (c : CD) : c.afterReset.atEdge .owing := ⟨rfl, rfl, rfl⟩

theorem CD.owes_of_owing {c : CD} (hclk : c.clk = true) (h : c.atEdge .owing) : c.owes = true := by
  obtain ⟨hprev, -, hfresh⟩ := h
  simp [CD.owes, CD.rising, hprev, hclk, hfresh]

theorem CD.not_owes {c : CD} {p : EdgePhase} (hp : p ≠ .owing) (h : c.atEdge p) : c.owes = false := by
  cases p with
  | owing => exact absurd rfl hp
  | seen => simp [CD.owes, h.2.2]
  | done => simp [CD.owes, CD.rising, h.1]

/-! ### Instances that nothing stops -/

/-- An evaluation of the instance is refused at most for a same-edge path (60_exceptions.md R275,
70_reset_and_hazards.md R283). -/
structure State.Prepared (s : State) (id : InstId) : Prop where
  wasReset : (s.cd? id).any (·.wasReset) = true
  params : s.paramsOk id = true
  image : s.imageFor id = true
  sources : ∀ w ∈ s.wiresInto id, s.sourceReset w = true

/-- No instance that is wired to this one has overtaken it (log 13). -/
def State.NotOvertaken (s : State) (id : InstId) : Prop := ∀ w ∈ s.wiresInto id, ⟨w.src, w.dst⟩ ∉ s.overtaken

theorem State.Prepared.evaluable {c : CD} (h : s.Prepared id) (hc : s.cd? id = some c)
    (ho : c.owes = true → s.NotOvertaken id) : s.evaluable id = true := by
  obtain ⟨hreset, hparams, himage, hsources⟩ := h
  refine State.evaluable_iff.mpr ⟨c, hc, by simpa [hc] using hreset, hparams, himage, fun w hw hr =>
    ⟨hsources w hw, fun hf => ho (by simp [CD.owes, hr, hf]) w hw⟩⟩

/-- What an instance is that can be evaluated and has an edge to evaluate. -/
theorem State.prepared_of_evaluable {c : CD} (h : s.evaluable id = true) (hc : s.cd? id = some c) (ho : c.owes = true) :
    s.Prepared id ∧ s.NotOvertaken id := by
  obtain ⟨c', hc', hreset, hparams, himage, hwires⟩ := State.evaluable_iff.mp h
  cases hc.symm.trans hc'
  simp only [CD.owes, Bool.and_eq_true, Bool.not_eq_true'] at ho
  obtain ⟨hr, hf⟩ := ho
  exact ⟨⟨by simpa [hc] using hreset, hparams, himage, fun w hw => (hwires w hw hr).1⟩,
    fun w hw => (hwires w hw hr).2 hf⟩

/-- A change of instances that takes away no reset and no parameter leaves every instance prepared. -/
theorem State.Prepared.mapScope {sc : Scope} {fi : Nat → I2CInst → I2CInst} {fl : Nat → LRInst → LRInst}
    {fb : Nat → BSInst → BSInst} (h : s.Prepared id)
    (hi : ∀ k x, (fi k x).params = x.params ∧ (x.cd.wasReset = true → (fi k x).cd.wasReset = true))
    (hl : ∀ k x, (fl k x).params = x.params ∧ (x.cd.wasReset = true → (fl k x).cd.wasReset = true))
    (hb : ∀ k x, x.cd.wasReset = true → (fb k x).cd.wasReset = true) : (s.mapScope sc fi fl fb).Prepared id := by
  have hreset : ∀ j, (s.cd? j).any (·.wasReset) = true →
      ((s.mapScope sc fi fl fb).cd? j).any (·.wasReset) = true := by
    intro j hj
    have hrel := State.mapScope_cd?_rel (s := s) (sc := sc) (fi := fi) (fl := fl) (fb := fb)
      (R := fun c c' => c.wasReset = true → c'.wasReset = true) (fun k x _ _ => (hi k x).2) (fun k x _ _ => (hl k x).2)
      (fun k x _ _ => hb k x) j
    obtain ⟨c, hc, hcr⟩ := (Option.any_eq_true _ _).mp hj
    rw [hc] at hrel
    cases hc' : (s.mapScope sc fi fl fb).cd? j with
    | none => rw [hc'] at hrel; cases hrel
    | some c' =>
      rw [hc'] at hrel
      cases hrel with
      | some hcc =>
        rcases hcc with ⟨-, hcc⟩ | ⟨-, rfl⟩
        · exact hcc hcr
        · exact hcr
  have hparams := State.mapScope_paramsOk (s := s) (sc := sc) (fb := fb) (fun k x => (hi k x).1) (fun k x => (hl k x).1)
  exact ⟨hreset id h.wasReset, (hparams id).trans h.params,
    (State.imageFor_congr rfl).trans h.image, fun w hw => hreset w.src (h.sources w hw)⟩

theorem State.Prepared.evaluated (h : s.Prepared id) (sc : Scope) : (s.evaluated sc).Prepared id :=
  have hm : (s.pendingFrom s sc).Prepared id :=
    h.mapScope (fun _ _ => ⟨rfl, fun h => h⟩) (fun _ _ => ⟨rfl, fun h => h⟩) fun _ _ h => h
  ⟨hm.wasReset, hm.params, hm.image, hm.sources⟩

theorem State.Prepared.committed (h : s.Prepared id) (sc : Scope) : (s.committed sc).Prepared id :=
  have hm := h.mapScope (sc := sc) (fi := fun _ x => x.commit) (fl := fun _ x => x.commit) (fb := fun _ x => x.commit)
    (fun _ _ => ⟨rfl, fun h => h⟩) (fun _ _ => ⟨rfl, fun h => h⟩) fun _ _ h => h
  ⟨hm.wasReset, hm.params, hm.image, hm.sources⟩

theorem State.Prepared.afterReset (h : s.Prepared id) (sc : Scope) : (s.afterReset sc).Prepared id :=
  have hm := h.mapScope (sc := sc) (fi := fun _ x => x.afterReset) (fl := fun _ x => x.afterReset)
    (fb := fun _ x => x.afterReset) (fun _ _ => ⟨rfl, fun _ => rfl⟩) (fun _ _ => ⟨rfl, fun _ => rfl⟩) fun _ _ _ => rfl
  ⟨hm.wasReset, hm.params, hm.image, hm.sources⟩

/-! ### Who is overtaken after a call -/

theorem State.NotOvertaken.evaluated (h : s.NotOvertaken id) (sc : Scope) : (s.evaluated sc).NotOvertaken id := h

theorem State.NotOvertaken.afterReset (h : s.NotOvertaken id) (sc : Scope) : (s.afterReset sc).NotOvertaken id :=
  fun w hw ho => h w hw (List.mem_filter.mp ho).1

/-- A commit of one instance adds pairs of that instance only. -/
theorem State.src_of_mem_committed {o : Overtaken} (h : o ∈ (s.committed (.one a)).overtaken) :
    o ∈ s.overtaken ∨ (o.src = a ∧ o ∈ s.overtakes (.one a)) := by
  rcases List.mem_append.mp h with h | h
  · exact .inl (List.mem_filter.mp h).1
  · obtain ⟨-, _, _, -, -, hsrc, -⟩ := State.mem_overtakes.mp h
    exact .inr ⟨by simpa [Scope.has] using hsrc, h⟩

/-- A commit overtakes neither its own instance nor one that owes no edge. -/
theorem State.NotOvertaken.committed {c : CD} (h : s.NotOvertaken id) (hc : s.cd? id = some c)
    (hid : id = a ∨ c.owes = false) : (s.committed (.one a)).NotOvertaken id := by
  intro w hw ho
  have hdst : w.dst = id := by simpa [State.wiresInto] using (List.mem_filter.mp hw).2
  rcases State.src_of_mem_committed ho with ho | ⟨hsrc, ho⟩
  · exact h w hw ho
  · obtain ⟨hne, _, c', -, hc', -, -, -, howes, -⟩ := State.mem_overtakes.mp ho
    rw [hdst] at hne hc'
    cases hc.symm.trans hc'
    rcases hid with rfl | hid
    · exact hne hsrc.symm
    · simp [hid] at howes

/-- A source that is reset after its commit has overtaken none: it shows its reset values. -/
theorem State.NotOvertaken.committed_afterReset (h : s.NotOvertaken id) (ha : (s.cd? a).isSome = true) :
    ((s.committed (.one a)).afterReset (.one a)).NotOvertaken id := by
  intro w hw ho
  obtain ⟨ho, hkept⟩ := List.mem_filter.mp ho
  rcases State.src_of_mem_committed ho with ho | ⟨hsrc, -⟩
  · exact h w hw ho
  · obtain ⟨c, hc⟩ := Option.isSome_iff_exists.mp ha
    obtain ⟨changed, hc'⟩ := State.committed_one_cd?_self hc
    simp only [show w.src = a from hsrc] at hkept
    simp [hc', Scope.has] at hkept

/-! ### Calls that answer -/

theorem exec_hostReset (hn : s.nonconv = none) (hc : (s.cd? id).isSome = true) :
    exec (.hostReset id) s = .next (s.afterReset (.one id)) :=
  onInst_eq hn hc

/-- An evaluation that nothing stops answers; where the harness finds another pending set the answer is the end of the
run (60_exceptions.md R262). -/
theorem exec_hostEvaluate_answers (hn : s.nonconv = none) (he : s.evaluable id = true) :
    ∃ t, exec (.hostEvaluate id) s = .next t := by
  obtain ⟨c, hc, -⟩ := State.evaluable_iff.mp he
  have hfree : (s.inScope (.one id)).findSome? s.blocked = none := by
    rw [List.findSome?_eq_none_iff]
    intro j hj
    rw [(State.mem_inScope_one hc j).mp hj, State.blocked_of_evaluable he]
  have hexec : exec (.hostEvaluate id) s = evaluate (.one id) s := onInst_eq hn (State.isSome_of_evaluable he)
  rw [hexec, evaluate, hfree]
  simp only
  split <;> exact ⟨_, rfl⟩

theorem exec_hostEvaluate_refused {r : Refusal} (hn : s.nonconv = none) (hc : (s.cd? id).isSome = true)
    (hb : s.blocked id = some r) : exec (.hostEvaluate id) s = .refused r := by
  obtain ⟨c, hc'⟩ := Option.isSome_iff_exists.mp hc
  have hone : ∀ j ∈ s.inScope (.one id), j = id := fun j => (State.mem_inScope_one hc' j).mp
  have hscope : (s.inScope (.one id)).findSome? s.blocked = some r := by
    cases hf : (s.inScope (.one id)).findSome? s.blocked with
    | none =>
      have hnone := List.findSome?_eq_none_iff.mp hf id ((State.mem_inScope_one hc' id).mpr rfl)
      rw [hb] at hnone
      cases hnone
    | some r' =>
      obtain ⟨j, hj, hbj⟩ := List.exists_of_findSome?_eq_some hf
      rw [← hbj, hone j hj, hb]
  have hexec : exec (.hostEvaluate id) s = evaluate (.one id) s := onInst_eq hn hc
  rw [hexec, evaluate, hscope]

/-- One call alone. -/
theorem execAll_singleton {i : Instr} (h : exec i s = .next t) : execAll [i] s = .next t := by
  simp [execAll, h, andThen]

/-! ### A pair of instances on one high clock -/

/-- The instance stands on the clock `d`, which is high, in that phase. -/
def State.atEdge (s : State) (id : InstId) (d : Nat) (p : EdgePhase) : Prop :=
  ∃ c, s.cd? id = some c ∧ c.domain = d ∧ c.clk = true ∧ c.atEdge p

/-- The run goes on, and two instances of one clock domain stand in these phases, each with nothing that stops it. -/
structure State.Pair (s : State) (d : Nat) (a : InstId) (p : EdgePhase) (b : InstId) (q : EdgePhase) : Prop where
  run : s.nonconv = none
  ne : a ≠ b
  left : s.atEdge a d p
  right : s.atEdge b d q
  leftFree : s.Prepared a ∧ s.NotOvertaken a
  rightFree : s.Prepared b ∧ s.NotOvertaken b

section Calls

variable {p q : EdgePhase}

theorem State.atEdge.isSome (h : s.atEdge id d p) : (s.cd? id).isSome = true := by
  obtain ⟨c, hc, -⟩ := h
  simp [hc]

theorem State.atEdge.of_cd?_eq (h : s.atEdge id d p) (hc : t.cd? id = s.cd? id) : t.atEdge id d p := by
  rwa [State.atEdge, hc]

theorem State.atEdge.evaluated (h : s.atEdge a d .owing) : (s.evaluated (.one a)).atEdge a d .seen := by
  obtain ⟨c, hc, hd, hclk, hp⟩ := h
  exact ⟨_, State.evaluated_one_cd?_self hc, hd, hclk, CD.atEdge_evaluate hclk hp⟩

theorem State.atEdge.committed (h : s.atEdge a d .seen) : (s.committed (.one a)).atEdge a d .done := by
  obtain ⟨c, hc, hd, hclk, hp⟩ := h
  obtain ⟨changed, hc'⟩ := State.committed_one_cd?_self hc
  exact ⟨_, hc', hd, hclk, CD.atEdge_commit changed hp⟩

theorem State.atEdge.afterReset (h : s.atEdge a d p) : (s.afterReset (.one a)).atEdge a d .owing := by
  obtain ⟨c, hc, hd, hclk, -⟩ := h
  exact ⟨_, State.afterReset_one_cd?_self hc, hd, hclk, CD.atEdge_afterReset c⟩

theorem State.Pair.symm (h : s.Pair d a p b q) : s.Pair d b q a p :=
  ⟨h.run, h.ne.symm, h.right, h.left, h.rightFree, h.leftFree⟩

theorem State.Pair.evaluable (h : s.Pair d a p b q) : s.evaluable a = true := by
  obtain ⟨c, hc, -⟩ := h.left
  exact h.leftFree.1.evaluable hc fun _ => h.leftFree.2

/-! #### One call on the pair -/

theorem State.Pair.exec_evaluate (h : s.Pair d a .owing b q) :
    exec (.hostEvaluate a) s = .next (s.evaluated (.one a)) := by
  obtain ⟨c, hc, -, -, -, hpend, -⟩ := h.left
  exact exec_hostEvaluate_of_idle h.run h.evaluable fun c' hc' => by
    cases hc.symm.trans hc'
    exact .inl hpend

theorem State.Pair.evaluated (h : s.Pair d a .owing b q) : (s.evaluated (.one a)).Pair d a .seen b q where
  run := h.run
  ne := h.ne
  left := h.left.evaluated
  right := h.right.of_cd?_eq (State.sameBut_evaluated.cd? h.ne.symm)
  leftFree := ⟨h.leftFree.1.evaluated _, h.leftFree.2.evaluated _⟩
  rightFree := ⟨h.rightFree.1.evaluated _, h.rightFree.2.evaluated _⟩

theorem State.Pair.exec_commit (h : s.Pair d a p b q) (hs : s.unsettled a = false) :
    exec (.hostCommit a) s = .next (s.committed (.one a)) :=
  exec_hostCommit h.run h.left.isSome (.inr hs)

theorem State.Pair.committed (h : s.Pair d a .seen b q) (hq : q ≠ .owing) :
    (s.committed (.one a)).Pair d a .done b q where
  run := h.run
  ne := h.ne
  left := h.left.committed
  right := h.right.of_cd?_eq (State.sameBut_committed.cd? h.ne.symm)
  leftFree := by
    obtain ⟨c, hc, -⟩ := h.left
    exact ⟨h.leftFree.1.committed _, h.leftFree.2.committed hc (.inl rfl)⟩
  rightFree := by
    obtain ⟨c, hc, -, -, hphase⟩ := h.right
    exact ⟨h.rightFree.1.committed _, h.rightFree.2.committed hc (.inr (CD.not_owes hq hphase))⟩

theorem State.Pair.exec_reset (h : s.Pair d a p b q) : exec (.hostReset a) s = .next (s.afterReset (.one a)) :=
  exec_hostReset h.run h.left.isSome

theorem State.Pair.afterReset (h : s.Pair d a p b q) : (s.afterReset (.one a)).Pair d a .owing b q where
  run := h.run
  ne := h.ne
  left := h.left.afterReset
  right := h.right.of_cd?_eq (State.sameBut_afterReset.cd? h.ne.symm)
  leftFree := ⟨h.leftFree.1.afterReset _, h.leftFree.2.afterReset _⟩
  rightFree := ⟨h.rightFree.1.afterReset _, h.rightFree.2.afterReset _⟩

/-- A source that commits and is reset leaves the pair as if it had done nothing, whatever the reader owes. -/
theorem State.Pair.committed_afterReset (h : s.Pair d a .seen b q) :
    ((s.committed (.one a)).afterReset (.one a)).Pair d a .owing b q where
  run := h.run
  ne := h.ne
  left := h.left.committed.afterReset
  right := h.right.of_cd?_eq ((State.sameBut_committed.trans State.sameBut_afterReset).cd? h.ne.symm)
  leftFree := ⟨(h.leftFree.1.committed _).afterReset _, h.leftFree.2.committed_afterReset h.left.isSome⟩
  rightFree := ⟨(h.rightFree.1.committed _).afterReset _, h.rightFree.2.committed_afterReset h.left.isSome⟩

end Calls

/-! #### Several calls on the pair -/

/-- One instance alone is evaluated and commits. -/
theorem State.Pair.execAll_left {q : EdgePhase} (h : s.Pair d a .owing b q) (is : List Instr) :
    execAll (.hostEvaluate a :: .hostCommit a :: is) s = execAll is ((s.evaluated (.one a)).committed (.one a)) := by
  rw [execAll_cons h.exec_evaluate h.evaluated.run,
    execAll_cons (h.evaluated.exec_commit (State.evaluated_one_settled h.left.isSome)) h.run]

/-- Both are evaluated, and the one commits. -/
theorem State.Pair.execAll_both_left (h : s.Pair d a .owing b .owing) :
    ∃ t, (∀ is, execAll (.hostEvaluate a :: .hostEvaluate b :: .hostCommit a :: is) s = execAll is t) ∧
      t.wires = s.wires ∧ t.Pair d a .done b .seen ∧ t.unsettled b = false := by
  have hseen : ((s.evaluated (.one a)).evaluated (.one b)).Pair d a .seen b .seen := h.evaluated.symm.evaluated.symm
  have hsettled : ((s.evaluated (.one a)).evaluated (.one b)).unsettled a = false := by
    rw [State.evaluated_comm]
    exact State.evaluated_one_settled h.symm.evaluated.right.isSome
  obtain ⟨c, hc, -⟩ := h.evaluated.right
  refine ⟨((s.evaluated (.one a)).evaluated (.one b)).committed (.one a), fun is => ?_, rfl, hseen.committed nofun,
    State.evaluated_committed_settled hc (by simp [Scope.has]) h.ne.symm⟩
  rw [execAll_cons h.exec_evaluate h.evaluated.run, execAll_cons h.evaluated.symm.exec_evaluate hseen.run,
    execAll_cons (hseen.exec_commit hsettled) (hseen.committed nofun).run]

/-- Both are evaluated and commit: the order of a cycle (R151). -/
theorem State.Pair.execAll_both (h : s.Pair d a .owing b .owing) :
    ∃ t, (∀ is, execAll (.hostEvaluate a :: .hostEvaluate b :: .hostCommit a :: .hostCommit b :: is) s = execAll is t) ∧
      t.wires = s.wires ∧ t.Pair d a .done b .done := by
  obtain ⟨t, ht, hwires, hpair, hsettled⟩ := h.execAll_both_left
  refine ⟨t.committed (.one b), fun is => ?_, hwires, (hpair.symm.committed nofun).symm⟩
  rw [ht, execAll_cons (hpair.symm.exec_commit hsettled) (hpair.symm.committed nofun).run]

/-! ### A reader that its source has overtaken -/

/-- The source's commit overtakes the reader that has yet to evaluate the edge. -/
theorem State.Pair.overtakes (h : s.Pair d a .owing b .owing) :
    ⟨a, b⟩ ∈ ((s.evaluated (.one a)).committed (.one a)).overtaken := by
  obtain ⟨ca, hca, hda, -, hprev, hpend, hfresh⟩ := h.evaluated.left
  obtain ⟨cb, hcb, hdb, hclk, hphase⟩ := h.evaluated.right
  refine List.mem_append_right _ (State.mem_overtakes.mpr ⟨h.ne.symm, ca, cb, hca, hcb, by simp [Scope.has], ?_,
    hdb.trans hda.symm, CD.owes_of_owing hclk hphase, by simp [Scope.has, h.ne.symm]⟩)
  simp [CD.commitsEdge, hprev, hpend, hfresh]

/-- An instance whose same-edge paths all come from `a` is refused with that path. -/
theorem State.Prepared.blocked_sameEdge {c : CD} {w : Wire} (h : s.Prepared b) (hc : s.cd? b = some c)
    (howes : c.owes = true) (hw : w ∈ s.wiresInto b) (hover : ⟨w.src, w.dst⟩ ∈ s.overtaken)
    (honly : ∀ w ∈ s.wiresInto b, ⟨w.src, w.dst⟩ ∈ s.overtaken → w.src = a) :
    s.blocked b = some (.sameEdgePath a b) := by
  obtain ⟨hreset, hparams, himage, hsources⟩ := h
  have hnoSource : (s.wiresInto b).find? (fun w => c.rising && !s.sourceReset w) = none := by
    rw [List.find?_eq_none]
    intro v hv
    simp [hsources v hv]
  have hpath : ∃ v, (s.wiresInto b).find? (s.sameEdge c) = some v ∧ v.src = a := by
    have hsome : ((s.wiresInto b).find? (s.sameEdge c)).isSome = true :=
      List.find?_isSome.mpr ⟨w, hw, by simp [State.sameEdge, howes, hover]⟩
    obtain ⟨v, hv⟩ := Option.isSome_iff_exists.mp hsome
    have hedge := List.find?_some hv
    exact ⟨v, hv, honly v (List.mem_of_find?_eq_some hv) (by simpa [State.sameEdge, howes] using hedge)⟩
  obtain ⟨v, hv, hsrc⟩ := hpath
  have hreset : c.wasReset = true := by simpa [hc] using hreset
  simp [State.blocked, hc, hreset, hparams, himage, hnoSource, hv, hsrc]

/-- The source's commit before the reader's evaluation: the reader is refused (R154). -/
theorem State.Pair.execAll_refused {w : Wire} (h : s.Pair d a .owing b .owing) (hw : w ∈ s.wires) (hsrc : w.src = a)
    (hdst : w.dst = b) :
    execAll [.hostEvaluate a, .hostCommit a, .hostEvaluate b] s = .refused (.sameEdgePath a b) := by
  have hright : ((s.evaluated (.one a)).committed (.one a)).atEdge b d .owing :=
    h.evaluated.right.of_cd?_eq (State.sameBut_committed.cd? h.ne.symm)
  obtain ⟨c, hc, -, hclk, hphase⟩ := hright
  have hblocked : ((s.evaluated (.one a)).committed (.one a)).blocked b = some (.sameEdgePath a b) := by
    refine (h.evaluated.rightFree.1.committed _).blocked_sameEdge hc (CD.owes_of_owing hclk hphase) (w := w)
      (List.mem_filter.mpr ⟨hw, by simp [hdst]⟩) (by rw [hsrc, hdst]; exact h.overtakes) fun v hv ho => ?_
    rcases State.src_of_mem_committed ho with ho | ⟨hsrc, -⟩
    · exact absurd ho (h.evaluated.rightFree.2 v hv)
    · exact hsrc
  have hrun : ((s.evaluated (.one a)).committed (.one a)).nonconv = none := h.run
  rw [h.execAll_left, execAll, exec_hostEvaluate_refused hrun (by simp [hc]) hblocked, andThen]

/-- Settles O56: each of the runs is followed through the phases of its two instances. -/
theorem sameEdgePathIsRefused : Obligations.SameEdgePathIsRefused := by
  intro s a b ca cb w hn hne hca hcb hdom hpa hpb hfa hfb hprevA hclkA hprevB hclkB hea heb hw hsrc hdst
  have hphaseA : ca.atEdge .owing := ⟨hprevA, hpa, hfa⟩
  have hphaseB : cb.atEdge .owing := ⟨hprevB, hpb, hfb⟩
  have hpair : s.Pair ca.domain a .owing b .owing :=
    ⟨hn, hne, ⟨ca, hca, rfl, hclkA, hphaseA⟩, ⟨cb, hcb, hdom.symm, hclkB, hphaseB⟩,
      State.prepared_of_evaluable hea hca (CD.owes_of_owing hclkA hphaseA),
      State.prepared_of_evaluable heb hcb (CD.owes_of_owing hclkB hphaseB)⟩
  refine ⟨hpair.execAll_refused hw hsrc hdst, ?_, ?_, ?_, ?_⟩
  · -- Both are reset with clk = 1 and owe a new edge, so that the first run repeats itself.
    obtain ⟨t, ht, hwires, hdone⟩ := hpair.execAll_both
    have howing := hdone.afterReset.symm.afterReset.symm
    rw [ht, execAll_cons hdone.exec_reset hdone.afterReset.run,
      execAll_cons hdone.afterReset.symm.exec_reset howing.run]
    exact howing.execAll_refused (hwires.symm ▸ hw) hsrc hdst
  · -- The source's reset takes back what its commit overtook.
    have howing := hpair.evaluated.committed_afterReset
    have hsource := hpair.evaluated.left.committed
    have hrun : ((s.evaluated (.one a)).committed (.one a)).nonconv = none := hn
    rw [hpair.execAll_left, execAll_cons (exec_hostReset hrun hsource.isSome) howing.run]
    exact ⟨_, execAll_singleton howing.symm.exec_evaluate, howing.symm.evaluated.run⟩
  · -- The reader holds an evaluation of the edge and owes none.
    obtain ⟨t, ht, -, hpair', -⟩ := hpair.execAll_both_left
    obtain ⟨u, hu⟩ := exec_hostEvaluate_answers hpair'.run hpair'.symm.evaluable
    rw [ht]
    exact ⟨u, execAll_singleton hu⟩
  · -- The reader owes nothing at the source's second commit, and an edge of its own after its reset.
    obtain ⟨t, ht, -, hdone⟩ := hpair.execAll_both
    have hagain := hdone.afterReset.evaluated.committed (q := .done) nofun
    have hown := hagain.symm.afterReset
    obtain ⟨c, hc, -, hclk, hprev, hpend, -⟩ := hown.evaluated.left
    refine ⟨_, c, ?_, hown.evaluated.run, hc, hprev, hclk, hpend⟩
    rw [ht, execAll_cons hdone.exec_reset hdone.afterReset.run, hdone.afterReset.execAll_left,
      execAll_cons hagain.symm.exec_reset hown.run]
    exact execAll_singleton hown.exec_evaluate

end Sys2Proof.Machine
end

section
/-! PROOF. What one edge does to the registers and the trace of an I2C instance (41_i2c_target.md R161, R175). Each step
of the tick rule is an update of the registers that a commit of the pending set gives; the tick is their composition, in
closed form for either variant. -/

namespace Sys2Proof.Machine

variable {q : I2CParams} {c : I2CReg} {i : I2CIn} {p : I2CPend}

/-! ### The slot of each variant (10_state.md R31) -/

@[simp] theorem I2CReg.inboundFull_dual : c.inboundFull .dual = c.inFull := rfl
@[simp] theorem I2CReg.inboundFull_single : c.inboundFull .single = c.full := rfl
@[simp] theorem I2CReg.inboundItem_dual : c.inboundItem .dual = c.inQ := rfl
@[simp] theorem I2CReg.inboundItem_single : c.inboundItem .single = c.q := rfl
@[simp] theorem I2CReg.outboundFull_dual : c.outboundFull .dual = c.outFull := rfl
@[simp] theorem I2CReg.outboundFull_single : c.outboundFull .single = c.full := rfl

/-! ### The steps of the tick rule as updates of the registers -/

/-- Step 1 (R163). -/
@[simp] theorem commit_i2cStepAck : c.commit (i2cStepAck i p) = { c.commit p with ackOut := i.ackIn } := rfl

/-- Step 2, DUAL (R164): the data stays. -/
@[simp] theorem commit_i2cStepOutRead_dual : c.commit (i2cStepOutRead .dual c i p) =
    { c.commit p with
      outFull := if c.outFull && i.outRe then false else (c.commit p).outFull
      outReady := if c.outFull && i.outRe then false else (c.commit p).outReady } := by
  rw [i2cStepOutRead, I2CReg.outboundFull_dual]
  split <;> rfl

/-- Step 2, SINGLE (R175). -/
@[simp] theorem commit_i2cStepOutRead_single : c.commit (i2cStepOutRead .single c i p) =
    { c.commit p with full := if c.full && i.outRe then false else (c.commit p).full } := by
  rw [i2cStepOutRead, I2CReg.outboundFull_single]
  split <;> rfl

/-- Step 3, DUAL (R165). -/
@[simp] theorem commit_i2cStepPublish_dual : c.commit (i2cStepPublish .dual i p) =
    { c.commit p with
      outFull := if i.outPub then true else (c.commit p).outFull
      outData := if i.outPub then i.outDin else (c.commit p).outData
      outReady := if i.outPub then true else (c.commit p).outReady } := by
  unfold i2cStepPublish
  split <;> rfl

/-- Step 3, SINGLE (R175). -/
@[simp] theorem commit_i2cStepPublish_single : c.commit (i2cStepPublish .single i p) =
    { c.commit p with
      full := if i.outPub then true else (c.commit p).full
      q := if i.outPub then i.outDin else (c.commit p).q } := by
  unfold i2cStepPublish
  split <;> rfl

/-- Step 4 in IDLE (R166). -/
@[simp] theorem commit_i2cStepIdle (timeout : Nat) : c.commit (i2cStepIdle timeout i p) =
    { c.commit p with
      st := if i.start then .busy else (c.commit p).st
      cnt := if i.start then timeout else (c.commit p).cnt
      busy := if i.start then true else (c.commit p).busy } := by
  unfold i2cStepIdle
  split <;> rfl

/-- The consumption of step 4, DUAL (R167). -/
@[simp] theorem commit_i2cStepConsume_dual : c.commit (i2cStepConsume .dual c p) =
    { c.commit p with
      inFull := if c.inFull then false else (c.commit p).inFull
      inReady := if c.inFull then true else (c.commit p).inReady } := by
  rw [i2cStepConsume, I2CReg.inboundFull_dual]
  split <;> rfl

/-- The consumption of step 4, SINGLE (R175). -/
@[simp] theorem commit_i2cStepConsume_single : c.commit (i2cStepConsume .single c p) =
    { c.commit p with full := if c.full then false else (c.commit p).full } := by
  rw [i2cStepConsume, I2CReg.inboundFull_single]
  split <;> rfl

/-- The countdown of step 4 (R168). -/
@[simp] theorem commit_i2cStepCount (n : Nat) : c.commit (i2cStepCount n p) =
    { c.commit p with
      cnt := n - 1
      st := if n - 1 = 0 then .idle else (c.commit p).st
      busy := if n - 1 = 0 then false else (c.commit p).busy } := by
  unfold i2cStepCount
  split <;> rfl

/-- Step 5, DUAL (R169). -/
@[simp] theorem commit_i2cStepCapture_dual : c.commit (i2cStepCapture .dual c i p) =
    { c.commit p with
      inFull := if !c.inFull && i.inWe then true else (c.commit p).inFull
      inQ := if !c.inFull && i.inWe then i.inDin else (c.commit p).inQ
      inReady := if !c.inFull && i.inWe then false else (c.commit p).inReady } := by
  rw [i2cStepCapture, I2CReg.inboundFull_dual]
  split <;> rfl

/-- Step 5, SINGLE (R175). -/
@[simp] theorem commit_i2cStepCapture_single : c.commit (i2cStepCapture .single c i p) =
    { c.commit p with
      full := if !c.full && i.inWe then true else (c.commit p).full
      q := if !c.full && i.inWe then i.inDin else (c.commit p).q } := by
  rw [i2cStepCapture, I2CReg.inboundFull_single]
  split <;> rfl

/-! ### The tick rule in closed form -/

/-- The countdown after an edge of a BUSY instance (R167, R168): re-armed first where an item waits. -/
def I2CReg.left (q : I2CParams) (c : I2CReg) : Nat := i2cRearmed q.variant q.timeout c - 1

/-- Every register of a DUAL instance after an edge (R161). -/
theorem commit_i2cTick_dual (hv : q.variant = .dual) : c.commit (i2cTick q c i) =
    { st := if c.st = .busy then (if c.left q = 0 then .idle else .busy) else if i.start then .busy else .idle
      cnt := if c.st = .busy then c.left q else if i.start then q.timeout else c.cnt
      busy := if c.st = .busy then (if c.left q = 0 then false else c.busy) else if i.start then true else c.busy
      ackOut := i.ackIn
      inFull := if c.inFull then !(c.st == .busy) else i.inWe
      inQ := if !c.inFull && i.inWe then i.inDin else c.inQ
      inReady := if c.inFull then (if c.st = .busy then true else c.inReady) else if i.inWe then false else c.inReady
      outFull := i.outPub || (c.outFull && !i.outRe)
      outData := if i.outPub then i.outDin else c.outData
      outReady := if i.outPub then true else if c.outFull && i.outRe then false else c.outReady
      full := c.full
      q := c.q } := by
  cases hst : c.st with
  | idle => cases hin : c.inFull <;> cases hout : c.outFull <;> simp [i2cTick, i2cStepFsm, hv, hst, hin, hout]
  | busy =>
    cases hin : c.inFull <;> cases hout : c.outFull <;>
      simp [i2cTick, i2cStepFsm, I2CReg.left, hv, hst, hin, hout]

/-- Every register of a SINGLE instance after an edge (R175): of two steps on the slot the later one decides it. -/
theorem commit_i2cTick_single (hv : q.variant = .single) : c.commit (i2cTick q c i) =
    { c with
      st := if c.st = .busy then (if c.left q = 0 then .idle else .busy) else if i.start then .busy else .idle
      cnt := if c.st = .busy then c.left q else if i.start then q.timeout else c.cnt
      busy := if c.st = .busy then (if c.left q = 0 then false else c.busy) else if i.start then true else c.busy
      ackOut := i.ackIn
      full := if !c.full && i.inWe then true else if c.st = .busy ∧ c.full then false
        else i.outPub || (c.full && !i.outRe)
      q := if !c.full && i.inWe then i.inDin else if i.outPub then i.outDin else c.q } := by
  cases hst : c.st with
  | idle => cases hf : c.full <;> simp [i2cTick, i2cStepFsm, hv, hst, hf]
  | busy => cases hf : c.full <;> simp [i2cTick, i2cStepFsm, I2CReg.left, hv, hst, hf]

/-! ### The transaction, in either variant -/

theorem commit_i2cTick_st : (c.commit (i2cTick q c i)).st =
    if c.st = .busy then (if c.left q = 0 then .idle else .busy) else if i.start then .busy else .idle := by
  cases hv : q.variant with
  | dual => rw [commit_i2cTick_dual hv]
  | single => rw [commit_i2cTick_single hv]

theorem commit_i2cTick_cnt : (c.commit (i2cTick q c i)).cnt =
    if c.st = .busy then c.left q else if i.start then q.timeout else c.cnt := by
  cases hv : q.variant with
  | dual => rw [commit_i2cTick_dual hv]
  | single => rw [commit_i2cTick_single hv]

theorem commit_i2cTick_busy : (c.commit (i2cTick q c i)).busy =
    if c.st = .busy then (if c.left q = 0 then false else c.busy) else if i.start then true else c.busy := by
  cases hv : q.variant with
  | dual => rw [commit_i2cTick_dual hv]
  | single => rw [commit_i2cTick_single hv]

theorem commit_i2cTick_ackOut : (c.commit (i2cTick q c i)).ackOut = i.ackIn := by
  cases hv : q.variant with
  | dual => rw [commit_i2cTick_dual hv]
  | single => rw [commit_i2cTick_single hv]

/-- A start in IDLE (R166). -/
theorem commit_i2cTick_start (hst : c.st = .idle) (hs : i.start = true) :
    (c.commit (i2cTick q c i)).st = .busy ∧ (c.commit (i2cTick q c i)).busy = true ∧
      (c.commit (i2cTick q c i)).cnt = q.timeout := by
  simp [commit_i2cTick_st, commit_i2cTick_busy, commit_i2cTick_cnt, hst, hs]

/-- Where nothing is requested of a slot and nothing consumed, the slots stay. -/
theorem commit_i2cTick_slots_stay (hwe : i.inWe = false) (hre : i.outRe = false) (hpub : i.outPub = false)
    (hc : ¬(c.st = .busy ∧ c.inboundFull q.variant = true)) : c.commit (i2cTick q c i) =
    { c with
      st := if c.st = .busy then (if c.left q = 0 then .idle else .busy) else if i.start then .busy else .idle
      cnt := if c.st = .busy then c.left q else if i.start then q.timeout else c.cnt
      busy := if c.st = .busy then (if c.left q = 0 then false else c.busy) else if i.start then true else c.busy
      ackOut := i.ackIn } := by
  cases hv : q.variant with
  | dual =>
    rw [hv, I2CReg.inboundFull_dual] at hc
    cases hf : c.inFull <;> simp_all [commit_i2cTick_dual hv]
  | single =>
    rw [hv, I2CReg.inboundFull_single] at hc
    cases hf : c.full <;> simp_all [commit_i2cTick_single hv]

/-! ### The trace (R174) -/

@[simp] theorem I2CPend.emptyInbound_emit (v : Variant) : (p.emptyInbound v).emit = p.emit := by cases v <;> rfl
@[simp] theorem I2CPend.fillInbound_emit (v : Variant) (d : Nat) : (p.fillInbound v d).emit = p.emit := by
  cases v <;> rfl
@[simp] theorem I2CPend.emptyOutbound_emit (v : Variant) : (p.emptyOutbound v).emit = p.emit := by cases v <;> rfl
@[simp] theorem I2CPend.fillOutbound_emit (v : Variant) (d : Nat) : (p.fillOutbound v d).emit = p.emit := by
  cases v <;> rfl

theorem i2cStepCount_emit (n : Nat) : (i2cStepCount n p).emit = p.emit := by
  unfold i2cStepCount
  split <;> rfl

/-- Only the consumption of step 4 emits. -/
theorem i2cTick_emit : (i2cTick q c i).emit =
    if c.st = .busy ∧ c.inboundFull q.variant then some (c.inboundItem q.variant) else none := by
  have hcapture : ∀ p, (i2cStepCapture q.variant c i p).emit = p.emit := fun p => by
    unfold i2cStepCapture; split <;> simp
  have hslot : (i2cStepPublish q.variant i (i2cStepOutRead q.variant c i (i2cStepAck i {}))).emit = none := by
    unfold i2cStepPublish i2cStepOutRead; split <;> split <;> simp [i2cStepAck]
  rw [i2cTick, hcapture]
  cases hst : c.st with
  | idle => simp only [i2cStepFsm, hst, i2cStepIdle]; split <;> simp [hslot]
  | busy => simp only [i2cStepFsm, hst, i2cStepCount_emit, i2cStepConsume]; split <;> simp [*]

theorem appendConsumed_i2cTick (tr : List TraceEvent) : appendConsumed tr (i2cTick q c i) =
    if c.st = .busy ∧ c.inboundFull q.variant then tr ++ [.consumed (c.inboundItem q.variant)] else tr := by
  rw [appendConsumed, i2cTick_emit]
  by_cases h : c.st = .busy ∧ c.inboundFull q.variant
  · simp [h]
  · simp only [if_neg h]

/-! ### Requests without an effect -/

/-- A start while BUSY (R170). -/
theorem i2cTick_start_of_busy (hst : c.st = .busy) (a b : Bool) :
    i2cTick q c { i with start := a } = i2cTick q c { i with start := b } := by
  simp only [i2cTick, i2cStepFsm, hst]
  rfl

/-- A write into a FULL inbound slot (R162, R171). -/
theorem i2cTick_inWe_of_full (hf : c.inboundFull q.variant = true) (a b : Bool) :
    i2cTick q c { i with inWe := a } = i2cTick q c { i with inWe := b } := by
  simp only [i2cTick, i2cStepCapture, hf]
  rfl

/-- A read of an EMPTY outbound slot (R172). -/
theorem i2cTick_outRe_of_empty (hf : c.outboundFull q.variant = false) (a b : Bool) :
    i2cTick q c { i with outRe := a } = i2cTick q c { i with outRe := b } := by
  simp only [i2cTick, i2cStepOutRead, hf]
  rfl

end Sys2Proof.Machine
end

section
/-! PROOF. The I2C target controller (41_i2c_target.md): a line from rest is one edge of its tick rule, whose closed form
for either variant says what each request does and how long a transaction lasts. -/

namespace Sys2Proof.Machine

variable {q : I2CParams} {i : I2CIn}

/-! ### One line from rest -/

section Line

variable {s : State} {k : Nat} {x : I2CInst}

@[simp] theorem I2CIn.atWidth_mk (start we ore pub ack : Bool) (a b : Nat) :
    I2CIn.atWidth q ⟨start, we, ore, pub, ack, a, b⟩ =
      ⟨start, we, ore, pub, ack, lowBits q.inW a, lowBits q.outW b⟩ := rfl

theorem lowBits_of_lt {w v : Nat} (h : v < 2 ^ w) : lowBits w v = v := Nat.mod_eq_of_lt h

theorem I2CIn.atWidth_of_lt (hin : i.inDin < 2 ^ q.inW) (hout : i.outDin < 2 ^ q.outW) : i.atWidth q = i := by
  rw [I2CIn.atWidth, lowBits_of_lt hin, lowBits_of_lt hout]

/-- One edge of an unwired instance at rest: the tick rule on the line's inputs, and rest again. -/
theorem exec_i2cOp_of_restI2c (i : I2CIn) (h : s.restI2c k x) :
    ∃ t y, exec (i.op k) s = .next t ∧ t.restI2c k y ∧
      y.reg = x.reg.commit (i2cTick x.params x.reg (i.atWidth x.params)) ∧
      y.trace = appendConsumed x.trace (i2cTick x.params x.reg (i.atWidth x.params)) ∧ s.i2cFrame t x y := by
  obtain ⟨hx, hr, hw⟩ := h
  have hinput : (s.setI2cIn k i).i2cInputs k { x with inp := i } = i.atWidth x.params := State.i2cInputs_unwired hw
  have hy : ((s.setI2cIn k i).ticked x.cd.domain).i2cs[k]? = some ({ x with inp := i }.tick (i.atWidth x.params)) := by
    simp [State.ticked_i2c, State.setI2cIn_i2c, hx, hinput]
  exact ⟨_, _, (exec_i2cOp i).trans (i2cLine_of_ready i hx hr), ⟨hy, State.ready_ticked (State.ready_setI2cIn hr), hw⟩,
    rfl, rfl, (State.of_ready hr).1, State.sameOutside_i2c hx rfl, rfl, rfl, rfl, rfl⟩

/-- Two lines whose ticks agree do the same to the instance. -/
theorem exec_i2cOp_congr (i j : I2CIn) (h : s.restI2c k x)
    (hij : i2cTick x.params x.reg (i.atWidth x.params) = i2cTick x.params x.reg (j.atWidth x.params)) :
    ∃ t u y z, exec (i.op k) s = .next t ∧ exec (j.op k) s = .next u ∧ t.restI2c k y ∧ u.i2cs[k]? = some z ∧
      y.reg = x.reg.commit (i2cTick x.params x.reg (i.atWidth x.params)) ∧ y.reg = z.reg ∧ y.trace = z.trace ∧
      s.i2cFrame t x y := by
  obtain ⟨t, y, ht, hy, hreg, htrace, hframe⟩ := exec_i2cOp_of_restI2c i h
  obtain ⟨u, z, hu, ⟨hz, -, -⟩, hreg', htrace', -⟩ := exec_i2cOp_of_restI2c j h
  exact ⟨t, u, y, z, ht, hu, hy, hz, hreg, by rw [hreg, hreg', hij], by rw [htrace, htrace', hij], hframe⟩

/-- An instance at rest has a timeout of at least 1 (00_scope.md R12). -/
theorem State.restI2c.timeout_pos (h : s.restI2c k x) : 1 ≤ x.params.timeout := by
  obtain ⟨hx, hr, -⟩ := h
  obtain ⟨⟨-, hparams, -⟩, -⟩ := (State.of_ready hr).2 (.i2c k) x.cd (by simp [State.cd?, hx]) rfl
  exact I2CParams.ok_timeout (by simpa [State.paramsOk, hx] using hparams)

end Line

/-! ### A line with one or more requests -/

/-- Settles O12: the start of step 4, in either variant; an IDLE instance consumes nothing. -/
theorem startInIdleEntersBusy : Obligations.StartInIdleEntersBusy := by
  intro s k x we ore pub ack a b h hst
  obtain ⟨t, y, ht, ⟨hy, -, -⟩, hreg, htrace, hframe⟩ := exec_i2cOp_of_restI2c ⟨true, we, ore, pub, ack, a, b⟩ h
  obtain ⟨hbusy, hflag, hcnt⟩ := commit_i2cTick_start (q := x.params)
    (i := I2CIn.atWidth x.params ⟨true, we, ore, pub, ack, a, b⟩) hst rfl
  refine ⟨t, y, ht, hy, hreg ▸ hbusy, hreg ▸ hflag, hreg ▸ hcnt, ?_, ?_, ?_, hframe⟩
  · simp [htrace, appendConsumed_i2cTick, hst]
  · rintro rfl rfl rfl
    rw [hreg, commit_i2cTick_slots_stay rfl rfl rfl (by simp [hst])]
    simp [hst]
  · intro hv hfull
    simp [hreg, commit_i2cTick_dual hv, hst, hfull]

/-- Settles O13: the BUSY branch does not read the start, and the next edge is one of an IDLE instance. -/
theorem startInBusyHasNoEffect : Obligations.StartInBusyHasNoEffect := by
  intro s k x i h hst
  obtain ⟨t, u, y, z, ht, hu, hy, hz, -, hreg, htrace, -, -, hparams, -⟩ :=
    exec_i2cOp_congr { i with start := true } { i with start := false } h
      (i2cTick_start_of_busy (i := i.atWidth x.params) hst true false)
  refine ⟨t, u, y, z, ht, hu, hy.1, hz, hreg, htrace, fun hidle => ?_⟩
  obtain ⟨v, w, hv, ⟨hw, -, -⟩, hreg', -⟩ := exec_i2cOp_of_restI2c { i with start := true } hy
  refine ⟨v, w, hv, hw, ?_⟩
  rw [hreg', ← hparams]
  exact commit_i2cTick_start hidle rfl

/-- Settles O14: step 5 fills the slot, and an EMPTY slot has nothing to consume. -/
theorem inWriteFillsTheEmptySlot : Obligations.InWriteFillsTheEmptySlot := by
  intro s k x ore pub ack a b h hv hempty ha
  obtain ⟨t, y, ht, ⟨hy, -, -⟩, hreg, htrace, hframe⟩ := exec_i2cOp_of_restI2c ⟨false, true, ore, pub, ack, a, b⟩ h
  rw [commit_i2cTick_dual hv] at hreg
  refine ⟨t, y, ht, hy, ?_, ?_, ?_, ?_, ?_, hframe⟩
  · simp [hreg, hempty]
  · simp [hreg, hempty, lowBits_of_lt ha]
  · simp [hreg, hempty]
  · simp [htrace, appendConsumed_i2cTick, hv, hempty]
  · rintro hst rfl rfl
    simp [hreg, hst, hempty, lowBits_of_lt ha]

/-- Settles O15: step 5 does not read the request of a FULL slot. -/
theorem inWriteIntoFullSlotIsDropped : Obligations.InWriteIntoFullSlotIsDropped := by
  intro s k x ore pub ack a b h hv hfull
  obtain ⟨t, u, y, z, ht, hu, ⟨hy, -, -⟩, hz, hedge, hreg, htrace, hframe⟩ :=
    exec_i2cOp_congr ⟨false, true, ore, pub, ack, a, b⟩ ⟨false, false, ore, pub, ack, a, b⟩ h
      (i2cTick_inWe_of_full (i := I2CIn.atWidth x.params ⟨false, true, ore, pub, ack, a, b⟩) (by simp [hv, hfull])
        true false)
  refine ⟨t, u, y, z, ht, hu, hy, hz, hreg, htrace, ?_, hframe⟩
  simp [hedge, commit_i2cTick_dual hv, hfull]

/-- Settles O16: step 2 empties the slot; step 3 comes after it. -/
theorem outReadEmptiesTheFullSlot : Obligations.OutReadEmptiesTheFullSlot := by
  intro s k x pub ack a b h hv hfull hb
  obtain ⟨t, y, ht, ⟨hy, -, -⟩, hreg, htrace, hframe⟩ := exec_i2cOp_of_restI2c ⟨false, false, true, pub, ack, a, b⟩ h
  rw [commit_i2cTick_dual hv] at hreg
  refine ⟨t, y, ht, hy, ?_, ?_, ?_, ?_, hframe⟩
  · simp [hreg, hfull]
  · simp [hreg, hfull]
  · simp [hreg, lowBits_of_lt hb]
  · rintro hst rfl
    exact ⟨by simp [hreg, hst, hfull], by simp [htrace, appendConsumed_i2cTick, hst]⟩

/-- Settles O17: step 2 does not read the request of an EMPTY slot. -/
theorem outReadOfEmptySlotHasNoEffect : Obligations.OutReadOfEmptySlotHasNoEffect := by
  intro s k x i h hv hempty
  obtain ⟨t, u, y, z, ht, hu, ⟨hy, -, -⟩, hz, -, hreg, htrace, -⟩ :=
    exec_i2cOp_congr { i with outRe := true } { i with outRe := false } h
      (i2cTick_outRe_of_empty (i := i.atWidth x.params) (by simp [hv, hempty]) true false)
  exact ⟨t, u, y, z, ht, hu, hy, hz, hreg, htrace⟩

/-- Settles O18: step 3 has no guard. -/
theorem publishLoadsTheOutboundSlot : Obligations.PublishLoadsTheOutboundSlot := by
  intro s k x ack a b h hv hb
  obtain ⟨t, y, ht, ⟨hy, -, -⟩, hreg, htrace, hframe⟩ := exec_i2cOp_of_restI2c ⟨false, false, false, true, ack, a, b⟩ h
  rw [commit_i2cTick_dual hv] at hreg
  refine ⟨t, y, ht, hy, ?_, ?_, ?_, fun hst => ⟨?_, ?_⟩, hframe⟩
  · simp [hreg]
  · simp [hreg]
  · simp [hreg, lowBits_of_lt hb]
  · simp [hreg, hst, lowBits_of_lt hb]
  · simp [htrace, appendConsumed_i2cTick, hst]

/-! ### A line with no request -/

/-- Settles O19: the countdown is re-armed before it is decremented (R167, R168). -/
theorem busyTickConsumesTheWaitingItem : Obligations.BusyTickConsumesTheWaitingItem := by
  intro s k x ack a b h hst hfull
  obtain ⟨t, y, ht, ⟨hy, -, -⟩, hreg, htrace, hframe⟩ := exec_i2cOp_of_restI2c ⟨false, false, false, false, ack, a, b⟩ h
  have hleft : x.reg.left x.params = x.params.timeout - 1 := by simp [I2CReg.left, i2cRearmed, hfull]
  refine ⟨t, y, ht, hy, ?_, ?_, ?_, ?_, ?_, ?_, hframe⟩
  · rw [hreg, commit_i2cTick_cnt, if_pos hst, hleft]
  · rw [hreg]
    cases hv : x.params.variant with
    | dual => simp_all [commit_i2cTick_dual hv]
    | single => simp_all [commit_i2cTick_single hv]
  · rw [htrace, appendConsumed_i2cTick, if_pos ⟨hst, hfull⟩]
  · intro htwo hv
    have hgoing : ¬x.params.timeout - 1 = 0 := by omega
    rw [hv, I2CReg.inboundFull_dual] at hfull
    simp [hreg, commit_i2cTick_dual hv, hst, hfull, hleft, hgoing]
  · intro htwo hv
    have hgoing : ¬x.params.timeout - 1 = 0 := by omega
    rw [hv, I2CReg.inboundFull_single] at hfull
    simp [hreg, commit_i2cTick_single hv, hst, hfull, hleft, hgoing]
  · intro hone
    simp [hreg, commit_i2cTick_st, commit_i2cTick_busy, hst, hleft, hone]

/-- Settles O20: the countdown stands as it was before its decrement. -/
theorem busyTickCountsDownAndExpires : Obligations.BusyTickCountsDownAndExpires := by
  intro s k x ack a b h hst hempty hcnt
  obtain ⟨t, y, ht, ⟨hy, -, -⟩, hreg, htrace, hframe⟩ := exec_i2cOp_of_restI2c ⟨false, false, false, false, ack, a, b⟩ h
  have hleft : x.reg.left x.params = x.reg.cnt - 1 := by simp [I2CReg.left, i2cRearmed, hempty]
  refine ⟨t, y, ht, hy, by simp [htrace, appendConsumed_i2cTick, hempty], ?_, hframe⟩
  rw [hreg, commit_i2cTick_slots_stay rfl rfl rfl (by simp [hempty]), hleft]
  by_cases hone : x.reg.cnt = 1
  · simp [hst, hone]
  · have hgoing : ¬x.reg.cnt - 1 = 0 := by omega
    simp [hst, hone, hgoing]

/-- A control vector is I2C.TICK where it requests nothing (30_encoding.md R111). -/
theorem I2CIn.op_eq_tick {k : Nat} {ack : Bool} {a b : Nat} (h : i.op k = .i2cTick k ack a b) :
    i.start = false ∧ i.inWe = false ∧ i.outRe = false ∧ i.outPub = false := by
  unfold I2CIn.op at h
  split at h
  · cases h
  split at h
  · cases h
  split at h
  · cases h
  split at h
  · cases h
  simp_all

/-- Settles O21: step 1 has no guard, and in IDLE it is the only one that runs without a request. -/
theorem ackIsRetimedByOneEdge : Obligations.AckIsRetimedByOneEdge := by
  intro s k x i h
  obtain ⟨t, y, ht, ⟨hy, -, -⟩, hreg, htrace, hframe⟩ := exec_i2cOp_of_restI2c i h
  refine ⟨t, y, ht, hy, hreg ▸ commit_i2cTick_ackOut, fun hst hop => ⟨?_, ?_⟩, hframe⟩
  · obtain ⟨hstart, hwe, hre, hpub⟩ := I2CIn.op_eq_tick hop
    rw [hreg, commit_i2cTick_slots_stay (i := i.atWidth x.params) hwe hre hpub (by simp [hst])]
    simp [hst, hstart, I2CIn.atWidth]
  · simp [htrace, appendConsumed_i2cTick, hst]

/-! ### Every register -/

/-- Settles O22: countdown, busy and state do not read the outbound requests, nor the outbound slot the transaction. -/
theorem outboundSlotIsIndependentOfTheTransaction : Obligations.OutboundSlotIsIndependentOfTheTransaction := by
  intro s k x i h hv
  obtain ⟨t, y, ht, ⟨hy, -, -⟩, hreg, -⟩ := exec_i2cOp_of_restI2c i h
  obtain ⟨u, z, hu, ⟨hz, -, -⟩, hreg', -⟩ := exec_i2cOp_of_restI2c { i with outRe := false, outPub := false } h
  refine ⟨t, u, y, z, ht, hu, hy, hz, ?_, ?_, ?_, fun s' x' h' hparams hfull hdata hready => ?_⟩
  · rw [hreg, hreg', commit_i2cTick_cnt, commit_i2cTick_cnt]; rfl
  · rw [hreg, hreg', commit_i2cTick_busy, commit_i2cTick_busy]; rfl
  · rw [hreg, hreg', commit_i2cTick_st, commit_i2cTick_st]; rfl
  · obtain ⟨t', y', ht', ⟨hy', -, -⟩, hreg'', -⟩ := exec_i2cOp_of_restI2c i h'
    rw [hparams, commit_i2cTick_dual hv, hfull, hdata, hready] at hreg''
    rw [commit_i2cTick_dual hv] at hreg
    exact ⟨t', y', ht', hy', by rw [hreg, hreg''], by rw [hreg, hreg''], by rw [hreg, hreg'']⟩

/-- Settles O23: the closed form of a DUAL tick, with the data ports' values at their widths. -/
theorem dualEdgeGivesEveryRegister : Obligations.DualEdgeGivesEveryRegister := by
  intro s k x i h hv _ hin hout busy left
  obtain ⟨t, y, ht, ⟨hy, -, -⟩, hreg, htrace, hframe⟩ := exec_i2cOp_of_restI2c i h
  rw [I2CIn.atWidth_of_lt hin hout] at hreg htrace
  have hleft : x.reg.left x.params = left := by
    simp only [I2CReg.left, i2cRearmed, hv, I2CReg.inboundFull_dual, left]; split <;> rfl
  refine ⟨t, y, ht, hy, ?_, ?_, hframe⟩
  · simp [hreg, commit_i2cTick_dual hv, hleft, busy]
  · simp [htrace, appendConsumed_i2cTick, hv, busy]

/-- Settles O24: the closed form of a SINGLE tick, and the ports that mirror the slot. -/
theorem singleEdgeGivesEveryRegister : Obligations.SingleEdgeGivesEveryRegister := by
  intro s k x i h hv _ hin hout busy left
  obtain ⟨t, y, ht, ⟨hy, -, -⟩, hreg, htrace, hframe⟩ := exec_i2cOp_of_restI2c i h
  rw [I2CIn.atWidth_of_lt hin hout] at hreg htrace
  have hleft : x.reg.left x.params = left := by
    simp only [I2CReg.left, i2cRearmed, hv, I2CReg.inboundFull_single, left]; split <;> rfl
  have ⟨_, _, hparams, _⟩ := hframe
  refine ⟨t, y, ht, hy, ?_, ?_, ?_, ?_, ?_, hframe⟩
  · simp [hreg, commit_i2cTick_single hv, hleft, busy]
  · simp [htrace, appendConsumed_i2cTick, hv, busy]
  · cases hf : y.reg.full <;> simp [State.output, hy, I2CInst.output, hparams, hv, I2CReg.inReadyPort, hf]
  · cases hf : y.reg.full <;> simp [State.output, hy, I2CInst.output, hparams, hv, I2CReg.outReadyPort, hf]
  · simp [State.output, hy, I2CInst.output, hparams, hv, I2CReg.outDataPort]

/-- Settles O25: the rows read off the closed form of a SINGLE tick. -/
theorem singleSlotContentionOutcomes : Obligations.SingleSlotContentionOutcomes := by
  intro s k x i h hv hin hout
  obtain ⟨t, y, ht, ⟨hy, -, -⟩, hreg, htrace, -⟩ := exec_i2cOp_of_restI2c i h
  rw [I2CIn.atWidth_of_lt hin hout, commit_i2cTick_single hv] at hreg
  rw [appendConsumed_i2cTick] at htrace
  refine ⟨t, y, ht, hy, fun hfull hst _ _ => ?_, fun hfull hst hpub => ?_, fun hfull hst hpub _ => ?_,
    fun hempty _ hwe => ?_, fun hfull hst _ hpub => ?_⟩
  · simp [hreg, htrace, hv, hfull, hst]
  · simp [hreg, htrace, hv, hfull, hst, hpub]
  · simp [hreg, hfull, hst, hpub]
  · simp [hreg, hempty, hwe]
  · simp [hreg, hfull, hst, hpub]

/-! ### The timeout bound (R177) -/

/-- A BUSY instance over at most as many edges as its countdown, its inbound slot EMPTY before each: busy falls when the
countdown is used up. -/
theorem busy_after_empty_edges {s : State} {k : Nat} {x : I2CInst} {is : List I2CIn} (h : s.restI2c k x)
    (hst : x.reg.st = .busy) (hbusy : x.reg.busy = true) (hcnt : 1 ≤ x.reg.cnt) (hlen : is.length ≤ x.reg.cnt)
    (hempty : ∀ m, m < is.length → ∀ u y, execAll ((is.take m).map (I2CIn.op k)) s = .next u → u.i2cs[k]? = some y →
      y.reg.inboundFull x.params.variant = false) :
    ∃ t y, execAll (is.map (I2CIn.op k)) s = .next t ∧ t.i2cs[k]? = some y ∧
      y.reg.busy = decide (is.length < x.reg.cnt) := by
  induction is generalizing s x with
  | nil => exact ⟨s, x, rfl, h.1, by simpa [hbusy] using Nat.lt_of_succ_le hcnt⟩
  | cons i is ih =>
    obtain ⟨t, y, ht, hy, hreg, -, hrun, -, hparams, -⟩ := exec_i2cOp_of_restI2c i h
    have hfirst : x.reg.inboundFull x.params.variant = false := hempty 0 (Nat.succ_pos _) s x rfl h.1
    have hleft : x.reg.left x.params = x.reg.cnt - 1 := by simp [I2CReg.left, i2cRearmed, hfirst]
    have hycnt : y.reg.cnt = x.reg.cnt - 1 := by rw [hreg, commit_i2cTick_cnt, if_pos hst, hleft]
    have hyst : y.reg.st = if x.reg.cnt - 1 = 0 then .idle else .busy := by
      rw [hreg, commit_i2cTick_st, if_pos hst, hleft]
    have hybusy : y.reg.busy = if x.reg.cnt - 1 = 0 then false else x.reg.busy := by
      rw [hreg, commit_i2cTick_busy, if_pos hst, hleft]
    rw [List.length_cons] at hlen
    rw [List.map_cons, execAll_cons ht hrun]
    by_cases hexpires : x.reg.cnt - 1 = 0
    · obtain rfl : is = [] := List.eq_nil_of_length_eq_zero (by omega)
      exact ⟨t, y, rfl, hy.1, by simp [hybusy, hexpires]; omega⟩
    · obtain ⟨u, z, hu, hz, hzbusy⟩ := ih hy (by simp [hyst, hexpires]) (by simp [hybusy, hexpires, hbusy]) (by omega)
        (by omega) fun m hm u z hu hz => by
          rw [hparams]
          refine hempty (m + 1) (Nat.succ_lt_succ hm) u z ?_ hz
          rw [List.take_succ_cons, List.map_cons, execAll_cons ht hrun]
          exact hu
      refine ⟨u, z, hu, hz, ?_⟩
      rw [hzbusy, hycnt, List.length_cons]
      exact decide_eq_decide.mpr (by omega)

/-- Settles O26: the start arms the countdown at the timeout, and an edge with an EMPTY slot counts it down by one. -/
theorem busyLastsExactlyTheTimeout : Obligations.BusyLastsExactlyTheTimeout := by
  intro s k x i is h hst hs hlen hempty
  obtain ⟨t, y, ht, hy, hreg, -, hrun, -, hparams, -⟩ := exec_i2cOp_of_restI2c i h
  obtain ⟨hyst, hybusy, hycnt⟩ := commit_i2cTick_start (q := x.params) (i := i.atWidth x.params) hst hs
  rw [← hreg] at hyst hybusy hycnt
  rw [List.map_cons, execAll_cons ht hrun, ← hycnt]
  refine busy_after_empty_edges hy hyst hybusy (hycnt ▸ h.timeout_pos) (hycnt ▸ hlen) fun m hm u z hu hz => ?_
  rw [hparams]
  refine hempty m hm u z ?_ hz
  rw [List.map_cons, execAll_cons ht hrun]
  exact hu

/-! ### The trace at a commit -/

/-- Settles O48: the check finds nothing, and the commit appends the pending event. -/
theorem commitAppendsTheConsumedItem : Obligations.CommitAppendsTheConsumedItem := by
  intro s k x hn hx hcheck
  refine ⟨_, x.commit, exec_hostCommit hn (by simp [State.cd?, hx]) hcheck,
    by simp [State.committed_i2c, hx, Scope.has], fun v hv => ?_, fun hnone => ?_⟩
  · simp [appendConsumed, hv]
  · simp [appendConsumed, hnone]

end Sys2Proof.Machine
end

section
/-! PROOF. What one edge does to the registers of an LR instance (42_spinor_linear_reader.md R201): one equation for
each branch of the tick rule, and where the registers stand along a session. -/

namespace Sys2Proof.Machine

variable {m : Memory} {q : LRParams} {c : LRReg} {i : LRIn}

/-! ### The branches of the tick rule -/

/-- In IDLE an edge without a start changes nothing. -/
theorem commit_lrTick_idle (hst : c.st = .idle) (hs : i.start = false) : c.commit (lrTick m q c i) = c := by
  simp [lrTick, hst, lrStepStart, hs]

/-- A start at an address in the window (R206). -/
theorem commit_lrTick_start_in (hst : c.st = .idle) (hs : i.start = true) (hw : m.inWindow i.addr = true) :
    c.commit (lrTick m q c i) =
      { c with addr := i.addr, rem := i.len, busy := true, st := .reading, cnt := q.pacing } := by
  simp [lrTick, hst, lrStepStart, hs, hw, LRReg.commit]

/-- A start at an address out of the window (R207). -/
theorem commit_lrTick_start_out (hst : c.st = .idle) (hs : i.start = true) (hw : m.inWindow i.addr = false) :
    c.commit (lrTick m q c i) = { c with addr := i.addr, rem := i.len } := by
  simp [lrTick, lrStepStart, hs, hw, LRReg.commit, hst]

/-- The READING branch reads no input (R208). -/
theorem lrTick_of_reading (hst : c.st = .reading) (i : LRIn) : lrTick m q c i = lrStepRead m q c {} := by
  rw [lrTick, hst]

/-- The countdown (R203). -/
theorem commit_lrTick_count (hst : c.st = .reading) (hcnt : c.cnt ≠ 0) :
    c.commit (lrTick m q c i) = { c with valid := false, cnt := c.cnt - 1 } := by
  simp [lrTick_of_reading hst, lrStepRead, hcnt, LRReg.commit]

/-- The end of the session (R204). -/
theorem commit_lrTick_end (hst : c.st = .reading) (hcnt : c.cnt = 0) (hrem : c.rem = 0) :
    c.commit (lrTick m q c i) = { c with valid := false, busy := false, st := .idle } := by
  simp [lrTick_of_reading hst, lrStepRead, lrStepEnd, hcnt, hrem, LRReg.commit]

/-- The emission of the byte at the committed address (R205). -/
theorem commit_lrTick_emit (hst : c.st = .reading) (hcnt : c.cnt = 0) (hrem : c.rem ≠ 0) :
    c.commit (lrTick m q c i) =
      { c with
        data := lrByte m q c.addr
        valid := true
        addr := (c.addr + 1) % 2 ^ q.aw
        rem := c.rem - 1
        cnt := q.pacing } := by
  simp [lrTick_of_reading hst, lrStepRead, lrStepEmit, hcnt, hrem, LRReg.commit]

/-! ### Along a session (R212) -/

/-- In a session of `n` bytes from address `a`, `j` bytes have been emitted, the last of them (or the start) `r` edges
ago. -/
structure LRReg.Emitted (m : Memory) (q : LRParams) (a n j r : Nat) (c : LRReg) : Prop where
  st : c.st = .reading
  busy : c.busy = true
  addr : c.addr = (a + j) % 2 ^ q.aw
  rem : j + c.rem = n
  cnt : r + c.cnt = q.pacing
  valid : c.valid = true ↔ r = 0 ∧ j ≠ 0
  data : ∀ b, r = 0 → j = b + 1 → c.data = lrByte m q ((a + b) % 2 ^ q.aw)

/-- The registers `e` edges after the start of a session of `n` bytes from address `a`: each byte takes the pacing plus
one edges, and so does the end after the last. -/
def LRReg.InSession (m : Memory) (q : LRParams) (a n e : Nat) (c : LRReg) : Prop :=
  (∃ j r, e = j * (q.pacing + 1) + r ∧ c.Emitted m q a n j r) ∨
    (e = (n + 1) * (q.pacing + 1) ∧ c.busy = false ∧ c.valid = false)

variable {a n j r e : Nat}

/-- An edge with a countdown left counts (R203). -/
theorem LRReg.Emitted.count (h : c.Emitted m q a n j r) (hcnt : c.cnt ≠ 0) (i : LRIn) :
    (c.commit (lrTick m q c i)).Emitted m q a n j (r + 1) := by
  rw [commit_lrTick_count h.st hcnt]
  have hpacing := h.cnt
  exact ⟨h.st, h.busy, h.addr, h.rem, show r + 1 + (c.cnt - 1) = q.pacing by omega, by simp, by simp⟩

/-- An edge with none left, and bytes left, emits the next byte (R205, R210). -/
theorem LRReg.Emitted.emit (h : c.Emitted m q a n j r) (hcnt : c.cnt = 0) (hrem : c.rem ≠ 0) (i : LRIn) :
    (c.commit (lrTick m q c i)).Emitted m q a n (j + 1) 0 := by
  rw [commit_lrTick_emit h.st hcnt hrem]
  have hleft := h.rem
  refine ⟨h.st, h.busy, ?_, show j + 1 + (c.rem - 1) = n by omega, Nat.zero_add _, by simp, fun b _ hb => ?_⟩
  · simp [h.addr, Nat.add_assoc]
  · obtain rfl : j = b := Nat.succ_injective hb
    exact congrArg (lrByte m q) h.addr

/-- An edge before the session's last carries on with it, whatever the inputs. -/
theorem LRReg.InSession.tick (h : c.InSession m q a n e) (he : e < (n + 1) * (q.pacing + 1)) (i : LRIn) :
    (c.commit (lrTick m q c i)).InSession m q a n (e + 1) := by
  obtain ⟨j, r, rfl, h⟩ | ⟨rfl, -⟩ := h
  · by_cases hcnt : c.cnt = 0
    · have hr : r = q.pacing := by simpa [hcnt] using h.cnt
      have hnext : j * (q.pacing + 1) + r + 1 = (j + 1) * (q.pacing + 1) := by rw [hr, Nat.succ_mul]; rfl
      by_cases hrem : c.rem = 0
      · obtain rfl : j = n := by simpa [hrem] using h.rem
        rw [commit_lrTick_end h.st hcnt hrem]
        exact .inr ⟨hnext, rfl, rfl⟩
      · exact .inl ⟨j + 1, 0, hnext, h.emit hcnt hrem i⟩
    · exact .inl ⟨j, r + 1, rfl, h.count hcnt i⟩
  · exact absurd he (lt_irrefl _)

/-- A start in the window, with no valid pulse standing, is edge 0 of its session. -/
theorem LRReg.InSession.start (hst : c.st = .idle) (hv : c.valid = false) (hs : i.start = true)
    (hw : m.inWindow i.addr = true) (ha : i.addr < 2 ^ q.aw) :
    (c.commit (lrTick m q c i)).InSession m q i.addr i.len 0 := by
  rw [commit_lrTick_start_in hst hs hw]
  exact .inl ⟨0, 0, by simp, rfl, rfl, (Nat.mod_eq_of_lt ha).symm, Nat.zero_add _, Nat.zero_add _, by simp [hv],
    fun b _ hb => by simp at hb⟩

/-- A number of full periods and a rest below the period. -/
theorem mul_add_eq_mul_iff {p b : Nat} (hr : r < p) : j * p + r = b * p ↔ r = 0 ∧ j = b := by
  refine ⟨fun h => ?_, fun ⟨hr0, hj⟩ => by rw [hr0, hj, Nat.add_zero]⟩
  have hr0 : r = 0 := by simpa [Nat.mul_add_mod', Nat.mod_eq_of_lt hr] using congrArg (· % p) h
  exact ⟨hr0, Nat.eq_of_mul_eq_mul_right (Nat.zero_lt_of_lt hr) (by simpa [hr0] using h)⟩

/-- Edges of a session that has not ended are before its last. -/
theorem LRReg.Emitted.lt_last (h : c.Emitted m q a n j r) : j * (q.pacing + 1) + r < (n + 1) * (q.pacing + 1) := by
  have hr := h.cnt
  have hj := h.rem
  calc j * (q.pacing + 1) + r < (j + 1) * (q.pacing + 1) := by rw [Nat.succ_mul]; omega
    _ ≤ (n + 1) * (q.pacing + 1) := Nat.mul_le_mul_right _ (by omega)

theorem LRReg.InSession.busy_eq (h : c.InSession m q a n e) : c.busy = decide (e < (n + 1) * (q.pacing + 1)) := by
  obtain ⟨j, r, rfl, h⟩ | ⟨rfl, hbusy, -⟩ := h
  · simpa [h.busy] using h.lt_last
  · simpa using hbusy

/-- An edge is the emission of the byte `b` exactly where `b + 1` bytes have been emitted, the last of them just now. -/
theorem LRReg.Emitted.at_emission_iff (h : c.Emitted m q a n j r) (b : Nat) :
    j * (q.pacing + 1) + r = (b + 1) * (q.pacing + 1) ↔ r = 0 ∧ j = b + 1 :=
  mul_add_eq_mul_iff (Nat.lt_succ_of_le (h.cnt ▸ Nat.le_add_right r c.cnt))

/-- The session's last edge is no emission. -/
theorem LRParams.last_ne_emission (q : LRParams) {b : Nat} (hb : b < n) :
    (n + 1) * (q.pacing + 1) ≠ (b + 1) * (q.pacing + 1) :=
  ((Nat.mul_lt_mul_right (Nat.succ_pos _)).mpr (Nat.succ_lt_succ hb)).ne'

theorem LRReg.InSession.valid_iff (h : c.InSession m q a n e) :
    c.valid = true ↔ ∃ b, b < n ∧ e = (b + 1) * (q.pacing + 1) := by
  obtain ⟨j, r, rfl, h⟩ | ⟨rfl, -, hvalid⟩ := h
  · have hj := h.rem
    simp only [h.valid, h.at_emission_iff]
    constructor
    · rintro ⟨hr, hpos⟩
      exact ⟨j - 1, by omega, hr, by omega⟩
    · rintro ⟨b, -, hr, rfl⟩
      exact ⟨hr, Nat.succ_ne_zero b⟩
  · refine iff_of_false (by simp [hvalid]) ?_
    rintro ⟨b, hb, he⟩
    exact q.last_ne_emission hb he

theorem LRReg.InSession.data_eq {b : Nat} (h : c.InSession m q a n e) (hb : b < n)
    (he : e = (b + 1) * (q.pacing + 1)) : c.data = lrByte m q ((a + b) % 2 ^ q.aw) := by
  obtain ⟨j, r, rfl, h⟩ | ⟨rfl, -⟩ := h
  · obtain ⟨hr, hj⟩ := (h.at_emission_iff b).mp he
    exact h.data b hr hj
  · exact absurd he (q.last_ne_emission hb)

end Sys2Proof.Machine
end

section
/-! PROOF. The SPI-NOR linear reader (42_spinor_linear_reader.md): a line from rest is one edge of its tick rule, and a
sequence of lines goes through a session edge by edge. -/

namespace Sys2Proof.Machine

variable {s : State} {k : Nat} {x : LRInst}

/-! ### One line from rest -/

theorem LRIn.atWidth_of_lt {q : LRParams} {i : LRIn} (ha : i.addr < 2 ^ q.aw) (hn : i.len < 2 ^ q.lw) :
    i.atWidth q = i := by
  rw [LRIn.atWidth, lowBits_of_lt ha, lowBits_of_lt hn]

/-- One edge of an unwired reader at rest: the tick rule on the line's inputs, and rest again. -/
theorem exec_lrOp_of_restLr (i : LRIn) (h : s.restLr k x) :
    ∃ t y, exec (i.op k) s = .next t ∧ t.restLr k y ∧
      y.reg = x.reg.commit (lrTick s.mem x.params x.reg (i.atWidth x.params)) ∧ s.lrFrame t x y := by
  obtain ⟨hx, hr, hw⟩ := h
  have hinput : (s.setLrIn k i).lrInputs k { x with inp := i } = i.atWidth x.params := State.lrInputs_unwired hw
  have hy : ((s.setLrIn k i).ticked x.cd.domain).lrs[k]? =
      some ({ x with inp := i }.tick s.mem (i.atWidth x.params)) := by
    simp [State.ticked_lr, State.setLrIn_lr, hx, hinput]
  exact ⟨_, _, (exec_lrOp i).trans (lrLine_of_ready i hx hr), ⟨hy, State.ready_ticked (State.ready_setLrIn hr), hw⟩,
    rfl, (State.of_ready hr).1, State.sameOutside_lr hx rfl, rfl, rfl, rfl, rfl⟩

/-- The same with operands at their widths. -/
theorem exec_lrOp_of_fits {i : LRIn} (ha : i.addr < 2 ^ x.params.aw) (hn : i.len < 2 ^ x.params.lw)
    (h : s.restLr k x) :
    ∃ t y, exec (i.op k) s = .next t ∧ t.restLr k y ∧
      y.reg = x.reg.commit (lrTick s.mem x.params x.reg i) ∧ s.lrFrame t x y := by
  have hline := exec_lrOp_of_restLr i h
  rwa [LRIn.atWidth_of_lt ha hn] at hline

/-! ### The operations -/

/-- Settles O27: the start branch in the window. -/
theorem readerStartInWindowOpensASession : Obligations.ReaderStartInWindowOpensASession := by
  intro s k x a n h hst ha hn hlow hhigh
  obtain ⟨t, y, ht, ⟨hy, -, -⟩, hreg, hframe⟩ := exec_lrOp_of_fits (i := ⟨true, a, n⟩) ha hn h
  have hw : s.mem.inWindow a = true := (s.mem.inWindow_iff a).mpr ⟨hlow, hhigh⟩
  exact ⟨t, y, ht, hy, hreg.trans (commit_lrTick_start_in hst rfl hw), hframe⟩

/-- Settles O28: the start branch out of the window. -/
theorem readerStartOutOfWindowStaysIdle : Obligations.ReaderStartOutOfWindowStaysIdle := by
  intro s k x a n h hst ha hn hout
  obtain ⟨t, y, ht, ⟨hy, -, -⟩, hreg, hframe⟩ := exec_lrOp_of_fits (i := ⟨true, a, n⟩) ha hn h
  have hw : s.mem.inWindow a = false := by
    rw [Bool.eq_false_iff, Ne, Memory.inWindow_iff]
    omega
  exact ⟨t, y, ht, hy, hreg.trans (commit_lrTick_start_out hst rfl hw), hframe⟩

/-- Settles O29: the READING branch reads no input, and the next edge is one of an IDLE reader. -/
theorem readerStartWhileReadingHasNoEffect : Obligations.ReaderStartWhileReadingHasNoEffect := by
  intro s k x a n a' n' h hst ha hn
  obtain ⟨t, y, ht, hrest, hreg, hframe⟩ := exec_lrOp_of_restLr ⟨true, a, n⟩ h
  obtain ⟨u, z, hu, ⟨hz, -, -⟩, hreg', -⟩ := exec_lrOp_of_restLr ⟨false, a', n'⟩ h
  have ⟨_, ⟨_, hmem, _⟩, hparams, _⟩ := hframe
  refine ⟨t, u, y, z, ht, hu, hrest.1, hz, ?_, hframe, fun hidle hin => ?_⟩
  · rw [hreg, hreg', lrTick_of_reading hst, lrTick_of_reading hst]
  · rw [← hparams] at ha hn ⊢
    obtain ⟨v, w, hv, ⟨hw, -, -⟩, hreg'', -⟩ := exec_lrOp_of_fits (i := ⟨true, a, n⟩) ha hn hrest
    exact ⟨v, w, hv, hw, hreg''.trans (commit_lrTick_start_in hidle rfl (hmem ▸ hin))⟩

/-- Settles O30: the branches of an edge without a start, each its own equation. -/
theorem readerTickCountsEmitsAndEnds : Obligations.ReaderTickCountsEmitsAndEnds := by
  intro s k x a n h
  obtain ⟨t, y, ht, ⟨hy, -, -⟩, hreg, hframe⟩ := exec_lrOp_of_restLr ⟨false, a, n⟩ h
  refine ⟨t, y, ht, hy, hframe, fun hst => hreg.trans (commit_lrTick_idle hst rfl),
    fun hst hcnt => hreg.trans (commit_lrTick_count hst hcnt),
    fun hst hcnt hrem => hreg.trans (commit_lrTick_end hst hcnt hrem), fun hst hcnt hrem => ?_⟩
  rw [hreg, commit_lrTick_emit hst hcnt hrem, lrByte]
  cases s.mem.read x.reg.addr <;> rfl

/-! ### A session -/

/-- Lines to a reader in a session, at most up to the session's last edge, go through the session. -/
theorem inSession_after_lines {a n e : Nat} {is : List LRIn} (h : s.restLr k x)
    (hsession : x.reg.InSession s.mem x.params a n e) (hlen : e + is.length ≤ (n + 1) * (x.params.pacing + 1)) :
    ∃ t y, execAll (is.map (LRIn.op k)) s = .next t ∧ t.lrs[k]? = some y ∧
      y.reg.InSession s.mem x.params a n (e + is.length) := by
  induction is generalizing s x e with
  | nil => exact ⟨s, x, rfl, h.1, hsession⟩
  | cons i is ih =>
    obtain ⟨t, y, ht, hrest, hreg, hrun, ⟨-, hmem, -⟩, hparams, -⟩ := exec_lrOp_of_restLr i h
    rw [List.length_cons, ← Nat.add_assoc, Nat.add_right_comm] at hlen ⊢
    rw [List.map_cons, execAll_cons ht hrun]
    have hnext := hsession.tick (by omega) (i.atWidth x.params)
    rw [← hreg] at hnext
    rw [← hmem, ← hparams] at hnext ⊢
    exact ih hrest hnext (by rwa [hparams])

/-- Settles O31: the start opens the session, the other lines go through it, and the session says what stands at each
edge. -/
theorem readerSessionTiming : Obligations.ReaderSessionTiming := by
  intro s k x i is h hst hv hs ha hn hw hlen
  obtain ⟨t, y, ht, hrest, hreg, hrun, ⟨-, hmem, -⟩, hparams, -⟩ := exec_lrOp_of_fits ha hn h
  have hstart := LRReg.InSession.start (q := x.params) hst hv hs hw ha
  rw [← hreg, ← hmem, ← hparams] at hstart
  obtain ⟨u, z, hu, hz, hsession⟩ := inSession_after_lines (is := is) hrest hstart (by rwa [hparams, Nat.zero_add])
  rw [hmem, hparams, Nat.zero_add] at hsession
  refine ⟨u, z, ?_, hz, hsession.busy_eq, hsession.valid_iff, fun j hj he => hsession.data_eq hj he⟩
  rw [List.map_cons, execAll_cons ht hrun, hu]

end Sys2Proof.Machine
end

section
/-! PROOF. What one edge does to the registers of a BS instance (43_spinor_bitserial.md R221): one equation for each
state of the transition table R222, and what a sequence of edges does by steps. -/

namespace Sys2Proof.Machine

variable {m : Memory} {q : BSParams} {c : BSReg} {i : BSIn}

/-! ### The two kinds of edges -/

/-- The registers after an edge with no READ action that ends in the state `st`: the edge counter and the shift register
move on while selected (R230, R231), and serial-out is 0. -/
@[simps] def BSReg.moved (q : BSParams) (i : BSIn) (st : BSSt) (c : BSReg) : BSReg where
  st := st
  ec := if i.cs then c.ec + 1 else 0
  sr := if i.cs then nextShift q c.sr i.si else c.sr
  raddr := c.raddr
  bidx := c.bidx
  so := false

/-- The registers after an edge with the READ action at bit `b` of address `a` (R228, R233, R237). -/
def BSReg.readAt (m : Memory) (q : BSParams) (i : BSIn) (a b : Nat) (c : BSReg) : BSReg :=
  match m.read a with
  | some byte =>
    { c.moved q i (if i.cs then .reading else .idle) with
      so := bsBit byte b, raddr := nextRaddr q a b, bidx := nextBidx b }
  | none => { c.moved q i (if i.cs then .reading else .idle) with so := q.fillBit, raddr := a, bidx := b }

section ReadAt

variable {a b : Nat}

/-- A byte in the window: its bit, and an advance. -/
theorem BSReg.readAt_some {byte : Byte} (h : m.read a = some byte) : c.readAt m q i a b =
    { c.moved q i (if i.cs then .reading else .idle) with
      so := bsBit byte b, raddr := nextRaddr q a b, bidx := nextBidx b } := by
  simp only [BSReg.readAt, h]

/-- No byte: the fill bit, and no advance. -/
theorem BSReg.readAt_none (h : m.read a = none) : c.readAt m q i a b =
    { c.moved q i (if i.cs then .reading else .idle) with so := q.fillBit, raddr := a, bidx := b } := by
  simp only [BSReg.readAt, h]

@[simp] theorem BSReg.readAt_st : (c.readAt m q i a b).st = if i.cs then .reading else .idle := by
  cases h : m.read a <;> simp [BSReg.readAt, h]

@[simp] theorem BSReg.readAt_ec : (c.readAt m q i a b).ec = if i.cs then c.ec + 1 else 0 := by
  cases h : m.read a <;> simp [BSReg.readAt, h]

@[simp] theorem BSReg.readAt_sr : (c.readAt m q i a b).sr = if i.cs then nextShift q c.sr i.si else c.sr := by
  cases h : m.read a <;> simp [BSReg.readAt, h]

/-- The READ action reads neither the state nor the read registers that stood before it. -/
theorem BSReg.readAt_congr {d : BSReg} (hec : d.ec = c.ec) (hsr : d.sr = c.sr) :
    d.readAt m q i a b = c.readAt m q i a b := by
  unfold BSReg.readAt
  split <;> simp only [BSReg.moved, hec, hsr]

end ReadAt

/-- Every edge moves the counter and the shift register alike; the rest is what the tick schedules. -/
theorem commit_bsTick : c.commit (bsTick m q c i) =
    { c.moved q i ((bsTick m q c i).st.getD c.st) with
      raddr := (bsTick m q c i).raddr.getD c.raddr
      bidx := (bsTick m q c i).bidx.getD c.bidx
      so := (bsTick m q c i).so.getD c.so } := by
  simp only [BSReg.commit, BSReg.moved, bsTick_ec, bsTick_sr, Option.getD_some]
  cases i.cs <;> rfl

/-- Where no READ action runs, only step 3's transition is left open. -/
theorem commit_bsTick_no_read (h : (bsLocals q c (nextShift q c.sr i.si)).rd = false) :
    c.commit (bsTick m q c i) =
      c.moved q i ((bsStepState q c i (nextShift q c.sr i.si) { so := some false }).st.getD c.st) := by
  obtain ⟨hso, hraddr, hbidx⟩ := bsTick_no_read q c i m h
  have hst : (bsTick m q c i).st = (bsStepState q c i (nextShift q c.sr i.si) { so := some false }).st := by
    simp only [bsTick, bsStepShift, h]
    split <;> rfl
  rw [commit_bsTick, hso, hraddr, hbidx, hst]
  rfl

/-- Where the READ action runs, it runs at step 3's locals. -/
theorem commit_bsTick_read {a b : Nat} (h : bsLocals q c (nextShift q c.sr i.si) = ⟨a, b, true⟩)
    (hst : (bsStepState q c i (nextShift q c.sr i.si) { so := some false }).st.getD c.st = .reading) :
    c.commit (bsTick m q c i) = c.readAt m q i a b := by
  rw [commit_bsTick]
  cases hread : m.read a with
  | none =>
    rw [BSReg.readAt_none hread]
    cases hcs : i.cs <;> simp [bsTick, bsStepRead, bsStepShift, h, hst, hcs, hread]
  | some byte =>
    rw [BSReg.readAt_some hread]
    cases hcs : i.cs <;> simp [bsTick, bsStepRead, bsStepShift, h, hst, hcs, hread]

/-! ### The rows of the transition table (R222) -/

theorem commit_bsTick_idle (hst : c.st = .idle) :
    c.commit (bsTick m q c i) = c.moved q i (if i.cs then .spd else .idle) := by
  rw [commit_bsTick_no_read (by rw [bsLocals, hst])]
  simp only [bsStepState, hst]
  split <;> rfl

theorem commit_bsTick_spd (hst : c.st = .spd) :
    c.commit (bsTick m q c i) = c.moved q i (if rpdCheck q c (nextShift q c.sr i.si) then .spupd else .spd) := by
  rw [commit_bsTick_no_read (by rw [bsLocals, hst])]
  simp only [bsStepState, hst]
  split <;> rfl

/-- In SPD, but at the last edge of a release frame. -/
theorem commit_bsTick_spd_of_ne (hst : c.st = .spd) (hec : c.ec ≠ q.puEdge) :
    c.commit (bsTick m q c i) = c.moved q i .spd := by
  rw [commit_bsTick_spd hst, if_neg fun hcheck => hec ((rpdCheck_iff ..).mp hcheck).1]

theorem commit_bsTick_spupd (hst : c.st = .spupd) :
    c.commit (bsTick m q c i) = c.moved q i (if i.cs then .spupd else .dpu) := by
  rw [commit_bsTick_no_read (by rw [bsLocals, hst])]
  simp only [bsStepState, hst]
  cases i.cs <;> rfl

theorem commit_bsTick_dpu (hst : c.st = .dpu) :
    c.commit (bsTick m q c i) = c.moved q i (if i.cs then .spu else .dpu) := by
  rw [commit_bsTick_no_read (by rw [bsLocals, hst])]
  simp only [bsStepState, hst]
  split <;> rfl

/-- In SPU, where the check fails. -/
theorem commit_bsTick_spu (hst : c.st = .spu) (hcheck : readCheck q c (nextShift q c.sr i.si) = false) :
    c.commit (bsTick m q c i) = c.moved q i .spu := by
  rw [commit_bsTick_no_read (by simp [bsLocals, hst, hcheck])]
  simp [bsStepState, hst, hcheck]

/-- In SPU, but at the last edge of a read frame. -/
theorem commit_bsTick_spu_of_ne (hst : c.st = .spu) (hec : c.ec ≠ q.rdEdge) :
    c.commit (bsTick m q c i) = c.moved q i .spu :=
  commit_bsTick_spu hst (Bool.eq_false_iff.mpr fun hcheck => hec ((readCheck_iff ..).mp hcheck).1)

/-- The edge that completes a read frame reads at the address it captures (R226). -/
theorem commit_bsTick_capture (hst : c.st = .spu) (hcheck : readCheck q c (nextShift q c.sr i.si) = true) :
    c.commit (bsTick m q c i) = c.readAt m q i (addrField q (nextShift q c.sr i.si)) 0 :=
  commit_bsTick_read (by simp [bsLocals, hst, hcheck]) (by simp [bsStepState, hst, hcheck])

theorem commit_bsTick_reading (hst : c.st = .reading) :
    c.commit (bsTick m q c i) = c.readAt m q i c.raddr c.bidx :=
  commit_bsTick_read (by rw [bsLocals, hst]) (by simp [bsStepState, hst])

/-- Every edge out of READING, but the one that completes a read frame, has no READ action and does not enter READING
(R221). -/
theorem commit_bsTick_moved (hst : c.st ≠ .reading)
    (hcheck : c.st = .spu → readCheck q c (nextShift q c.sr i.si) = false) :
    c.commit (bsTick m q c i) = c.moved q i (c.commit (bsTick m q c i)).st ∧
      (c.commit (bsTick m q c i)).st ≠ .reading := by
  cases h : c.st with
  | idle => rw [commit_bsTick_idle h]; cases i.cs <;> simp
  | spd => rw [commit_bsTick_spd h]; split <;> simp
  | spupd => rw [commit_bsTick_spupd h]; cases i.cs <;> simp
  | dpu => rw [commit_bsTick_dpu h]; cases i.cs <;> simp
  | spu => rw [commit_bsTick_spu h (hcheck h)]; simp
  | reading => exact absurd h hst

/-! ### Sequences of edges -/

variable {is js : List BSIn}

theorem BSReg.after_append : BSReg.after m q c (is ++ js) = BSReg.after m q (BSReg.after m q c is) js := by
  induction is generalizing c with
  | nil => rfl
  | cons i is ih => exact ih

/-- What every edge keeps between two runs on the same inputs holds after any edges. -/
theorem BSReg.after_rel {R : BSReg → BSReg → Prop}
    (hstep : ∀ {c d} i, R c d → R (c.commit (bsTick m q c i)) (d.commit (bsTick m q d i))) {d : BSReg} (h : R c d) :
    R (BSReg.after m q c is) (BSReg.after m q d is) := by
  induction is generalizing c d with
  | nil => exact h
  | cons i is ih => exact ih (hstep i h)

/-- A run that leaves a state has a first edge that does. -/
theorem BSReg.exists_first_exit {st : BSSt} (hst : c.st = st) (h : (BSReg.after m q c is).st ≠ st) :
    ∃ p i r, is = p ++ i :: r ∧ (BSReg.after m q c p).st = st ∧ (BSReg.after m q c (p ++ [i])).st ≠ st := by
  induction is generalizing c with
  | nil => exact absurd hst h
  | cons i is ih =>
    by_cases hnext : (c.commit (bsTick m q c i)).st = st
    · obtain ⟨p, j, r, rfl, hp, hj⟩ := ih hnext h
      exact ⟨i :: p, j, r, rfl, hp, hj⟩
    · exact ⟨[], i, is, rfl, hst, hnext⟩

end Sys2Proof.Machine
end

section
/-! PROOF. The SPI-NOR bit-serial recognizer (43_spinor_bitserial.md): a line from rest is one edge of its tick rule. -/

namespace Sys2Proof.Machine

variable {s : State} {k : Nat} {x : BSInst}

/-! ### One line from rest -/

/-- One edge of an unwired recognizer at rest, as the operation BS.TICK. -/
theorem exec_bsTick_of_restBs (cs si : Bool) (h : s.restBs k x) :
    ∃ t y, exec (.bsTick k cs si) s = .next t ∧ t.bss[k]? = some y ∧
      y.reg = x.reg.commit (bsTick s.mem x.params x.reg ⟨cs, si⟩) ∧ s.bsFrame t x y := by
  obtain ⟨t, y, ht, ⟨hy, -, -⟩, hreg, hframe⟩ := bsLine_of_restBs ⟨cs, si⟩ h
  exact ⟨t, y, (exec_bsOp ⟨cs, si⟩).trans ht, hy, hreg, hframe⟩

/-- Settles O32: the rows of the transition table, and the counter and the shift register of every edge. -/
theorem recognizerFollowsTheTransitionTable : Obligations.RecognizerFollowsTheTransitionTable := by
  intro s k x cs si h srn
  obtain ⟨t, y, ht, hy, hreg, hframe⟩ := exec_bsTick_of_restBs cs si h
  have hmove : y.reg.ec = (if cs then x.reg.ec + 1 else 0) ∧ y.reg.sr = if cs then srn else x.reg.sr := by
    rw [hreg, commit_bsTick]
    exact ⟨rfl, rfl⟩
  refine ⟨t, y, ht, hy, ?_, hmove.1, hmove.2, hframe⟩
  rw [hreg]
  cases hst : x.reg.st with
  | idle => rw [commit_bsTick_idle hst]; rfl
  | spd =>
    rw [commit_bsTick_spd hst]
    exact if_congr (rpdCheck_iff ..) rfl rfl
  | spupd => rw [commit_bsTick_spupd hst]; rfl
  | dpu => rw [commit_bsTick_dpu hst]; rfl
  | spu =>
    cases hcheck : readCheck x.params x.reg srn with
    | false =>
      rw [commit_bsTick_spu (i := ⟨cs, si⟩) hst hcheck]
      exact (if_neg fun hfull => Bool.false_ne_true (hcheck.symm.trans ((readCheck_iff ..).mpr hfull))).symm
    | true =>
      rw [commit_bsTick_capture (i := ⟨cs, si⟩) hst hcheck, BSReg.readAt_st]
      exact (if_pos ((readCheck_iff ..).mp hcheck)).symm
  | reading => rw [commit_bsTick_reading hst, BSReg.readAt_st]

/-- Settles O33: the READ action at the committed address and bit index. -/
theorem readingEdgeShiftsOutOneBit : Obligations.ReadingEdgeShiftsOutOneBit := by
  intro s k x cs si h hst hb
  obtain ⟨t, y, ht, hy, hreg, hframe⟩ := exec_bsTick_of_restBs cs si h
  rw [commit_bsTick_reading hst] at hreg
  have hlast : x.reg.bidx + 1 = 8 ↔ x.reg.bidx = 7 := Nat.succ_inj
  refine ⟨t, y, ht, hy, by rw [hreg, BSReg.readAt_st], fun byte hread => ?_, fun hread => ?_, hframe⟩
  · rw [hreg, BSReg.readAt_some hread]
    exact ⟨rfl, if_congr hlast rfl rfl, if_congr hlast rfl rfl⟩
  · rw [hreg, BSReg.readAt_none hread]
    exact ⟨rfl, rfl, rfl⟩

/-- Settles O34: an edge with no READ action, or the READ action at the first bit of the captured address. -/
theorem onlyTheCaptureEdgeReadsOutOfReading : Obligations.OnlyTheCaptureEdgeReadsOutOfReading := by
  intro s k x cs si h hst srn captures a
  obtain ⟨t, y, ht, hy, hreg, hframe⟩ := exec_bsTick_of_restBs cs si h
  have hread : captures → y.reg = x.reg.readAt s.mem x.params ⟨cs, si⟩ a 0 := fun ⟨hspu, hfull⟩ =>
    hreg.trans (commit_bsTick_capture hspu ((readCheck_iff ..).mpr hfull))
  refine ⟨t, y, ht, hy, hframe, fun hno => ?_, fun hcap byte hbyte => ?_, fun hcap hnone => ?_⟩
  · have hcheck : x.reg.st = .spu → readCheck x.params x.reg srn = false := fun hspu =>
      Bool.eq_false_iff.mpr fun hc => hno ⟨hspu, (readCheck_iff ..).mp hc⟩
    rw [hreg, (commit_bsTick_moved (i := ⟨cs, si⟩) hst hcheck).1]
    exact ⟨rfl, rfl, rfl⟩
  · rw [hread hcap, BSReg.readAt_some hbyte]
    exact ⟨rfl, rfl, rfl⟩
  · rw [hread hcap, BSReg.readAt_none hnone]
    exact ⟨rfl, rfl, rfl⟩

end Sys2Proof.Machine
end

section
/-! PROOF. Frames on a BS instance's registers (43_spinor_bitserial.md section 3): what the shift register holds after
the bits of a frame, what the first edges of a selection do, and the two frames as the first edges of one. -/

namespace Sys2Proof.Machine

variable {m : Memory} {q : BSParams} {c : BSReg}

/-! ### The shift register (R232) -/

/-- The shift value after these bits, the first of them shifted furthest. -/
def shiftIn (q : BSParams) (sr : Nat) (bits : List Bool) : Nat := bits.foldl (nextShift q) sr

theorem shiftIn_concat (sr : Nat) (bits : List Bool) (b : Bool) :
    shiftIn q sr (bits ++ [b]) = nextShift q (shiftIn q sr bits) b := List.foldl_concat ..

theorem nextShift_modEq (sr : Nat) (b : Bool) : nextShift q sr b ≡ 2 * sr + b.toNat [MOD 2 ^ q.srW] := Nat.mod_modEq _ _

theorem shiftIn_msbFirst_modEq (n sr : Nat) (v : BitVec 32) :
    shiftIn q sr (msbFirst n v) ≡ sr * 2 ^ n + v.toNat % 2 ^ n [MOD 2 ^ q.srW] := by
  induction n generalizing sr with
  | zero => simpa [msbFirst, shiftIn, Nat.mod_one] using Nat.ModEq.refl _
  | succ n ih =>
    have hbit : (v.getLsbD n).toNat = v.toNat / 2 ^ n % 2 := Nat.toNat_testBit ..
    rw [msbFirst_add n 1]
    calc shiftIn q (nextShift q sr (v.getLsbD n)) (msbFirst n v)
      _ ≡ nextShift q sr (v.getLsbD n) * 2 ^ n + v.toNat % 2 ^ n [MOD 2 ^ q.srW] := ih _
      _ ≡ (2 * sr + (v.getLsbD n).toNat) * 2 ^ n + v.toNat % 2 ^ n [MOD 2 ^ q.srW] :=
        ((nextShift_modEq sr _).mul_right _).add_right _
      _ = sr * 2 ^ (n + 1) + v.toNat % 2 ^ (n + 1) := by rw [Nat.mod_pow_succ, hbit]; ring

/-- The frame lemma: the low bits of the shift value are the frame's, whatever stood before it. -/
theorem shiftIn_msbFirst_mod {n : Nat} (hn : n ≤ q.srW) (sr : Nat) (v : BitVec 32) :
    shiftIn q sr (msbFirst n v) % 2 ^ n = v.toNat % 2 ^ n := by
  have h := (shiftIn_msbFirst_modEq n sr v).of_dvd (Nat.pow_dvd_pow 2 hn)
  rw [Nat.ModEq, Nat.mul_add_mod_self_right, Nat.mod_mod] at h
  exact h

theorem shiftIn_lt {bits : List Bool} (hb : bits ≠ []) (sr : Nat) : shiftIn q sr bits < 2 ^ q.srW := by
  rw [← List.dropLast_concat_getLast hb, shiftIn_concat]
  exact nextShift_lt ..

/-- A frame as long as the shift register fills it. -/
theorem shiftIn_msbFirst_full (hq : q.srW = 32) (sr : Nat) (v : BitVec 32) :
    shiftIn q sr (msbFirst 32 v) = v.toNat := by
  have hmod := shiftIn_msbFirst_mod hq.ge sr v
  have hlt := shiftIn_lt (q := q) (msbFirst_ne_nil (n := 32) (by decide) v) sr
  rwa [Nat.mod_eq_of_lt (hq ▸ hlt), Nat.mod_eq_of_lt v.isLt] at hmod

theorem readFrame_toNat (addr : FrameAddr) : (readFrame addr).toNat = 0x03000000 + addr.toNat := by
  have haddr := addr.isLt
  rw [readFrame, BitVec.toNat_append, ← Nat.shiftLeft_add_eq_or_of_lt haddr]
  rfl

/-! ### The first edges of a selection (R224, R229, R236) -/

/-- Selected edges that stay in one state, or enter it, and have no READ action. -/
theorem BSReg.after_selected_moved {st₀ st : BSSt} {edge : Nat}
    (hstep : ∀ {c : BSReg} {b}, c.st = st₀ ∨ c.st = st → c.ec < edge →
      c.commit (bsTick m q c ⟨true, b⟩) = c.moved q ⟨true, b⟩ st)
    (hst : c.st = st₀ ∨ c.st = st) {bits : List Bool} (hb : bits ≠ []) (hec : c.ec + bits.length ≤ edge) :
    BSReg.after m q c (selected bits) =
      { c with st := st, ec := c.ec + bits.length, sr := shiftIn q c.sr bits, so := false } := by
  induction bits generalizing c with
  | nil => exact absurd rfl hb
  | cons b bs ih =>
    rw [List.length_cons] at hec
    have hedge : BSReg.after m q c (selected (b :: bs)) = BSReg.after m q (c.moved q ⟨true, b⟩ st) (selected bs) := by
      rw [← hstep hst (by omega)]
      rfl
    rw [hedge]
    by_cases hbs : bs = []
    · subst hbs
      rfl
    · rw [ih (.inr rfl) hbs (by simp; omega)]
      simp [shiftIn, Nat.add_assoc, Nat.add_comm 1]

/-- Before the check edge of a release frame the selection stays in SPD. -/
theorem BSReg.after_selected_spd (hst : c.st = .idle ∨ c.st = .spd) {bits : List Bool} (hb : bits ≠ [])
    (hec : c.ec + bits.length ≤ q.puEdge) : BSReg.after m q c (selected bits) =
      { c with st := .spd, ec := c.ec + bits.length, sr := shiftIn q c.sr bits, so := false } := by
  refine BSReg.after_selected_moved (fun hst hlt => ?_) hst hb hec
  obtain hst | hst := hst
  · exact commit_bsTick_idle hst
  · exact commit_bsTick_spd_of_ne hst hlt.ne

/-- Before the check edge of a read frame the selection stays in SPU. -/
theorem BSReg.after_selected_spu (hst : c.st = .dpu ∨ c.st = .spu) {bits : List Bool} (hb : bits ≠ [])
    (hec : c.ec + bits.length ≤ q.rdEdge) : BSReg.after m q c (selected bits) =
      { c with st := .spu, ec := c.ec + bits.length, sr := shiftIn q c.sr bits, so := false } := by
  refine BSReg.after_selected_moved (fun hst hlt => ?_) hst hb hec
  obtain hst | hst := hst
  · exact commit_bsTick_dpu hst
  · exact commit_bsTick_spu_of_ne hst hlt.ne

/-! ### The frames as the first edges of a selection (R225, R226) -/

theorem msbFirst_length (n : Nat) (v : BitVec 32) : (msbFirst n v).length = n := by simp [msbFirst]

theorem selected_append (as bs : List Bool) : selected (as ++ bs) = selected as ++ selected bs := List.map_append

/-- The last edge of a frame stands alone. -/
theorem msbFirst_succ_concat (n : Nat) (v : BitVec 32) :
    ∃ bits b, msbFirst (n + 1) v = bits ++ [b] ∧ bits.length = n :=
  ⟨_, _, (List.dropLast_concat_getLast (msbFirst_ne_nil (Nat.succ_ne_zero n) v)).symm, by simp [msbFirst_length]⟩

theorem BSReg.after_selected_concat (bits : List Bool) (b : Bool) :
    BSReg.after m q c (selected (bits ++ [b])) =
      (BSReg.after m q c (selected bits)).commit (bsTick m q (BSReg.after m q c (selected bits)) ⟨true, b⟩) := by
  rw [selected_append, BSReg.after_append]
  rfl

/-- The release frame, powered down. -/
theorem BSReg.after_rpdFrame (hq : q.standard) (hst : c.st = .idle ∨ c.st = .spd) (hec : c.ec = 0) :
    BSReg.after m q c (selected (msbFirst 8 rpdFrame)) =
      { c with st := .spupd, ec := 8, sr := shiftIn q c.sr (msbFirst 8 rpdFrame), so := false } := by
  obtain ⟨hpu, -, hrpd, -, hsr, -⟩ := hq
  obtain ⟨bits, b, hbits, hlen⟩ := msbFirst_succ_concat 7 rpdFrame
  have hframe : shiftIn q c.sr (bits ++ [b]) % 2 ^ 8 = q.opcRpd.toNat := by
    rw [← hbits, shiftIn_msbFirst_mod (hsr ▸ by decide), hrpd]
    rfl
  have hne : bits ≠ [] := List.ne_nil_of_length_pos (hlen ▸ by decide)
  rw [hbits, BSReg.after_selected_concat, BSReg.after_selected_spd hst hne (by omega), commit_bsTick_spd rfl,
    ← shiftIn_concat, if_pos ((rpdCheck_iff ..).mpr ⟨by simp [hec, hlen, hpu], hframe⟩)]
  simp [BSReg.moved, shiftIn_concat, hec, hlen]

/-- The read frame, powered up: the READ action at the first bit of its address, at the last of its edges. -/
theorem BSReg.after_readFrame (hq : q.standard) (hst : c.st = .dpu ∨ c.st = .spu) (hec : c.ec = 0) (addr : FrameAddr) :
    ∃ (d : BSReg) (b : Bool),
      BSReg.after m q c (selected (msbFirst 32 (readFrame addr))) = d.readAt m q ⟨true, b⟩ addr.toNat 0 ∧ d.ec = 31 ∧
        nextShift q d.sr b = 0x03000000 + addr.toNat := by
  obtain ⟨-, hrd, -, hread, hsr, haw⟩ := hq
  obtain ⟨bits, b, hbits, hlen⟩ := msbFirst_succ_concat 31 (readFrame addr)
  have haddr := addr.isLt
  have hframe : nextShift q (shiftIn q c.sr bits) b = 0x03000000 + addr.toNat := by
    rw [← shiftIn_concat, ← hbits, shiftIn_msbFirst_full hsr, readFrame_toNat]
  have hfield : addrField q (0x03000000 + addr.toNat) = addr.toNat := by
    rw [addrField, lowBits, haw]
    omega
  have hopcode : (0x03000000 + addr.toNat) / 2 ^ (q.srW - 8) % 2 ^ 8 = q.opcRead.toNat := by
    rw [hsr, hread]
    simp
    omega
  have hne : bits ≠ [] := List.ne_nil_of_length_pos (hlen ▸ by decide)
  refine ⟨{ c with st := .spu, ec := c.ec + bits.length, sr := shiftIn q c.sr bits, so := false }, b, ?_,
    by simp [hec, hlen], hframe⟩
  rw [hbits, BSReg.after_selected_concat, BSReg.after_selected_spu hst hne (by omega),
    commit_bsTick_capture rfl ((readCheck_iff ..).mpr ⟨by simp [hec, hlen, hrd], hframe ▸ hopcode⟩), hframe, hfield]

end Sys2Proof.Machine
end

section
/-! PROOF. The power sequence of the bit-serial recognizer (43_spinor_bitserial.md R225, R226, R241, R243): release,
deselect, reselect, read. -/

namespace Sys2Proof.Machine

variable {s : State} {k : Nat} {x : BSInst} {m : Memory} {q : BSParams} {c : BSReg} {addr : FrameAddr}

/-! ### The frames from rest -/

/-- Settles O36: the release frame's edges on the registers. -/
theorem powerDownIsReleasedByItsFrame : Obligations.PowerDownIsReleasedByItsFrame := by
  intro s k x h hq hec hst
  obtain ⟨t, y, ht, ⟨hy, -, -⟩, hreg, hframe⟩ := bsSend_of_restBs (msbFirst_ne_nil (n := 8) (by decide) rpdFrame) h
  rw [BSReg.after_rpdFrame hq hst hec] at hreg
  obtain ⟨-, -, -, -, hsr, -⟩ := hq
  have hlow : shiftIn x.params x.reg.sr (msbFirst 8 rpdFrame) % 2 ^ 8 = 0xAB :=
    shiftIn_msbFirst_mod (hsr ▸ by decide) _ _
  refine ⟨t, y, ht, hy, ?_⟩
  rw [hreg]
  exact ⟨rfl, rfl, hlow, rfl, rfl, rfl, hframe⟩

/-- Settles O38: the read frame's edges on the registers. -/
theorem readFrameCapturesTheAddress : Obligations.ReadFrameCapturesTheAddress := by
  intro s k x addr h hq hec hst
  obtain ⟨t, y, ht, ⟨hy, -, -⟩, hreg, hframe⟩ :=
    bsSend_of_restBs (msbFirst_ne_nil (n := 32) (by decide) (readFrame addr)) h
  obtain ⟨d, b, hafter, hd, hsr⟩ := BSReg.after_readFrame (m := s.mem) hq hst hec addr
  rw [hafter] at hreg
  have hraddr : y.reg.raddr = addr.toNat := by
    cases hread : s.mem.read addr.toNat with
    | none => rw [hreg, BSReg.readAt_none hread]
    | some byte => rw [hreg, BSReg.readAt_some hread]; rfl
  refine ⟨t, y, ht, hy, by rw [hreg, BSReg.readAt_st, if_pos rfl], by rw [hreg, BSReg.readAt_ec, if_pos rfl, hd],
    by rw [hreg, BSReg.readAt_sr, if_pos rfl, hsr], hraddr, fun byte hread => ?_, fun hread => ?_, hframe⟩
  · rw [hreg, BSReg.readAt_some hread]
    exact ⟨rfl, rfl⟩
  · rw [hreg, BSReg.readAt_none hread]
    exact ⟨rfl, rfl⟩

/-! ### The two stages of the power-up (R241) -/

variable {is : List BSIn}

/-- A selected SPUPD decodes nothing. -/
theorem BSReg.after_spupd_of_selected (hst : c.st = .spupd) (hcs : ∀ i ∈ is, i.cs = true) :
    (BSReg.after m q c is).st = .spupd ∧ (BSReg.after m q c is).raddr = c.raddr ∧
      (BSReg.after m q c is).bidx = c.bidx ∧ (is ≠ [] → (BSReg.after m q c is).so = false) := by
  induction is generalizing c with
  | nil => exact ⟨hst, rfl, rfl, fun h => absurd rfl h⟩
  | cons i is ih =>
    rw [List.forall_mem_cons] at hcs
    obtain ⟨hi, his⟩ := hcs
    have hafter : BSReg.after m q c (i :: is) = BSReg.after m q (c.moved q i .spupd) is := by
      rw [BSReg.after, commit_bsTick_spupd hst, if_pos hi]
    obtain ⟨hst', hraddr, hbidx, hso⟩ := ih (c := c.moved q i .spupd) rfl his
    rw [hafter]
    refine ⟨hst', hraddr, hbidx, fun _ => ?_⟩
    by_cases hnil : is = []
    · subst hnil
      rfl
    · exact hso hnil

/-- Only a deselect leaves SPUPD, and to DPU. -/
theorem exists_deselect_of_exit (hst : c.st = .spupd) (h : (BSReg.after m q c is).st ≠ .spupd) :
    ∃ p i r, is = p ++ i :: r ∧ i.cs = false ∧ (BSReg.after m q c (p ++ [i])).st = .dpu := by
  obtain ⟨p, i, r, his, hp, hexit⟩ := BSReg.exists_first_exit hst h
  rw [BSReg.after_append, BSReg.after, BSReg.after, commit_bsTick_spupd hp] at hexit
  have hi : i.cs = false := Bool.eq_false_iff.mpr fun hi => hexit (if_pos hi)
  refine ⟨p, i, r, his, hi, ?_⟩
  rw [BSReg.after_append, BSReg.after, BSReg.after, commit_bsTick_spupd hp, hi]
  rfl

/-- Only a reselect leaves DPU. -/
theorem exists_select_of_exit (hst : c.st = .dpu) (h : (BSReg.after m q c is).st ≠ .dpu) :
    ∃ r j u, is = r ++ j :: u ∧ j.cs = true := by
  obtain ⟨r, j, u, his, hr, hexit⟩ := BSReg.exists_first_exit hst h
  rw [BSReg.after_append, BSReg.after, BSReg.after, commit_bsTick_dpu hr] at hexit
  exact ⟨r, j, u, his, by_contra fun hj => hexit (if_neg hj)⟩

/-- Settles O37: SPUPD is left by a deselect only, to DPU, and DPU by a reselect only. -/
theorem powerUpNeedsDeselectAndReselect : Obligations.PowerUpNeedsDeselectAndReselect := by
  refine ⟨fun m q c i hst => ?_, fun m q c is hst => ⟨BSReg.after_spupd_of_selected hst, fun hpow => ?_⟩⟩
  · rw [commit_bsTick_spd hst]
    exact if_congr (rpdCheck_iff ..) rfl rfl
  · obtain ⟨p, i, rest, rfl, hi, hdpu⟩ := exists_deselect_of_exit (is := is) (m := m) (q := q) hst
      fun h => by simp [h] at hpow
    rw [List.append_cons, BSReg.after_append] at hpow
    obtain ⟨r, j, u, rfl, hj⟩ := exists_select_of_exit (is := rest) (m := m) (q := q) hdpu
      fun h => by simp [h] at hpow
    exact ⟨p, i, r, j, u, rfl, hi, hj⟩

/-! ### Streaming (R228, R239) -/

/-- The registers in READING when data bit `j` of the bytes from address `a` is on serial-out. -/
structure BSReg.Streaming (m : Memory) (q : BSParams) (a j : Nat) (c : BSReg) : Prop where
  st : c.st = .reading
  ec : c.ec = 32 + j
  raddr : c.raddr = (a + (j + 1) / 8) % 2 ^ q.addrW
  bidx : c.bidx = (j + 1) % 8
  so : ∃ byte, m.read ((a + j / 8) % 2 ^ q.addrW) = some byte ∧ c.so = byte.getLsbD (7 - j % 8)

theorem nextBidx_mod (j : Nat) : nextBidx (j % 8) = (j + 1) % 8 := by
  unfold nextBidx
  split <;> omega

theorem nextRaddr_mod (a j : Nat) :
    nextRaddr q ((a + j / 8) % 2 ^ q.addrW) (j % 8) = (a + (j + 1) / 8) % 2 ^ q.addrW := by
  unfold nextRaddr
  split
  · rw [lowBits, Nat.mod_add_mod, show a + j / 8 + 1 = a + (j + 1) / 8 by omega]
  · rw [show j / 8 = (j + 1) / 8 by omega]

/-- A READ action at data bit `j`, at a selected edge. -/
theorem BSReg.Streaming.of_readAt {a j : Nat} {b : Bool} {byte : Byte}
    (hread : m.read ((a + j / 8) % 2 ^ q.addrW) = some byte) (hec : c.ec = 31 + j) :
    (c.readAt m q ⟨true, b⟩ ((a + j / 8) % 2 ^ q.addrW) (j % 8)).Streaming m q a j := by
  rw [BSReg.readAt_some hread]
  exact ⟨rfl, by simp [hec]; omega, nextRaddr_mod a j, nextBidx_mod j, byte, hread, rfl⟩

/-- Selected edges stream on while the bytes are in the window. -/
theorem BSReg.Streaming.after_selected {a j : Nat} {bits : List Bool} (h : c.Streaming m q a j)
    (hread : ∀ l, l ≤ j + bits.length → (m.read ((a + l / 8) % 2 ^ q.addrW)).isSome) :
    (BSReg.after m q c (selected bits)).Streaming m q a (j + bits.length) := by
  induction bits generalizing c j with
  | nil => exact h
  | cons b bs ih =>
    rw [List.length_cons, ← Nat.add_assoc, Nat.add_right_comm] at hread ⊢
    obtain ⟨byte, hbyte⟩ := Option.isSome_iff_exists.mp (hread (j + 1) (by omega))
    have hnext : (c.commit (bsTick m q c ⟨true, b⟩)).Streaming m q a (j + 1) := by
      rw [commit_bsTick_reading h.st, h.raddr, h.bidx]
      exact .of_readAt hbyte (h.ec.trans (by omega))
    exact ih hnext hread

/-- A read frame, powered up, puts out data bit 0. -/
theorem BSReg.Streaming.of_readFrame (hq : q.standard) (hst : c.st = .dpu ∨ c.st = .spu) (hec : c.ec = 0)
    (hread : (m.read (addr.toNat % 2 ^ q.addrW)).isSome) :
    (BSReg.after m q c (selected (msbFirst 32 (readFrame addr)))).Streaming m q addr.toNat 0 := by
  obtain ⟨d, b, hafter, hd, -⟩ := BSReg.after_readFrame (m := m) hq hst hec addr
  obtain ⟨byte, hbyte⟩ := Option.isSome_iff_exists.mp hread
  have ⟨_, _, _, _, _, haw⟩ := hq
  have haddr : addr.toNat % 2 ^ q.addrW = addr.toNat := by rw [haw, Nat.mod_eq_of_lt addr.isLt]
  have hfirst := BSReg.Streaming.of_readAt (c := d) (a := addr.toNat) (j := 0) (b := b) hbyte hd
  rw [hafter]
  simpa [haddr] using hfirst

/-! ### The shortest power sequence (R243) -/

/-- The edges of the shortest power sequence: the release frame, a deselect, the read frame, and further selected
edges. -/
def powerSequence (addr : FrameAddr) (si : Bool) (tail : List Bool) : List BSIn :=
  selected (msbFirst 8 rpdFrame) ++ ⟨false, si⟩ :: selected (msbFirst 32 (readFrame addr) ++ tail)

theorem selected_take (n : Nat) (bits : List Bool) : (selected bits).take n = selected (bits.take n) :=
  List.map_take.symm

theorem powerSequence_take_release {n : Nat} (hn : n ≤ 8) (si : Bool) (tail : List Bool) :
    (powerSequence addr si tail).take n = selected ((msbFirst 8 rpdFrame).take n) := by
  rw [powerSequence, List.take_append_of_le_length (by simpa [selected, msbFirst_length] using hn), selected_take]

theorem powerSequence_take_read (n : Nat) (si : Bool) (tail : List Bool) :
    (powerSequence addr si tail).take (9 + n) = selected (msbFirst 8 rpdFrame) ++
      ⟨false, si⟩ :: selected ((msbFirst 32 (readFrame addr) ++ tail).take n) := by
  have hlen : (selected (msbFirst 8 rpdFrame)).length = 8 := by simp [selected, msbFirst_length]
  rw [powerSequence, List.take_append, hlen, List.take_of_length_le (by omega), show 9 + n - 8 = n + 1 by omega,
    List.take_succ_cons, selected_take]

/-- After the release frame and a deselect the registers are in DPU with no edge counted, ready for the rest. -/
theorem BSReg.after_release_deselect (hq : q.standard) (hst : c.st = .idle ∨ c.st = .spd) (hec : c.ec = 0) (si : Bool) :
    ∃ d : BSReg, d.st = .dpu ∧ d.ec = 0 ∧ d.so = false ∧ ∀ is,
      BSReg.after m q c (selected (msbFirst 8 rpdFrame) ++ ⟨false, si⟩ :: is) = BSReg.after m q d is := by
  refine ⟨BSReg.after m q c (selected (msbFirst 8 rpdFrame) ++ [⟨false, si⟩]), ?_, ?_, ?_, fun is => ?_⟩
  case refine_4 => rw [List.append_cons, BSReg.after_append]
  all_goals
    rw [BSReg.after_append, BSReg.after_rpdFrame hq hst hec, BSReg.after, BSReg.after, commit_bsTick_spupd rfl]
    rfl

/-- Any edges from rest go through the tick rule once each. -/
theorem execAll_bsOps_of_restBs {is : List BSIn} (h : s.restBs k x) :
    ∃ t y, execAll (is.map (BSIn.op k)) s = .next t ∧ t.bss[k]? = some y ∧
      y.reg = BSReg.after s.mem x.params x.reg is := by
  induction is generalizing s x with
  | nil => exact ⟨s, x, rfl, h.1, rfl⟩
  | cons i is ih =>
    obtain ⟨t, y, ht, hrest, hreg, hrun, ⟨-, hmem, -⟩, hparams, -⟩ := bsLine_of_restBs i h
    obtain ⟨u, z, hu, hz, hreg'⟩ := ih hrest
    rw [hmem, hparams, hreg] at hreg'
    exact ⟨u, z, by rw [List.map_cons, execAll_cons ((exec_bsOp i).trans ht) hrun, hu], hz, hreg'⟩

/-- An unwired recognizer at rest has a byte for every address in the window. -/
theorem State.restBs.read_isSome (h : s.restBs k x) {a : Nat} (ha : s.mem.inWindow a = true) :
    (s.mem.read a).isSome = true := by
  obtain ⟨hx, hr, -⟩ := h
  obtain ⟨⟨-, -, himage, -⟩, -⟩ := (State.of_ready hr).2 (.bs k) x.cd (by simp [State.cd?, hx]) rfl
  exact Memory.read_isSome_of_inWindow himage ha

section Edges

variable (si : Bool) (tail : List Bool) {n : Nat}

/-- The first seven edges select. -/
theorem powerSequence_after_select (hq : q.standard) (hst : c.st = .idle ∨ c.st = .spd) (hec : c.ec = 0) (hpos : 1 ≤ n)
    (hn : n ≤ 7) : BSReg.after m q c ((powerSequence addr si tail).take n) =
      { c with st := .spd, ec := n, sr := shiftIn q c.sr ((msbFirst 8 rpdFrame).take n), so := false } := by
  have hlen : ((msbFirst 8 rpdFrame).take n).length = n := by
    rw [List.length_take, msbFirst_length]
    omega
  obtain ⟨hpu, -⟩ := hq
  rw [powerSequence_take_release (by omega),
    BSReg.after_selected_spd hst (List.ne_nil_of_length_pos (by omega)) (by omega), hlen, hec, Nat.zero_add]

/-- The edges 10 to 40 reselect. -/
theorem powerSequence_after_reselect (hq : q.standard) (hst : c.st = .idle ∨ c.st = .spd) (hec : c.ec = 0)
    (hpos : 1 ≤ n) (hn : n ≤ 31) :
    let y := BSReg.after m q c ((powerSequence addr si tail).take (9 + n))
    y.st = .spu ∧ y.ec = n ∧ y.so = false := by
  obtain ⟨d, hdst, hdec, -, hd⟩ := BSReg.after_release_deselect (m := m) hq hst hec si
  have hlen : ((msbFirst 32 (readFrame addr) ++ tail).take n).length = n := by
    simp [msbFirst_length]
    omega
  obtain ⟨-, hrd, -⟩ := hq
  rw [powerSequence_take_read, hd,
    BSReg.after_selected_spu (.inl hdst) (List.ne_nil_of_length_pos (by omega)) (by omega), hlen, hdec, Nat.zero_add]
  exact ⟨rfl, rfl, rfl⟩

/-- From edge 41 on the data bits stream. -/
theorem powerSequence_after_read (hq : q.standard) (hst : c.st = .idle ∨ c.st = .spd) (hec : c.ec = 0)
    (hn : n ≤ tail.length) (hread : ∀ l, l ≤ n → (m.read ((addr.toNat + l / 8) % 2 ^ q.addrW)).isSome) :
    (BSReg.after m q c ((powerSequence addr si tail).take (41 + n))).Streaming m q addr.toNat n := by
  obtain ⟨d, hdst, hdec, -, hd⟩ := BSReg.after_release_deselect (m := m) hq hst hec si
  have hlen : (tail.take n).length = n := List.length_take_of_le hn
  have htake : (msbFirst 32 (readFrame addr) ++ tail).take (32 + n) = msbFirst 32 (readFrame addr) ++ tail.take n := by
    rw [List.take_append, msbFirst_length, List.take_of_length_le (by rw [msbFirst_length]; omega),
      Nat.add_sub_cancel_left]
  have hstart := BSReg.Streaming.of_readFrame (addr := addr) hq (.inl hdst) hdec (hread 0 (Nat.zero_le n))
  have hstream := hstart.after_selected (bits := tail.take n) (by simpa [hlen] using hread)
  rw [show 41 + n = 9 + (32 + n) by omega, powerSequence_take_read, hd, htake, selected_append,
    BSReg.after_append]
  rwa [hlen, Nat.zero_add] at hstream

end Edges

/-- Settles O39: the power sequence up to each edge, range by range. -/
theorem powerSequenceTiming : Obligations.PowerSequenceTiming := by
  intro s k x addr si tail n h hq hx hn hwindow edges
  have hedges : edges = powerSequence addr si tail := by
    simp [edges, powerSequence, msbFirst_rpdFrame, msbFirst_readFrame, selected]
  obtain ⟨t, y, ht, hy, hreg⟩ := execAll_bsOps_of_restBs (is := edges.take n) h
  rw [hedges] at hreg
  have hst : x.reg.st = .idle ∨ x.reg.st = .spd := by rw [hx]; exact .inl rfl
  have hec : x.reg.ec = 0 := by rw [hx]; rfl
  refine ⟨t, y, ht, hy, fun h1 h7 => ?_, ?_, ?_, fun h10 h40 => ?_, ?_⟩
  · rw [hreg, powerSequence_after_select si tail hq hst hec h1 h7]
    exact ⟨rfl, rfl, rfl⟩
  · rintro rfl
    rw [hreg, powerSequence_take_release le_rfl, List.take_of_length_le (by rw [msbFirst_length]),
      BSReg.after_rpdFrame hq hst hec]
    exact ⟨rfl, rfl, rfl⟩
  · rintro rfl
    obtain ⟨d, hdst, hdec, hdso, hd⟩ := BSReg.after_release_deselect (m := s.mem) hq hst hec si
    rw [hreg, powerSequence_take_read 0, hd]
    exact ⟨hdst, hdec, hdso⟩
  · obtain ⟨l, rfl⟩ := Nat.exists_eq_add_of_le (show 9 ≤ n by omega)
    rw [hreg, Nat.add_sub_cancel_left]
    exact powerSequence_after_reselect si tail hq hst hec (by omega) (by omega)
  · rintro j rfl
    have ⟨_, _, _, _, _, haw⟩ := hq
    have hstream := powerSequence_after_read (m := s.mem) (addr := addr) si tail hq hst hec (by omega : j ≤ tail.length)
      fun l hl => h.read_isSome (by rw [haw]; exact hwindow l (by omega))
    have hso := hstream.so
    rw [← hreg] at hstream
    rw [← hreg, haw] at hso
    exact ⟨hstream.st, hstream.ec, hso⟩

end Sys2Proof.Machine
end

section
/-! PROOF. What cannot be observed of a BS instance's registers (43_spinor_bitserial.md R232, R234, R242): pairs of
registers that every edge keeps in a relation under which the outputs agree. -/

namespace Sys2Proof.Machine

variable {m : Memory} {q : BSParams} {c d : BSReg} {i : BSIn}

/-! ### The shift register's residue (R232) -/

/-- One more bit in common after each edge, up to the register's width. -/
theorem nextShift_modEq_succ {n v w : Nat} (h : w ≡ v [MOD 2 ^ min n q.srW]) (b : Bool) :
    nextShift q w b ≡ nextShift q v b [MOD 2 ^ min (n + 1) q.srW] := by
  have hdvd : 2 ^ min (n + 1) q.srW ∣ 2 * 2 ^ min n q.srW := by
    rw [← Nat.pow_succ']
    exact Nat.pow_dvd_pow 2 (by omega)
  have htwice : 2 * w + b.toNat ≡ 2 * v + b.toNat [MOD 2 ^ min (n + 1) q.srW] :=
    ((h.mul_left' 2).of_dvd hdvd).add_right _
  have hwidth := Nat.pow_dvd_pow 2 (Nat.min_le_right (n + 1) q.srW)
  exact ((nextShift_modEq w b).of_dvd hwidth).trans (htwice.trans ((nextShift_modEq v b).of_dvd hwidth).symm)

/-- Other bits in the shift register. -/
def BSReg.withSr (w : Nat) (c : BSReg) : BSReg := { c with sr := w }

theorem BSReg.moved_withSr (w : Nat) (st : BSSt) :
    (c.withSr w).moved q i st = (c.moved q i st).withSr (if i.cs then nextShift q w i.si else w) := rfl

theorem BSReg.readAt_withSr (w a b : Nat) :
    (c.withSr w).readAt m q i a b = (c.readAt m q i a b).withSr (if i.cs then nextShift q w i.si else w) := by
  unfold BSReg.readAt
  split <;> rfl

/-- Shift values with the selection's bits in common give the release check the same outcome, and are equal at the edge
of the read check. -/
theorem checks_of_modEq {w : Nat} (hq : q.standard) (hw : w ≡ c.sr [MOD 2 ^ min c.ec q.srW]) (b : Bool) :
    rpdCheck q c (nextShift q w b) = rpdCheck q c (nextShift q c.sr b) ∧
      (c.ec = q.rdEdge → nextShift q w b = nextShift q c.sr b) := by
  obtain ⟨hpu, hrd, -, -, hsr, -⟩ := hq
  have hnext := nextShift_modEq_succ hw b
  constructor
  · rw [Bool.eq_iff_iff, rpdCheck_iff, rpdCheck_iff]
    refine and_congr_right fun hec => ?_
    rw [hec, hpu, hsr] at hnext
    exact iff_of_eq (congrArg (· = q.opcRpd.toNat) hnext)
  · intro hec
    rw [hec, hrd, show min (31 + 1) q.srW = q.srW by omega] at hnext
    exact hnext.eq_of_lt_of_lt (nextShift_lt ..) (nextShift_lt ..)

/-- Bits from before the selection change nothing at an edge but the shift register. -/
theorem commit_bsTick_withSr {w : Nat} (hq : q.standard) (hw : w ≡ c.sr [MOD 2 ^ min c.ec q.srW]) :
    (c.withSr w).commit (bsTick m q (c.withSr w) i) =
      (c.commit (bsTick m q c i)).withSr (if i.cs then nextShift q w i.si else w) := by
  obtain ⟨hrpd, hfull⟩ := checks_of_modEq hq hw i.si
  cases hst : c.st with
  | idle => rw [commit_bsTick_idle hst, commit_bsTick_idle (c := c.withSr w) hst, BSReg.moved_withSr]
  | spd =>
    rw [commit_bsTick_spd hst, commit_bsTick_spd (c := c.withSr w) hst, BSReg.moved_withSr, ← hrpd]
    rfl
  | spupd => rw [commit_bsTick_spupd hst, commit_bsTick_spupd (c := c.withSr w) hst, BSReg.moved_withSr]
  | dpu => rw [commit_bsTick_dpu hst, commit_bsTick_dpu (c := c.withSr w) hst, BSReg.moved_withSr]
  | spu =>
    cases hcheck : readCheck q c (nextShift q c.sr i.si) with
    | true =>
      have hsame := hfull ((readCheck_iff ..).mp hcheck).1
      rw [commit_bsTick_capture hst hcheck, ← hsame, ← BSReg.readAt_withSr]
      exact commit_bsTick_capture (c := c.withSr w) hst (by rw [← hcheck, ← hsame]; rfl)
    | false =>
      have hcheck' : readCheck q c (nextShift q w i.si) = false := by
        rw [Bool.eq_false_iff, Ne, readCheck_iff]
        rintro ⟨hec, hopcode⟩
        rw [hfull hec] at hopcode
        exact Bool.eq_false_iff.mp hcheck ((readCheck_iff ..).mpr ⟨hec, hopcode⟩)
      rw [commit_bsTick_spu hst hcheck, ← BSReg.moved_withSr]
      exact commit_bsTick_spu (c := c.withSr w) hst hcheck'
  | reading => rw [commit_bsTick_reading hst, commit_bsTick_reading (c := c.withSr w) hst, BSReg.readAt_withSr]; rfl

/-- The registers agree but for bits of the shift register that the present selection has not shifted in. -/
def BSReg.SameBits (q : BSParams) (c d : BSReg) : Prop := ∃ w, d = c.withSr w ∧ w ≡ c.sr [MOD 2 ^ min c.ec q.srW]

theorem BSReg.SameBits.tick (hq : q.standard) (i : BSIn) (h : c.SameBits q d) :
    (c.commit (bsTick m q c i)).SameBits q (d.commit (bsTick m q d i)) := by
  obtain ⟨w, rfl, hw⟩ := h
  refine ⟨_, commit_bsTick_withSr hq hw, ?_⟩
  rw [commit_bsTick]
  cases hcs : i.cs with
  | false => simp [hcs, Nat.modEq_one]
  | true => simpa [hcs] using nextShift_modEq_succ hw i.si

/-- Settles O40: at the start of a selection no bit has to agree. -/
theorem shiftResidueNeverReachesACheck : Obligations.ShiftResidueNeverReachesACheck := by
  intro m q c w is hq hec
  have hstart : c.SameBits q { c with sr := w } := ⟨w, rfl, by simp [hec, Nat.modEq_one]⟩
  obtain ⟨v, hv, -⟩ := BSReg.after_rel (m := m) (is := is) (fun i h => BSReg.SameBits.tick hq i h) hstart
  rw [hv]
  exact ⟨rfl, rfl, rfl, rfl, rfl⟩

/-! ### The read registers' residue (R242) -/

/-- Another read address and bit index. -/
def BSReg.withRead (a b : Nat) (c : BSReg) : BSReg := { c with raddr := a, bidx := b }

/-- The registers agree, but for the read address and the bit index out of READING. -/
def BSReg.SameButRead (c d : BSReg) : Prop := d = c ∨ c.st ≠ .reading ∧ ∃ a b, d = c.withRead a b

/-- Out of READING no transition reads the read registers. -/
theorem commit_bsTick_withRead {a b : Nat} (hst : c.st ≠ .reading)
    (hcheck : c.st = .spu → readCheck q c (nextShift q c.sr i.si) = false) :
    (c.withRead a b).commit (bsTick m q (c.withRead a b) i) = (c.commit (bsTick m q c i)).withRead a b := by
  cases h : c.st with
  | idle => rw [commit_bsTick_idle h, commit_bsTick_idle (c := c.withRead a b) h]; rfl
  | spd => rw [commit_bsTick_spd h, commit_bsTick_spd (c := c.withRead a b) h]; rfl
  | spupd => rw [commit_bsTick_spupd h, commit_bsTick_spupd (c := c.withRead a b) h]; rfl
  | dpu => rw [commit_bsTick_dpu h, commit_bsTick_dpu (c := c.withRead a b) h]; rfl
  | spu => rw [commit_bsTick_spu h (hcheck h), commit_bsTick_spu (c := c.withRead a b) h (hcheck h)]; rfl
  | reading => exact absurd h hst

theorem BSReg.SameButRead.tick (i : BSIn) (h : c.SameButRead d) :
    (c.commit (bsTick m q c i)).SameButRead (d.commit (bsTick m q d i)) := by
  obtain rfl | ⟨hst, a, b, rfl⟩ := h
  · exact .inl rfl
  · by_cases hcap : c.st = .spu ∧ readCheck q c (nextShift q c.sr i.si) = true
    · obtain ⟨hspu, hcheck⟩ := hcap
      refine .inl ?_
      rw [commit_bsTick_capture hspu hcheck, commit_bsTick_capture (c := c.withRead a b) hspu hcheck]
      exact BSReg.readAt_congr rfl rfl
    · have hcheck := fun hspu => Bool.eq_false_iff.mpr (not_and.mp hcap hspu)
      exact .inr ⟨(commit_bsTick_moved hst hcheck).2, a, b, commit_bsTick_withRead hst hcheck⟩

/-- Settles O41: the residue stays where it is until a capture overwrites it. -/
theorem readResidueNeverReachesTheOutput : Obligations.ReadResidueNeverReachesTheOutput := by
  intro m q c a b is hst
  have hstart : c.SameButRead { c with raddr := a, bidx := b } := .inr ⟨hst, a, b, rfl⟩
  obtain h | ⟨-, a', b', h⟩ := BSReg.after_rel (m := m) (q := q) (is := is) BSReg.SameButRead.tick hstart <;>
    rw [h] <;> exact ⟨rfl, rfl, rfl, rfl⟩

/-! ### The two readings of a deselect (R234) -/

/-- Another state. -/
def BSReg.withSt (st : BSSt) (c : BSReg) : BSReg := { c with st := st }

/-- The registers agree, or no edge of a selection is counted and one holds the selected state where the other holds the
deselected one. -/
def BSReg.SameReselected (c d : BSReg) : Prop :=
  d = c ∨ c.ec = 0 ∧ (c.st = .idle ∧ d = c.withSt .spd ∨ c.st = .dpu ∧ d = c.withSt .spu)

theorem BSReg.SameReselected.tick (hq : q.standard) (i : BSIn) (h : c.SameReselected d) :
    (c.commit (bsTick m q c i)).SameReselected (d.commit (bsTick m q d i)) := by
  obtain ⟨hpu, hrd, -⟩ := hq
  obtain rfl | ⟨hec, ⟨hst, rfl⟩ | ⟨hst, rfl⟩⟩ := h
  · exact .inl rfl
  · rw [commit_bsTick_idle hst, commit_bsTick_spd_of_ne (c := c.withSt .spd) rfl (show c.ec ≠ _ by omega)]
    cases hcs : i.cs with
    | false => exact .inr ⟨by simp [hcs], .inl ⟨rfl, rfl⟩⟩
    | true => exact .inl rfl
  · rw [commit_bsTick_dpu hst, commit_bsTick_spu_of_ne (c := c.withSt .spu) rfl (show c.ec ≠ _ by omega)]
    cases hcs : i.cs with
    | false => exact .inr ⟨by simp [hcs], .inr ⟨rfl, rfl⟩⟩
    | true => exact .inl rfl

theorem BSReg.SameReselected.so_eq (h : c.SameReselected d) : d.so = c.so := by
  obtain rfl | ⟨-, ⟨-, rfl⟩ | ⟨-, rfl⟩⟩ := h <;> rfl

/-- Settles O42: the two readings differ only until the reselect. -/
theorem deselectReadingsCannotBeToldApart : Obligations.DeselectReadingsCannotBeToldApart := by
  intro m q c is hq hec
  have hrun : ∀ {c d : BSReg}, c.SameReselected d → (BSReg.after m q d is).so = (BSReg.after m q c is).so :=
    fun h => (BSReg.after_rel (fun i h => BSReg.SameReselected.tick hq i h) h).so_eq
  exact ⟨hrun (.inr ⟨hec, .inl ⟨rfl, rfl⟩⟩), hrun (.inr ⟨hec, .inr ⟨rfl, rfl⟩⟩)⟩

end Sys2Proof.Machine
end

section
/-! PROOF. Exceptions and stops (60_exceptions.md R261 to R267, R275): the check that ends a run, and what the model refuses
of an instance that is not in order. -/

namespace Sys2Proof.Machine

variable {s : State} {id : InstId} {k d : Nat}

/-! ### The check fails (R262) -/

/-- The harness' comparison fails: there is an uncommitted pending set, and its clock sample or another element of it is not
what the tick rule gives (R261). -/
theorem I2CInst.differs_of_ne {x : I2CInst} {i : I2CIn} (hp : x.cd.pendClk ≠ none) (h : x.cd.pendClk ≠ some x.cd.clk ∨
    x.pend ≠ (if x.cd.prevClk = false ∧ x.cd.clk = true then i2cTick x.params x.reg i else {})) :
    x.differs i = true := by
  rw [← Bool.not_eq_false, I2CInst.differs_eq_false_iff, not_or, not_and_or]
  exact ⟨hp, h⟩

theorem LRInst.differs_of_ne {m : Memory} {x : LRInst} {i : LRIn} (hp : x.cd.pendClk ≠ none)
    (h : x.cd.pendClk ≠ some x.cd.clk ∨
      x.pend ≠ (if x.cd.prevClk = false ∧ x.cd.clk = true then lrTick m x.params x.reg i else {})) :
    x.differs m i = true := by
  rw [← Bool.not_eq_false, LRInst.differs_eq_false_iff, not_or, not_and_or]
  exact ⟨hp, h⟩

theorem BSInst.differs_of_ne {m : Memory} {x : BSInst} {i : BSIn} (hp : x.cd.pendClk ≠ none)
    (h : x.cd.pendClk ≠ some x.cd.clk ∨
      x.pend ≠ (if x.cd.prevClk = false ∧ x.cd.clk = true then bsTick m x.params x.reg i else {})) :
    x.differs m i = true := by
  rw [← Bool.not_eq_false, BSInst.differs_eq_false_iff, not_or, not_and_or]
  exact ⟨hp, h⟩

/-- A further evaluation that gives another pending set ends the run (log 10). -/
theorem exec_hostEvaluate_of_diverges (hn : s.nonconv = none) (hk : s.checking = true) (he : s.evaluable id = true)
    (hd : s.diverges id = true) : exec (.hostEvaluate id) s = .next (s.raise id) := by
  obtain ⟨t, ht⟩ := exec_hostEvaluate_answers hn he
  obtain ⟨-, hsome, heval⟩ := onInst_next ht
  obtain ⟨c, hc⟩ := Option.isSome_iff_exists.mp hsome
  obtain ⟨-, ⟨-, hnot⟩ | ⟨j, hj, -, -, rfl⟩⟩ := evaluate_next heval
  · have hsettled := hnot id ((State.mem_inScope_one hc id).mpr rfl)
    simp [hk, hd] at hsettled
  · rw [ht, (State.mem_inScope_one hc j).mp hj]

/-- A commit of a pending set that the inputs at the ports no longer give ends the run (log 10). -/
theorem exec_hostCommit_of_unsettled (hn : s.nonconv = none) (hk : s.checking = true) (hc : (s.cd? id).isSome = true)
    (hu : s.unsettled id = true) : exec (.hostCommit id) s = .next (s.raise id) :=
  (onInst_eq hn hc).trans (by simp [commitChecked, hk, hu])

/-! ### What the failed check leaves behind (R262, R266) -/

theorem step_raise (s : State) (id : InstId) : step (s.raise id) = .fault (.nonConvergence id) :=
  step_of_ended (State.raise_nonconv s id)

/-- The instance keeps its parameters, inputs, registers and trace; its pending set is gone. -/
theorem State.raise_i2c_self {x : I2CInst} (hx : s.i2cs[k]? = some x) : (s.raise (.i2c k)).i2cs[k]? =
    some { x with pend := {}, sampled := [], cd := { x.cd with pendClk := none, fresh := false } } := by
  simp [State.raise_i2c, hx, Scope.has, CD.discard]

theorem State.raise_lr_self {x : LRInst} (hx : s.lrs[k]? = some x) : (s.raise (.lr k)).lrs[k]? =
    some { x with pend := {}, sampled := [], cd := { x.cd with pendClk := none, fresh := false } } := by
  simp [State.raise_lr, hx, Scope.has, CD.discard]

theorem State.raise_bs_self {x : BSInst} (hx : s.bss[k]? = some x) : (s.raise (.bs k)).bss[k]? =
    some { x with pend := {}, sampled := [], cd := { x.cd with pendClk := none, fresh := false } } := by
  simp [State.raise_bs, hx, Scope.has, CD.discard]

/-- Settles O46: in either place the comparison fails, so that the answer is the raised state. -/
theorem divergingEvaluationEndsTheRun : Obligations.DivergingEvaluationEndsTheRun := by
  intro s k hn hk
  refine ⟨fun x hx he hp h => ?_, fun x hx he hp h => ?_, fun x hx he hp h => ?_, fun x hx hp h => ?_,
    fun x hx hp h => ?_, fun x hx hp h => ?_⟩
  · have hd : s.diverges (.i2c k) = true := by simp [State.diverges, hx, I2CInst.differs_of_ne hp h]
    exact ⟨_, exec_hostEvaluate_of_diverges hn hk he hd, State.raise_nonconv s _, State.sameBut_raise,
      State.raise_i2c_self hx, step_raise s _⟩
  · have hd : s.diverges (.lr k) = true := by simp [State.diverges, hx, LRInst.differs_of_ne hp h]
    exact ⟨_, exec_hostEvaluate_of_diverges hn hk he hd, State.raise_nonconv s _, State.sameBut_raise,
      State.raise_lr_self hx, step_raise s _⟩
  · have hd : s.diverges (.bs k) = true := by simp [State.diverges, hx, BSInst.differs_of_ne hp h]
    exact ⟨_, exec_hostEvaluate_of_diverges hn hk he hd, State.raise_nonconv s _, State.sameBut_raise,
      State.raise_bs_self hx, step_raise s _⟩
  · have hu : s.unsettled (.i2c k) = true := by simp [State.unsettled, hx, I2CInst.differs_of_ne hp h]
    exact ⟨_, exec_hostCommit_of_unsettled hn hk (by simp [State.cd?, hx]) hu, State.raise_nonconv s _,
      State.sameBut_raise, State.raise_i2c_self hx, step_raise s _⟩
  · have hu : s.unsettled (.lr k) = true := by simp [State.unsettled, hx, LRInst.differs_of_ne hp h]
    exact ⟨_, exec_hostCommit_of_unsettled hn hk (by simp [State.cd?, hx]) hu, State.raise_nonconv s _,
      State.sameBut_raise, State.raise_lr_self hx, step_raise s _⟩
  · have hu : s.unsettled (.bs k) = true := by simp [State.unsettled, hx, BSInst.differs_of_ne hp h]
    exact ⟨_, exec_hostCommit_of_unsettled hn hk (by simp [State.cd?, hx]) hu, State.raise_nonconv s _,
      State.sameBut_raise, State.raise_bs_self hx, step_raise s _⟩

/-! ### What is out of range (00_scope.md R12, 20_memory.md R82) -/

theorem I2CParams.ok_eq_false_iff {q : I2CParams} : q.ok = false ↔
    q.timeout = 0 ∨ q.inW = 0 ∨ q.outW = 0 ∨ (q.variant = .single ∧ q.inW ≠ q.outW) := by
  cases hv : q.variant <;> simp [I2CParams.ok, hv] <;> omega

theorem LRParams.ok_eq_false_iff {q : LRParams} : q.ok = false ↔ q.aw = 0 ∨ q.lw = 0 := by
  simp only [LRParams.ok, Bool.and_eq_false_iff, decide_eq_false_iff_not]
  omega

theorem Memory.imageOk_eq_false_iff {m : Memory} :
    m.imageOk = false ↔ m.cells.map (·.1) ≠ List.range' m.base m.len := by
  simp [Memory.imageOk]

/-! ### The refusals of HOST.EVALUATE (R275, 70_reset_and_hazards.md R283)

The first of the three that applies is the one that the host sees (log 28). -/

section Blocked

variable {c : CD}

theorem exec_hostEvaluate_neverReset (hn : s.nonconv = none) (hc : s.cd? id = some c) (hr : c.wasReset = false) :
    exec (.hostEvaluate id) s = .refused (.neverReset id) :=
  exec_hostEvaluate_refused hn (by simp [hc]) (by simp [State.blocked, hc, hr])

theorem exec_hostEvaluate_parameterRange (hn : s.nonconv = none) (hc : s.cd? id = some c) (hr : c.wasReset = true)
    (hp : s.paramsOk id = false) : exec (.hostEvaluate id) s = .refused (.parameterRange id) :=
  exec_hostEvaluate_refused hn (by simp [hc]) (by simp [State.blocked, hc, hr, hp])

theorem exec_hostEvaluate_imageLength (hn : s.nonconv = none) (hc : s.cd? id = some c) (hr : c.wasReset = true)
    (hp : s.paramsOk id = true) (hm : s.imageFor id = false) : exec (.hostEvaluate id) s = .refused .imageLength :=
  exec_hostEvaluate_refused hn (by simp [hc]) (by simp [State.blocked, hc, hr, hp, hm])

end Blocked

/-! ### An instance that no evaluation takes, whatever its clock does -/

/-- The instance, of clock domain `d`, was never reset, or its parameters or image are out of order: an evaluation of it is
refused with an edge or without one. -/
def State.Misused (s : State) (id : InstId) (d : Nat) : Prop :=
  ∃ c, s.cd? id = some c ∧ c.domain = d ∧
    (c.wasReset = false ∨ s.paramsOk id = false ∨ s.imageFor id = false)

theorem State.misused_i2c {x : I2CInst} (hx : s.i2cs[k]? = some x) (h : x.cd.wasReset = false ∨ x.params.ok = false) :
    s.Misused (.i2c k) x.cd.domain :=
  ⟨x.cd, by simp [State.cd?, hx], rfl, by simpa [State.paramsOk, State.imageFor, hx] using h⟩

theorem State.misused_lr {x : LRInst} (hx : s.lrs[k]? = some x)
    (h : x.cd.wasReset = false ∨ x.params.ok = false ∨ s.mem.imageOk = false) : s.Misused (.lr k) x.cd.domain :=
  ⟨x.cd, by simp [State.cd?, hx], rfl, by simpa [State.paramsOk, State.imageFor, hx] using h⟩

theorem State.misused_bs {x : BSInst} (hx : s.bss[k]? = some x) (h : x.cd.wasReset = false ∨ s.mem.imageOk = false) :
    s.Misused (.bs k) x.cd.domain :=
  ⟨x.cd, by simp [State.cd?, hx], rfl, by simpa [State.paramsOk, State.imageFor] using h⟩

theorem State.Misused.mem_inScope (h : s.Misused id d) : id ∈ s.inScope (.domain d) := by
  obtain ⟨c, hc, hd, -⟩ := h
  exact (State.mem_inScope id).mpr ⟨c, hc, by simp [Scope.has, hd]⟩

theorem State.Misused.isSome_blocked (h : s.Misused id d) : (s.blocked id).isSome = true := by
  obtain ⟨c, hc, -, h⟩ := h
  rw [← Option.ne_none_iff_isSome]
  intro hb
  obtain ⟨c', hc', hreset, hparams, himage, -⟩ := State.of_blocked_none hb
  cases hc.symm.trans hc'
  simp [hreset, hparams, himage] at h

/-- A change of instances that keeps parameters, clock domains and what was reset leaves the instance misused. -/
theorem State.Misused.mapScope {sc : Scope} {fi : Nat → I2CInst → I2CInst} {fl : Nat → LRInst → LRInst}
    {fb : Nat → BSInst → BSInst} {f : CD → CD} (h : s.Misused id d)
    (hi : ∀ k x, (fi k x).params = x.params ∧ (fi k x).cd = f x.cd)
    (hl : ∀ k x, (fl k x).params = x.params ∧ (fl k x).cd = f x.cd) (hb : ∀ k x, (fb k x).cd = f x.cd)
    (hf : ∀ c, (f c).domain = c.domain ∧ (f c).wasReset = c.wasReset) : (s.mapScope sc fi fl fb).Misused id d := by
  obtain ⟨c, hc, hd, h⟩ := h
  have hparams := State.mapScope_paramsOk (s := s) (sc := sc) (fb := fb) (fun k x => (hi k x).1) (fun k x => (hl k x).1)
  refine ⟨if sc.has id c then f c else c, ?_, ?_, ?_⟩
  · rw [State.mapScope_cd? f (fun k x => (hi k x).2) (fun k x => (hl k x).2) hb, hc, Option.map_some]
  · split
    · exact (hf c).1.trans hd
    · exact hd
  · have hreset : (if sc.has id c then f c else c).wasReset = c.wasReset := by
      split
      · exact (hf c).2
      · rfl
    have himage : (s.mapScope sc fi fl fb).imageFor id = s.imageFor id := State.imageFor_congr rfl
    rwa [hreset, hparams, himage]

theorem State.Misused.setI2cIn (h : s.Misused id d) (j : Nat) (i : I2CIn) : (s.setI2cIn j i).Misused id d :=
  h.mapScope (f := fun c => c) (fun _ _ => ⟨rfl, rfl⟩) (fun _ _ => ⟨rfl, rfl⟩) (fun _ _ => rfl) fun _ => ⟨rfl, rfl⟩

theorem State.Misused.setLrIn (h : s.Misused id d) (j : Nat) (i : LRIn) : (s.setLrIn j i).Misused id d :=
  h.mapScope (f := fun c => c) (fun _ _ => ⟨rfl, rfl⟩) (fun _ _ => ⟨rfl, rfl⟩) (fun _ _ => rfl) fun _ => ⟨rfl, rfl⟩

theorem State.Misused.setBsIn (h : s.Misused id d) (j : Nat) (i : BSIn) : (s.setBsIn j i).Misused id d :=
  h.mapScope (f := fun c => c) (fun _ _ => ⟨rfl, rfl⟩) (fun _ _ => ⟨rfl, rfl⟩) (fun _ _ => rfl) fun _ => ⟨rfl, rfl⟩

theorem State.Misused.driveClk (h : s.Misused id d) (e : Nat) (v : Bool) : (s.driveClk e v).Misused id d :=
  have hm : (s.mapCD (.domain e) (CD.driveClk v)).Misused id d :=
    h.mapScope (f := CD.driveClk v) (fun _ _ => ⟨rfl, rfl⟩) (fun _ _ => ⟨rfl, rfl⟩) (fun _ _ => rfl)
      fun c => ⟨CD.driveClk_domain v c, CD.driveClk_wasReset v c⟩
  hm

/-! ### A line or a frame of its clock domain is refused (log 28) -/

/-- A blocked instance of the scope is a refusal of the whole evaluation. -/
theorem evaluate_refused {sc : Scope} (hid : id ∈ s.inScope sc) (hb : (s.blocked id).isSome = true) :
    ∃ r, evaluate sc s = .refused r := by
  have hsome : ((s.inScope sc).findSome? s.blocked).isSome = true := List.findSome?_isSome_iff.mpr ⟨id, hid, hb⟩
  obtain ⟨r, hr⟩ := Option.isSome_iff_exists.mp hsome
  exact ⟨r, by rw [evaluate, hr]⟩

/-- The first evaluation of the cycle is refused. -/
theorem State.Misused.cycle_refused (h : s.Misused id d) : ∃ r, cycle d s = .refused r := by
  have hup := h.driveClk d true
  obtain ⟨r, hr⟩ := evaluate_refused hup.mem_inScope hup.isSome_blocked
  exact ⟨r, by rw [cycle, settle, hr]; rfl⟩

theorem i2cLine_refused {x : I2CInst} (i : I2CIn) (hn : s.nonconv = none) (hx : s.i2cs[k]? = some x)
    (h : s.Misused (.i2c k) x.cd.domain) : ∃ r, i2cLine k i s = .refused r := by
  rw [i2cLine, guardRun_of_running _ hn, hx]
  exact (h.setI2cIn k i).cycle_refused

theorem lrLine_refused {x : LRInst} (i : LRIn) (hn : s.nonconv = none) (hx : s.lrs[k]? = some x)
    (h : s.Misused (.lr k) x.cd.domain) : ∃ r, lrLine k i s = .refused r := by
  rw [lrLine, guardRun_of_running _ hn, hx]
  exact (h.setLrIn k i).cycle_refused

theorem bsLine_refused {x : BSInst} (i : BSIn) (hn : s.nonconv = none) (hx : s.bss[k]? = some x)
    (h : s.Misused (.bs k) x.cd.domain) : ∃ r, bsLine k i s = .refused r := by
  rw [bsLine, guardRun_of_running _ hn, hx]
  exact (h.setBsIn k i).cycle_refused

/-- A frame of at least one bit is refused at its first edge (30_encoding.md R123). -/
theorem bsSend_refused {x : BSInst} {bits : List Bool} (hb : bits ≠ []) (hn : s.nonconv = none)
    (hx : s.bss[k]? = some x) (h : s.Misused (.bs k) x.cd.domain) : ∃ r, bsSend k bits s = .refused r := by
  obtain ⟨b, bs, rfl⟩ := List.exists_cons_of_ne_nil hb
  obtain ⟨r, hr⟩ := bsLine_refused ⟨true, b⟩ hn hx h
  exact ⟨r, by rw [bsSend, hr, andThen]⟩

/-! ### Creation (70_reset_and_hazards.md R283 item 1) -/

theorem step_create {n : NewInst} {rest : List HostAct} (hn : s.nonconv = none) :
    step (s.withScript (.create n :: rest)) = createInst n (s.withScript rest) :=
  guardRun_of_running _ hn

/-- Settles O53: each range in the words of the model's own checks; a call is refused by the check that fails first, a line
or a frame at the first evaluation of its cycle. -/
theorem misusedInstanceIsRefused : Obligations.MisusedInstanceIsRefused := by
  intro s hn
  simp only [← I2CParams.ok_eq_false_iff, ← LRParams.ok_eq_false_iff, ← Memory.imageOk_eq_false_iff, Bool.not_eq_false]
  refine ⟨fun id c hc hr => exec_hostEvaluate_neverReset hn hc hr, fun k x hx => ⟨fun hr hp => ?_, fun h i => ?_⟩,
    fun k x hx => ⟨fun hr hp => ?_, fun hr hp hm => ?_, fun h i => ?_⟩,
    fun k x hx => ⟨fun hr hm => ?_, fun h => ⟨fun i => ?_, ?_, fun addr => ?_⟩⟩,
    fun d rest => ⟨fun q => ⟨fun hq => ?_, fun hq => ?_⟩, fun q => ⟨fun hq => ?_, fun hq => ?_⟩, fun q => ?_⟩⟩
  -- An I2C instance
  · exact exec_hostEvaluate_parameterRange hn (by simp [State.cd?, hx]) hr (by simp [State.paramsOk, hx, hp])
  · rw [exec_i2cOp]
    exact i2cLine_refused i hn hx (State.misused_i2c hx h)
  -- A linear reader
  · exact exec_hostEvaluate_parameterRange hn (by simp [State.cd?, hx]) hr (by simp [State.paramsOk, hx, hp])
  · exact exec_hostEvaluate_imageLength hn (by simp [State.cd?, hx]) hr (by simp [State.paramsOk, hx, hp]) hm
  · rw [exec_lrOp]
    exact lrLine_refused i hn hx (State.misused_lr hx h)
  -- A recognizer
  · exact exec_hostEvaluate_imageLength hn (by simp [State.cd?, hx]) hr rfl hm
  · exact bsLine_refused i hn hx (State.misused_bs hx h)
  · exact bsSend_refused (msbFirst_ne_nil (by decide) _) hn hx (State.misused_bs hx h)
  · exact bsSend_refused (msbFirst_ne_nil (by decide) _) hn hx (State.misused_bs hx h)
  -- A creation
  · simp [step_create hn, createInst, hq]
  · simp [step_create hn, createInst, hq]
  · simp [step_create hn, createInst, hq]
  · simp [step_create hn, createInst, hq]
  · exact ⟨_, step_create hn⟩

end Sys2Proof.Machine
end

section
/-! PROOF. The reset values (10_state.md R64, 70_reset_and_hazards.md section 1): HOST.RESET gives them to every state
element, the output ports show them, and an edge with no input asserted leaves them. -/

namespace Sys2Proof.Machine

variable {s : State} {k : Nat}

/-! ### HOST.RESET (R280) -/

/-- Settles O43: the call is the reset of the one instance, which leaves every other instance alone. -/
theorem hostResetGivesTheResetValues : Obligations.HostResetGivesTheResetValues := by
  intro s k hn
  refine ⟨fun x hx => ?_, fun x hx => ?_, fun x hx => ?_⟩
  · refine ⟨_, exec_hostReset hn (by simp [State.cd?, hx]), State.sameBut_afterReset, hn, ?_⟩
    rw [State.afterReset_i2c, hx, Option.map_some, if_pos (by simp [Scope.has])]
    rfl
  · refine ⟨_, exec_hostReset hn (by simp [State.cd?, hx]), State.sameBut_afterReset, hn, ?_⟩
    rw [State.afterReset_lr, hx, Option.map_some, if_pos (by simp [Scope.has])]
    rfl
  · refine ⟨_, exec_hostReset hn (by simp [State.cd?, hx]), State.sameBut_afterReset, hn, ?_⟩
    rw [State.afterReset_bs, hx, Option.map_some, if_pos (by simp [Scope.has])]
    rfl

/-! ### The outputs of the reset registers (R281) -/

/-- The two variants read their slot ports from different registers; at reset these agree. -/
theorem I2CInst.output_of_reset {x : I2CInst} (h : x.reg = I2CReg.reset) :
    x.output .busy = some 0 ∧ x.output .ack = some 0 ∧ x.output .inReady = some 1 ∧ x.output .outReady = some 0 ∧
      x.output .outData = some 0 := by
  simp only [I2CInst.output, h]
  cases x.params.variant <;> exact ⟨rfl, rfl, rfl, rfl, rfl⟩

theorem LRInst.output_of_reset {x : LRInst} (h : x.reg = LRReg.reset) :
    x.output .busy = some 0 ∧ x.output .data = some 0 ∧ x.output .valid = some 0 := by
  simp only [LRInst.output, h]
  exact ⟨rfl, rfl, rfl⟩

theorem BSInst.output_of_reset {x : BSInst} (h : x.reg = BSReg.reset) : x.output .so = some 0 := by
  rw [BSInst.output, h]
  rfl

/-- Settles O60: every instance of the reset state has the reset registers. -/
theorem outputsAfterReset : Obligations.OutputsAfterReset := by
  obtain ⟨hbusy, hdata, hvalid⟩ := LRInst.output_of_reset (x := LRInst.initial LRParams.default 2 true) rfl
  refine ⟨fun k hk => ?_, hbusy, hdata, hvalid,
    BSInst.output_of_reset (x := BSInst.initial BSParams.default 3 true) rfl⟩
  match k, hk with
  | 0, _ => exact I2CInst.output_of_reset (x := I2CInst.initial (I2CParams.default .dual) 0 true) rfl
  | 1, _ => exact I2CInst.output_of_reset (x := I2CInst.initial (I2CParams.default .single) 1 true) rfl

/-! ### The reset registers under the tick rules (R282) -/

/-- With every 1-bit input 0; the data ports are not read. -/
theorem commit_i2cTick_reset (q : I2CParams) (a b : Nat) :
    I2CReg.reset.commit (i2cTick q I2CReg.reset ⟨false, false, false, false, false, a, b⟩) = I2CReg.reset :=
  commit_i2cTick_slots_stay rfl rfl rfl (by simp [I2CReg.reset])

theorem appendConsumed_i2cTick_reset (tr : List TraceEvent) (q : I2CParams) (i : I2CIn) :
    appendConsumed tr (i2cTick q I2CReg.reset i) = tr := by
  rw [appendConsumed_i2cTick, if_neg (by simp [I2CReg.reset])]

theorem commit_lrTick_reset {m : Memory} {q : LRParams} {i : LRIn} (hs : i.start = false) :
    LRReg.reset.commit (lrTick m q LRReg.reset i) = LRReg.reset :=
  commit_lrTick_idle rfl hs

/-- Not selected, whatever the serial-in. -/
theorem commit_bsTick_reset {m : Memory} {q : BSParams} {i : BSIn} (hcs : i.cs = false) :
    BSReg.reset.commit (bsTick m q BSReg.reset i) = BSReg.reset := by
  rw [commit_bsTick_idle rfl, BSReg.moved, hcs]
  rfl

/-! ### Any number of edges -/

/-- What every operation of a sequence keeps holds after the sequence. -/
theorem execAll_keeps {P : State → Prop} {is : List Instr}
    (hstep : ∀ i ∈ is, ∀ s, P s → ∃ t, exec i s = .next t ∧ t.nonconv = none ∧ P t) (h : P s) :
    ∃ t, execAll is s = .next t ∧ P t := by
  induction is generalizing s with
  | nil => exact ⟨s, rfl, h⟩
  | cons i is ih =>
    obtain ⟨t, ht, hrun, hP⟩ := hstep i List.mem_cons_self s h
    rw [execAll_cons ht hrun]
    exact ih (fun j hj => hstep j (List.mem_cons_of_mem i hj)) hP

/-- An unwired I2C instance at rest with the reset registers and this trace. -/
def State.I2cAtReset (k : Nat) (tr : List TraceEvent) (s : State) : Prop :=
  ∃ x, s.restI2c k x ∧ x.reg = I2CReg.reset ∧ x.trace = tr

/-- An unwired linear reader at rest with the reset registers. -/
def State.LrAtReset (k : Nat) (s : State) : Prop := ∃ x, s.restLr k x ∧ x.reg = LRReg.reset

/-- An unwired recognizer at rest with the reset registers. -/
def State.BsAtReset (k : Nat) (s : State) : Prop := ∃ x, s.restBs k x ∧ x.reg = BSReg.reset

theorem State.I2cAtReset.tick {tr : List TraceEvent} (h : s.I2cAtReset k tr) :
    ∃ t, exec (.i2cTick k false 0 0) s = .next t ∧ t.nonconv = none ∧ t.I2cAtReset k tr := by
  obtain ⟨x, hrest, hreset, rfl⟩ := h
  obtain ⟨t, y, ht, hy, hreg, htrace, hrun, -⟩ := exec_i2cOp_of_restI2c I2CIn.zero hrest
  rw [hreset] at hreg htrace
  exact ⟨t, ht, hrun, y, hy, hreg.trans (commit_i2cTick_reset ..), htrace.trans (appendConsumed_i2cTick_reset ..)⟩

theorem State.LrAtReset.tick (h : s.LrAtReset k) :
    ∃ t, exec (.lrTick k 0 0) s = .next t ∧ t.nonconv = none ∧ t.LrAtReset k := by
  obtain ⟨x, hrest, hreset⟩ := h
  obtain ⟨t, y, ht, hy, hreg, hrun, -⟩ := exec_lrOp_of_restLr LRIn.zero hrest
  rw [hreset] at hreg
  exact ⟨t, ht, hrun, y, hy, hreg.trans (commit_lrTick_reset rfl)⟩

theorem State.BsAtReset.tick (h : s.BsAtReset k) (si : Bool) :
    ∃ t, exec (.bsTick k false si) s = .next t ∧ t.nonconv = none ∧ t.BsAtReset k := by
  obtain ⟨x, hrest, hreset⟩ := h
  obtain ⟨t, y, ht, hy, hreg, hrun, -⟩ := bsLine_of_restBs ⟨false, si⟩ hrest
  rw [hreset] at hreg
  exact ⟨t, (exec_bsOp ⟨false, si⟩).trans ht, hrun, y, hy, hreg.trans (commit_bsTick_reset rfl)⟩

/-- Settles O51: each edge keeps the instance at rest with the reset registers. -/
theorem resetStateIsAFixedPoint : Obligations.ResetStateIsAFixedPoint := by
  intro s k n
  refine ⟨fun x hrest hreset => ?_, fun x hrest hreset => ?_, fun x sis hrest hreset => ?_⟩
  · obtain ⟨t, ht, y, ⟨hy, -, -⟩, hreg, htrace⟩ := execAll_keeps (P := State.I2cAtReset k x.trace)
      (is := List.replicate n (.i2cTick k false 0 0))
      (fun i hi _ h => List.eq_of_mem_replicate hi ▸ h.tick) ⟨x, hrest, hreset, rfl⟩
    exact ⟨t, y, ht, hy, hreg, htrace⟩
  · obtain ⟨t, ht, y, ⟨hy, -, -⟩, hreg⟩ := execAll_keeps (P := State.LrAtReset k)
      (is := List.replicate n (.lrTick k 0 0))
      (fun i hi _ h => List.eq_of_mem_replicate hi ▸ h.tick) ⟨x, hrest, hreset⟩
    exact ⟨t, y, ht, hy, hreg⟩
  · obtain ⟨t, ht, y, ⟨hy, -, -⟩, hreg⟩ := execAll_keeps (P := State.BsAtReset k)
      (is := sis.map fun si => .bsTick k false si)
      (fun i hi _ h => by obtain ⟨si, -, rfl⟩ := List.mem_map.mp hi; exact h.tick si) ⟨x, hrest, hreset⟩
    exact ⟨t, y, ht, hy, hreg⟩

end Sys2Proof.Machine
end
